-- ==== Sys2Proof/Word.lean ====
section
/-! DEFINITION. The word types of KDB: the 32-bit command word (R57), the byte, and a logic level. -/

namespace Sys2Proof

/-- A command word (R57): 32 bits, bit 0 least significant (R10). -/
abbrev Word := BitVec 32

/-- A byte: a symbol (D5), a display bus byte (R67), a command field (R57). -/
abbrev Byte := BitVec 8

/-- A logic level (R13): `true` is 1 (high), `false` is 0 (low). -/
abbrev Level := Bool

end Sys2Proof
end

