-- ==== Sys2Proof/Config.lean ====
section
/-! DEFINITION. What an implementation of KDB fixes: the parameters of R5 and the free values of the spec. -/

namespace Sys2Proof

/-- `SYMBOL_WIDTH` (R5, D5). -/
abbrev Config.symbolWidth : Nat := 8

/-- `NUM_WIDTH` (R5, D21): a VALUE is a signed integer of this many bits. -/
abbrev Config.numWidth : Nat := 32

/-- `DISP_ROWS` (R5): rows 0..3, one for each entry of `ROW_BASE`. -/
abbrev Config.dispRows : Nat := 4

/-- One GPIO register of a port (R15): `PORT_WIDTH` is a parameter (R5, D3), so a register is the natural number
whose bit `i` is the register's bit `i`; the invariant keeps it below `2 ^ PORT_WIDTH`; log 15. -/
abbrev PortReg := Nat

/-- A pin index of a port (R39); a valid configuration holds only indices below `PORT_WIDTH` (R22, R24). -/
abbrev Pin := Nat

/-- `KP_DETECT_MODE` (R86, D11). -/
inductive DetectMode where
  | blockingRelease
  | singleSample
  deriving DecidableEq, Repr

/-- The three writable registers of one port (R15). -/
structure PortRegs where
  dir : PortReg
  out : PortReg
  pull : PortReg
  deriving DecidableEq, Repr

/-- The implementation parameters of R5 that a rule can see. They are data that no step changes, so a
statement over all states is a statement over all their values. `sharedDisp` is the one visible part of
`PORT_BINDING`: whether DD and DC are one port (R15). -/
structure Params where
  portWidth : Nat
  detectMode : DetectMode
  sharedDisp : Bool
  gpioKR : PortRegs
  gpioKC : PortRegs
  gpioDD : PortRegs
  gpioDC : PortRegs
  rowBase : Vector Byte 4
  bootCmds : Vector Byte 5
  cmdClear : Byte
  cmdReturnHome : Byte
  wrapCol : Nat
  wrapRow : Nat
  dispCols : Nat
  deriving DecidableEq, Repr

/-- All bits 0: the default `GPIO_RESET` of a port (R5, D26). -/
def PortRegs.zero : PortRegs := { dir := 0, out := 0, pull := 0 }

/-- The defaults of R5. DESIGN CHOICE for `sharedDisp` (OPEN in R5): two distinct ports; log 5. -/
def Params.default : Params where
  portWidth := 8
  detectMode := .blockingRelease
  sharedDisp := false
  gpioKR := .zero
  gpioKC := .zero
  gpioDD := .zero
  gpioDC := .zero
  rowBase := #v[0x80, 0xC0, 0x94, 0xD4]
  bootCmds := #v[0x02, 0x28, 0x0E, 0x06, 0x01]
  cmdClear := 0x01
  cmdReturnHome := 0x02
  wrapCol := 20
  wrapRow := 1
  dispCols := 20

/-- FREE VALUE: the `n`-th sample on which the spec places no law (R84, R18). It has no body, so nothing
can be proved of a value of it; log 3. -/
opaque Config.envDraw : Nat → Level

/-- FREE VALUE: the byte a Position sends for a column of 256 or more, from `ROW_BASE[row]` and the column. The OR of
R120 then fits no bus byte (R67), and R71 states no result; DESIGN CHOICE: it has no body; log 33. -/
opaque Config.wideAddress : Byte → Nat → Byte

/-- The delay unit's duration (U18, OPEN). DESIGN CHOICE: durations are whole numbers of an unnamed tick, which
the spec does not say; `T_EDGE` and `T_POWER` stand in no relation to the unit (R196); log 19. -/
opaque Config.tUnit : Nat

/-- `T_EDGE` (R5, OPEN). DESIGN CHOICE: a whole number of the ticks of `Config.tUnit`, not of delay units; no rule
depends on it (R169); log 19. -/
opaque Config.tEdge : Nat

/-- `T_POWER` (R5, OPEN). DESIGN CHOICE: a whole number of the ticks of `Config.tUnit`, not of delay units; no rule
depends on it (R169); log 19. -/
opaque Config.tPower : Nat

end Sys2Proof
end

