-- ==== Sys2Proof/Payload.lean ====
section
/-! DEFINITION. The payloads handed over with a command word (R60, R42), and the reasons for which a command
is refused (R162). -/

namespace Sys2Proof

/-- A KPCFG payload (R60). Pin indices and symbols are natural numbers whose range KP_INIT checks (R80);
`keyMap` is row-major, `key_map[r][c]` at index `6 r + c`, and KP_INIT checks that it has 24 entries. -/
structure KpCfg where
  rowPins : Vector Nat 4
  colPins : Vector Nat 6
  keyMap : List Nat
  deriving DecidableEq, Repr

/-- A DISPCFG payload (R60): `ctrlPins` is ordered RS, RW, EN. -/
structure DispCfg where
  dataPins : Vector Nat 4
  ctrlPins : Vector Nat 3
  deriving DecidableEq, Repr

/-- The five payload kinds (R60). -/
inductive PayloadKind where
  | none
  | kpcfg
  | dispcfg
  | text
  | value
  deriving DecidableEq, Repr

/-- A value handed over with a command word. `foreign num den` is a fixed-point or floating-point number
`num / den`, which has no payload kind (R64). -/
inductive Payload where
  | none
  | kpcfg (cfg : KpCfg)
  | dispcfg (cfg : DispCfg)
  | text (bytes : List Byte)
  | value (v : Int)
  | foreign (num : Int) (den : Nat)
  deriving DecidableEq, Repr

/-- The refusal reasons of R162. -/
inductive Illegal where
  | illegalUnit
  | illegalOp
  | nonzeroUnusedField
  | payloadKind
  deriving DecidableEq, Repr

end Sys2Proof
end

