-- ==== Sys2Proof/Syntax.lean ====
section
/-! DEFINITION. The 14 commands of the opcode map (R61), one constructor for each row. -/

namespace Sys2Proof

/-- A command with its operands and payload (R61). -/
inductive Instr where
  | kpInit (cfg : KpCfg)
  | kpRead
  | kpDetect (col : Byte)
  | dispInit (cfg : DispCfg)
  | dispSendCommand (code : Byte)
  | dispPrintChar (code : Byte)
  | dispPrintCharTo (row col code : Byte)
  | dispPrintString (text : List Byte)
  | dispPrintStringTo (row col : Byte) (text : List Byte)
  | dispMoveCursor (row col : Byte)
  | dispClear
  | dispReturnHome
  | dispPrintNumber (v : Int)
  | dispPrintNumberTo (row col : Byte) (v : Int)
  deriving DecidableEq, Repr

end Sys2Proof
end

