-- ==== Sys2Proof/WellFormed.lean ====
section
/-! DEFINITION. Which command terms are well formed: those a host can issue. All operand fields fit by their
type; a VALUE must be a signed 32-bit integer (R60, R64). -/

namespace Sys2Proof

/-- A VALUE payload is a signed 32-bit integer (R64, `NUM_WIDTH`). -/
def inNumRange (v : Int) : Bool :=
  decide (-(2 ^ (Config.numWidth - 1) : Int) ≤ v) && decide (v < (2 ^ (Config.numWidth - 1) : Int))

/-- Well-formedness of a command, with every constructor named. -/
def Instr.wellFormed : Instr → Bool
  | .kpInit _ => true
  | .kpRead => true
  | .kpDetect _ => true
  | .dispInit _ => true
  | .dispSendCommand _ => true
  | .dispPrintChar _ => true
  | .dispPrintCharTo _ _ _ => true
  | .dispPrintString _ => true
  | .dispPrintStringTo _ _ _ => true
  | .dispMoveCursor _ _ => true
  | .dispClear => true
  | .dispReturnHome => true
  | .dispPrintNumber v => inNumRange v
  | .dispPrintNumberTo _ _ v => inNumRange v

end Sys2Proof
end

