-- ==== Sys2Proof/Decode.lean ====
section
/-! DEFINITION. Decoding of a command word with its payload (R57 to R63), and the encoder. -/

namespace Sys2Proof

/-- `UNIT = word[31:28]` (R57). -/
def fieldUnit (w : Word) : BitVec 4 := w.extractLsb' 28 4
/-- `OP = word[27:24]` (R57). -/
def fieldOp (w : Word) : BitVec 4 := w.extractLsb' 24 4
/-- `ROW = word[23:16]` (R57). -/
def fieldRow (w : Word) : Byte := w.extractLsb' 16 8
/-- `COL = word[15:8]` (R57). -/
def fieldCol (w : Word) : Byte := w.extractLsb' 8 8
/-- `DATA = word[7:0]` (R57). -/
def fieldData (w : Word) : Byte := w.extractLsb' 0 8

/-- `word = {UNIT, OP, ROW, COL, DATA}` (R57). -/
def packWord (u o : BitVec 4) (row col data : Byte) : Word := u ++ o ++ row ++ col ++ data

/-- The rows of the opcode map (R61), without operands. -/
inductive Opcode where
  | kpInit | kpRead | kpDetect
  | dispInit | dispSendCommand | dispPrintChar | dispPrintCharTo | dispPrintString | dispPrintStringTo
  | dispMoveCursor | dispClear | dispReturnHome | dispPrintNumber | dispPrintNumberTo
  deriving DecidableEq, Repr

/-- The row of R61 with this UNIT and OP, or the reason there is none (R63, R162). -/
def opcodeAt (u o : BitVec 4) : Except Illegal Opcode :=
  match u.toNat with
  | 1 =>
    match o.toNat with
    | 0 => .ok .kpInit
    | 1 => .ok .kpRead
    | 2 => .ok .kpDetect
    | _ => .error .illegalOp
  | 2 =>
    match o.toNat with
    | 0 => .ok .dispInit
    | 1 => .ok .dispSendCommand
    | 2 => .ok .dispPrintChar
    | 3 => .ok .dispPrintCharTo
    | 4 => .ok .dispPrintString
    | 5 => .ok .dispPrintStringTo
    | 6 => .ok .dispMoveCursor
    | 7 => .ok .dispClear
    | 8 => .ok .dispReturnHome
    | 9 => .ok .dispPrintNumber
    | 10 => .ok .dispPrintNumberTo
    | _ => .error .illegalOp
  | _ => .error .illegalUnit

/-- The UNIT and OP of a row (R61). -/
def opcodeCode : Opcode → BitVec 4 × BitVec 4
  | .kpInit => (0x1, 0x0)
  | .kpRead => (0x1, 0x1)
  | .kpDetect => (0x1, 0x2)
  | .dispInit => (0x2, 0x0)
  | .dispSendCommand => (0x2, 0x1)
  | .dispPrintChar => (0x2, 0x2)
  | .dispPrintCharTo => (0x2, 0x3)
  | .dispPrintString => (0x2, 0x4)
  | .dispPrintStringTo => (0x2, 0x5)
  | .dispMoveCursor => (0x2, 0x6)
  | .dispClear => (0x2, 0x7)
  | .dispReturnHome => (0x2, 0x8)
  | .dispPrintNumber => (0x2, 0x9)
  | .dispPrintNumberTo => (0x2, 0xA)

/-- Does the command use the ROW field (R61)? -/
def usesRow : Opcode → Bool
  | .dispPrintCharTo | .dispPrintStringTo | .dispMoveCursor | .dispPrintNumberTo => true
  | .kpInit | .kpRead | .kpDetect | .dispInit | .dispSendCommand | .dispPrintChar | .dispPrintString
  | .dispClear | .dispReturnHome | .dispPrintNumber => false

/-- Does the command use the COL field (R61)? -/
def usesCol : Opcode → Bool
  | .kpDetect | .dispPrintCharTo | .dispPrintStringTo | .dispMoveCursor | .dispPrintNumberTo => true
  | .kpInit | .kpRead | .dispInit | .dispSendCommand | .dispPrintChar | .dispPrintString
  | .dispClear | .dispReturnHome | .dispPrintNumber => false

/-- Does the command use the DATA field (R61)? -/
def usesData : Opcode → Bool
  | .dispSendCommand | .dispPrintChar | .dispPrintCharTo => true
  | .kpInit | .kpRead | .kpDetect | .dispInit | .dispPrintString | .dispPrintStringTo | .dispMoveCursor
  | .dispClear | .dispReturnHome | .dispPrintNumber | .dispPrintNumberTo => false

/-- The payload kind a command carries (R60, R61); a decoder learns it from UNIT and OP alone (R65). -/
def opcodeKind : Opcode → PayloadKind
  | .kpInit => .kpcfg
  | .dispInit => .dispcfg
  | .dispPrintString | .dispPrintStringTo => .text
  | .dispPrintNumber | .dispPrintNumberTo => .value
  | .kpRead | .kpDetect | .dispSendCommand | .dispPrintChar | .dispPrintCharTo | .dispMoveCursor
  | .dispClear | .dispReturnHome => .none

/-- The kind of a payload; a number that is no signed 32-bit integer has none (R64). -/
def payloadKindOf : Payload → Option PayloadKind
  | .none => some .none
  | .kpcfg _ => some .kpcfg
  | .dispcfg _ => some .dispcfg
  | .text _ => some .text
  | .value v => if inNumRange v then some .value else none
  | .foreign _ _ => none

/-- A field the command does not use holds a nonzero value (R59). -/
def unusedNonzero (op : Opcode) (w : Word) : Bool :=
  (!usesRow op && fieldRow w != 0) || (!usesCol op && fieldCol w != 0) || (!usesData op && fieldData w != 0)

/-- The command of a row, from its operand fields and a payload of its kind; none if the payload is of
another kind. -/
def buildInstr (op : Opcode) (w : Word) (p : Payload) : Option Instr :=
  match op, p with
  | .kpInit, .kpcfg cfg => some (.kpInit cfg)
  | .kpRead, .none => some .kpRead
  | .kpDetect, .none => some (.kpDetect (fieldCol w))
  | .dispInit, .dispcfg cfg => some (.dispInit cfg)
  | .dispSendCommand, .none => some (.dispSendCommand (fieldData w))
  | .dispPrintChar, .none => some (.dispPrintChar (fieldData w))
  | .dispPrintCharTo, .none => some (.dispPrintCharTo (fieldRow w) (fieldCol w) (fieldData w))
  | .dispPrintString, .text t => some (.dispPrintString t)
  | .dispPrintStringTo, .text t => some (.dispPrintStringTo (fieldRow w) (fieldCol w) t)
  | .dispMoveCursor, .none => some (.dispMoveCursor (fieldRow w) (fieldCol w))
  | .dispClear, .none => some .dispClear
  | .dispReturnHome, .none => some .dispReturnHome
  | .dispPrintNumber, .value v => some (.dispPrintNumber v)
  | .dispPrintNumberTo, .value v => some (.dispPrintNumberTo (fieldRow w) (fieldCol w) v)
  | _, _ => none

/-- Decoding (R62), total: the command of a word and its payload, or the reason it is ILLEGAL (R162), the
checks in the order of R62. -/
def decode (w : Word) (p : Payload) : Except Illegal Instr :=
  match opcodeAt (fieldUnit w) (fieldOp w) with
  | .error e => .error e
  | .ok op =>
    if unusedNonzero op w then .error .nonzeroUnusedField
    else if payloadKindOf p != some (opcodeKind op) then .error .payloadKind
    else
      match buildInstr op w p with
      | some i => .ok i
      | none => .error .payloadKind

/-- The row of R61 a command stands in. -/
def opcodeOf : Instr → Opcode
  | .kpInit _ => .kpInit
  | .kpRead => .kpRead
  | .kpDetect _ => .kpDetect
  | .dispInit _ => .dispInit
  | .dispSendCommand _ => .dispSendCommand
  | .dispPrintChar _ => .dispPrintChar
  | .dispPrintCharTo _ _ _ => .dispPrintCharTo
  | .dispPrintString _ => .dispPrintString
  | .dispPrintStringTo _ _ _ => .dispPrintStringTo
  | .dispMoveCursor _ _ => .dispMoveCursor
  | .dispClear => .dispClear
  | .dispReturnHome => .dispReturnHome
  | .dispPrintNumber _ => .dispPrintNumber
  | .dispPrintNumberTo _ _ _ => .dispPrintNumberTo

/-- A word of the row `op` with these operand fields. -/
def wordOf (op : Opcode) (row col data : Byte) : Word :=
  packWord (opcodeCode op).1 (opcodeCode op).2 row col data

/-- The command word of a command (R61), unused fields zero (R59). -/
def encode : Instr → Word
  | .kpInit _ => wordOf .kpInit 0 0 0
  | .kpRead => wordOf .kpRead 0 0 0
  | .kpDetect col => wordOf .kpDetect 0 col 0
  | .dispInit _ => wordOf .dispInit 0 0 0
  | .dispSendCommand code => wordOf .dispSendCommand 0 0 code
  | .dispPrintChar code => wordOf .dispPrintChar 0 0 code
  | .dispPrintCharTo row col code => wordOf .dispPrintCharTo row col code
  | .dispPrintString _ => wordOf .dispPrintString 0 0 0
  | .dispPrintStringTo row col _ => wordOf .dispPrintStringTo row col 0
  | .dispMoveCursor row col => wordOf .dispMoveCursor row col 0
  | .dispClear => wordOf .dispClear 0 0 0
  | .dispReturnHome => wordOf .dispReturnHome 0 0 0
  | .dispPrintNumber _ => wordOf .dispPrintNumber 0 0 0
  | .dispPrintNumberTo row col _ => wordOf .dispPrintNumberTo row col 0

/-- The payload handed over with a command's word (R60). -/
def payloadOf : Instr → Payload
  | .kpInit cfg => .kpcfg cfg
  | .kpRead => .none
  | .kpDetect _ => .none
  | .dispInit cfg => .dispcfg cfg
  | .dispSendCommand _ => .none
  | .dispPrintChar _ => .none
  | .dispPrintCharTo _ _ _ => .none
  | .dispPrintString t => .text t
  | .dispPrintStringTo _ _ t => .text t
  | .dispMoveCursor _ _ => .none
  | .dispClear => .none
  | .dispReturnHome => .none
  | .dispPrintNumber v => .value v
  | .dispPrintNumberTo _ _ v => .value v

/-- The payload of a kind with nothing but zeros in it: the payload the opcode table's words are given when
the host asks about a word alone (log 16). -/
def zeroPayload : PayloadKind → Payload
  | .none => .none
  | .kpcfg => .kpcfg { rowPins := #v[0, 0, 0, 0], colPins := #v[0, 0, 0, 0, 0, 0], keyMap := List.replicate 24 0 }
  | .dispcfg => .dispcfg { dataPins := #v[0, 0, 0, 0], ctrlPins := #v[0, 0, 0] }
  | .text => .text []
  | .value => .value 0

/-- The bits `nbits-1..0` of `w` as a command word, every bit above them 0. -/
def tableWord (nbits w : Nat) : Word := BitVec.ofNat 32 (w % 2 ^ nbits)

/-- The zero payload of the kind the word's UNIT and OP ask for, none for a reserved one. -/
def tablePayload (w : Word) : Payload :=
  match opcodeAt (fieldUnit w) (fieldOp w) with
  | .ok op => zeroPayload (opcodeKind op)
  | .error _ => .none

/-- What the decoder reads from a word numbered as spec/opcode_table.json numbers it, with a payload of zeros. -/
def decodeTableWord (nbits w : Nat) : Option Instr :=
  match decode (tableWord nbits w) (tablePayload (tableWord nbits w)) with
  | .ok i => some i
  | .error _ => none

end Sys2Proof
end

