-- ==== Sys2Proof/Machine/State.lean ====
section
/-! DEFINITION. The state of KDB (10_state.md), of its host and of its environment, as plain data, and the
state right after reset (R36). -/

namespace Sys2Proof.Machine

/-- The four logical ports (R12, R15). -/
inductive Port where
  | kr | kc | dd | dc
  deriving DecidableEq, Repr

/-- The writable registers of a port (R15); IN is not state (R19). -/
inductive Reg where
  | dir | out | pull
  deriving DecidableEq, Repr

/-- The four kinds of delay (R11, R169). -/
inductive DelayKind where
  | power | edge | cmd | long
  deriving DecidableEq, Repr

/-- An event of the trace (R34): a pin write, a pin sample, a delay, a write of KEYOUT by KDB. -/
inductive Event where
  | w (p : Port) (reg : Reg) (i : Pin) (v : Level)
  | s (p : Port) (i : Pin) (v : Level)
  | d (kind : DelayKind)
  | k (v : Byte)
  deriving DecidableEq, Repr

/-- `KP_STATE` and `DISP_STATE` (R25, R26). -/
inductive UnitState where
  | uninit | ready
  deriving DecidableEq, Repr

/-- The fault codes (R157); `faultNumber` gives their numbers. -/
inductive FaultCode where
  | kpNotInit | kpDoubleInit | kpConfigInvalid | kpArgRange
  | dispNotInit | dispDoubleInit | dispConfigInvalid
  | keyoutUnwritten | pressedUnwritten
  deriving DecidableEq, Repr

/-- The fault record (R32, R157): a fault of a host read records no command word. -/
structure FaultRecord where
  code : FaultCode
  cmdword : Option Word
  deriving DecidableEq, Repr

/-- The keypad configuration tables (R21); `keyMap` is row-major, entry `6 r + c`. -/
structure KpConfig where
  rowPins : Vector Pin 4
  colPins : Vector Pin 6
  keyMap : Vector Byte 24
  deriving DecidableEq, Repr

/-- The display configuration tables (R23); `ctrlPins` is ordered RS, RW, EN (R12). -/
structure DispConfig where
  dataPins : Vector Pin 4
  ctrlPins : Vector Pin 3
  deriving DecidableEq, Repr

/-- A configured pin, named as the pseudocode names it: `KP_ROW_PINS[k]`, `KP_ROW_PINS[r]`, `KP_COL_PINS[c]`
with the loop register of that name, `DISP_DATA_PINS[j]`, `DISP_CTRL_PINS[j]`. -/
inductive PinLoc where
  | rowK
  | rowR
  | colC
  | data (j : Fin 4)
  | ctrl (j : Fin 3)
  deriving DecidableEq, Repr

/-- One micro-step of a command's pseudocode (R7, R11). -/
inductive MicroOp where
  /-- a pin write of a constant level -/
  | pinWrite (loc : PinLoc) (reg : Reg) (v : Level)
  /-- `PinWrite(DC, OUT, RS, RSL)` (R103) -/
  | pinWriteRsl
  /-- `PinWrite(DD, OUT, DISP_DATA_PINS[j], DL[bit])` (R103) -/
  | pinWriteDl (j : Fin 4) (bit : Fin 8)
  /-- a delay (R11) -/
  | delay (kind : DelayKind)
  /-- `DL <- b; RSL <- rs` (R103) -/
  | latch (rs : Level) (b : Byte)
  /-- `DL <- TEXT[i]; RSL <- 1` (R129) -/
  | latchText
  /-- `DL <- Dec(v)[i]; RSL <- 1` (R135) -/
  | latchDigit
  /-- the loop registers (R30) -/
  | setR (n : Fin 4)
  | setK (n : Fin 4)
  | setC (n : Fin 6)
  | setI (n : Nat)
  /-- the configuration tables take the payload's values (R82, R114) -/
  | storeKpConfig
  | storeDispConfig
  /-- the first sample of `Detect(c)` (R88, R89) -/
  | detect (c : Fin 6)
  /-- one iteration of the wait loop of R88 -/
  | waitRelease (c : Fin 6)
  /-- `if PRESSED == 1: KEYOUT <- KP_MAP[r][c]; return` (R91) -/
  | reportKey
  /-- `KP_STATE <- READY` (R82), `DISP_STATE <- READY` (R114) -/
  | kpReady
  | dispReady
  deriving DecidableEq, Repr

/-- The position in a command (R30): before its checks, or with these micro-steps still to do. -/
inductive Pos where
  | entry
  | at (rest : List MicroOp)
  deriving DecidableEq, Repr

/-- `SEQ` (R30). -/
inductive Seq where
  | idle
  | run (cmd : Word) (pos : Pos)
  deriving DecidableEq, Repr

/-- A key of the matrix (R75). -/
structure Key where
  r : Fin 4
  c : Fin 6
  deriving DecidableEq, Repr

/-- The environment (R35, R84). `draws vs`: the coming samples return `vs` in order, and every later one is
an unconstrained draw. `ideal upcoming closed`: ENV_IDEAL, where `closed` is CLOSED and each coming sample
first takes the next set of `upcoming` as CLOSED. -/
inductive Env where
  | draws (vs : List Level)
  | ideal (upcoming : List (List Key)) (closed : List Key)
  deriving DecidableEq, Repr

/-- What the host and the platform do to KDB (R175, R178). -/
inductive HostAction where
  /-- issue a command word with its payload -/
  | issue (cmd : Word) (payload : Payload)
  /-- issue a command; the platform resets KDB after `n` of its micro-steps (R178), with this launch value -/
  | issueThenReset (cmd : Word) (payload : Payload) (n : Nat) (launch : Option Byte)
  | readKeyout
  | writeKeyout (v : Byte)
  | readPressed
  /-- platform reset, with the launch value of KEYOUT if the host supplies one (R36, R180) -/
  | reset (launch : Option Byte)
  /-- a request KDB need not serve: reading the display (R175) -/
  | readDisplay
  deriving DecidableEq, Repr

/-- What a host read gave back (R175). -/
inductive HostRead where
  | keyout (v : Byte)
  | pressed (v : Level)
  deriving DecidableEq, Repr

/-- The whole machine. The first fields are KDB's own state (10_state.md); `params` are the parameters of
R5; `host`, `hostLog`, `env` and `drawCount` belong to the host and the environment. -/
structure State where
  /-- ports KR and KC (R15) -/
  kr : PortRegs
  kc : PortRegs
  /-- ports DD and DC (R15); where they are one port, `dd` is its home -/
  dd : PortRegs
  dc : PortRegs
  /-- `KP_ROW_PINS`, `KP_COL_PINS`, `KP_MAP` (R21), none while unwritten -/
  kpCfg : Option KpConfig
  /-- `DISP_DATA_PINS`, `DISP_CTRL_PINS` (R23), none while unwritten -/
  dispCfg : Option DispConfig
  kpState : UnitState
  dispState : UnitState
  /-- `KEYOUT` (R27) and `PRESSED` (R28), none while unwritten -/
  keyout : Option Byte
  pressed : Option Level
  /-- the command/data latch (R29) -/
  dl : Byte
  rsl : Level
  /-- the sequencer and its loop registers (R30) -/
  seq : Seq
  r : Fin 4
  k : Fin 4
  c : Fin 6
  i : Nat
  /-- the payload of the command in progress (R38, R42) -/
  payload : Payload
  /-- `FAULT` (R32), `REFUSED` with its reason (R33, R162), `TRACE` (R34) -/
  fault : Option FaultRecord
  refused : Option Illegal
  trace : List Event
  /-- the parameters of R5; no step writes them -/
  params : Params
  /-- what the host does next, in order, and what its reads gave back -/
  host : List HostAction
  hostLog : List HostRead
  /-- the environment, and how many unconstrained draws it has made -/
  env : Env
  drawCount : Nat
  deriving DecidableEq, Repr

/-- Why a step stops with a fault. -/
inductive Fault where
  /-- Raised by `step` alone, when `FAULT` is set: KDB takes no further step until reset (R32, R160). Safe:
  the spec itself says that no step follows. -/
  | stopped (record : FaultRecord)
  deriving DecidableEq, Repr

/-- Why a step is refused. -/
inductive Refusal where
  /-- Raised by an arm of `exec` for an instruction without a meaning; no arm raises it. Safe. -/
  | notModelled (mnemonic : String)
  /-- Raised by `step` alone, when `REFUSED` is set: the command had no meaning (R162). Safe: the spec gives
  no step after it. -/
  | commandRefused (reason : Illegal)
  /-- Raised by `step` when the host asks for what KDB need not serve, such as reading the display (R175).
  Safe: the spec refuses it. -/
  | hostRequestNotServed
  deriving DecidableEq, Repr

/-- The state right after reset (R36, R180) for a machine with these parameters. The values of `dl`, `rsl`,
`r`, `k`, `c` and `i` are a DESIGN CHOICE: R36 calls them unspecified; log 4. -/
def State.powerOn (p : Params) (launch : Option Byte) : State where
  kr := p.gpioKR
  kc := p.gpioKC
  dd := p.gpioDD
  dc := p.gpioDC
  kpCfg := none
  dispCfg := none
  kpState := .uninit
  dispState := .uninit
  keyout := launch
  pressed := none
  dl := 0
  rsl := false
  seq := .idle
  r := 0
  k := 0
  c := 0
  i := 0
  payload := .none
  fault := none
  refused := none
  trace := []
  params := p
  host := []
  hostLog := []
  env := .draws []
  drawCount := 0

/-- Reset with the default parameters of R5, no launch value, a host that does nothing and an environment
with no law. -/
def State.reset : State := State.powerOn Params.default none

end Sys2Proof.Machine
end

