-- ==== Sys2Proof/Machine/Ops.lean ====
section
/-! DEFINITION. The named operations over ports, stores, trace and environment, raising a fault, refusing a
command, completing one, and reset. -/

namespace Sys2Proof.Machine

/-- Bit `i` of `x` becomes `v`; no other bit changes (R44). -/
def setBit (x : PortReg) (i : Pin) (v : Level) : PortReg :=
  if v then x ||| 2 ^ i else x ^^^ (x &&& 2 ^ i)

/-- Write of one bit of one register of a port (R44). -/
def writePortBit (p : PortRegs) (reg : Reg) (i : Pin) (v : Level) : PortRegs :=
  match reg with
  | .dir => { p with dir := setBit p.dir i v }
  | .out => { p with out := setBit p.out i v }
  | .pull => { p with pull := setBit p.pull i v }

/-- The port instance a logical port names: DC names DD's where PORT_BINDING makes them one (R15). -/
def portHome (shared : Bool) : Port → Port
  | .kr => .kr
  | .kc => .kc
  | .dd => .dd
  | .dc => if shared then .dd else .dc

/-- The registers of a logical port. -/
def getPort (s : State) (p : Port) : PortRegs :=
  match portHome s.params.sharedDisp p with
  | .kr => s.kr
  | .kc => s.kc
  | .dd => s.dd
  | .dc => s.dc

/-- The state with the registers of a logical port replaced. -/
def putPort (s : State) (p : Port) (x : PortRegs) : State :=
  match portHome s.params.sharedDisp p with
  | .kr => { s with kr := x }
  | .kc => { s with kc := x }
  | .dd => { s with dd := x }
  | .dc => { s with dc := x }

/-- Bit `i` of a register of a logical port. -/
def portBit (s : State) (p : Port) (reg : Reg) (i : Pin) : Level :=
  match reg with
  | .dir => (getPort s p).dir.testBit i
  | .out => (getPort s p).out.testBit i
  | .pull => (getPort s p).pull.testBit i

/-- Appends an event to the trace (R34). -/
def emit (s : State) (e : Event) : State := { s with trace := s.trace ++ [e] }

/-- `PinWrite(p, REG, i, v)` (R11, R44). -/
def pinWrite (s : State) (p : Port) (reg : Reg) (i : Pin) (v : Level) : State :=
  emit (putPort s p (writePortBit (getPort s p) reg i v)) (.w p reg i v)

/-- `Delay(k)` (R11): an event and nothing else. -/
def delay (s : State) (kind : DelayKind) : State := emit s (.d kind)

/-- The length of a delay (R169): `T_CMD` is one delay unit and `T_LONG` two. The model counts no time: nothing in
a step reads it. DESIGN CHOICE: all lengths are whole numbers of one unnamed tick, so that `T_EDGE` and `T_POWER`
stand in no relation to the delay unit (R196); log 19. -/
def delayTicks : DelayKind → Nat
  | .power => Config.tPower
  | .edge => Config.tEdge
  | .cmd => Config.tUnit
  | .long => 2 * Config.tUnit

/-- The keypad tables; while unwritten (a state no command reads them in) all zeros. DESIGN CHOICE: log 11. -/
def kpTables (s : State) : KpConfig :=
  s.kpCfg.getD { rowPins := Vector.replicate 4 0, colPins := Vector.replicate 6 0, keyMap := Vector.replicate 24 0 }

/-- The display tables; while unwritten (a state no command reads them in) all zeros. DESIGN CHOICE: log 11. -/
def dispTables (s : State) : DispConfig :=
  s.dispCfg.getD { dataPins := Vector.replicate 4 0, ctrlPins := Vector.replicate 3 0 }

/-- `KP_ROW_PINS[k]` (R40). -/
def rowPin (s : State) (k : Fin 4) : Pin := (kpTables s).rowPins[k]

/-- `KP_COL_PINS[c]` (R40). -/
def colPin (s : State) (c : Fin 6) : Pin := (kpTables s).colPins[c]

/-- `KP_MAP[r][c]` (R40). -/
def keySymbol (s : State) (r : Fin 4) (c : Fin 6) : Byte := (kpTables s).keyMap[6 * r.val + c.val]'(by omega)

/-- `DISP_DATA_PINS[j]` (R40). -/
def dataPin (s : State) (j : Fin 4) : Pin := (dispTables s).dataPins[j]

/-- `DISP_CTRL_PINS[j]` (R40): RS, RW, EN (R12). -/
def ctrlPin (s : State) (j : Fin 3) : Pin := (dispTables s).ctrlPins[j]

/-- The port and pin index of a configured pin (R12, R21, R23). -/
def pinAt (s : State) : PinLoc → Port × Pin
  | .rowK => (.kr, rowPin s s.k)
  | .rowR => (.kr, rowPin s s.r)
  | .colC => (.kc, colPin s s.c)
  | .data j => (.dd, dataPin s j)
  | .ctrl j => (.dc, ctrlPin s j)

/-- Row `r` is active (R76): an output driven low. -/
def rowActive (s : State) (r : Fin 4) : Bool :=
  portBit s .kr .dir (rowPin s r) && !portBit s .kr .out (rowPin s r)

/-- What ENV_IDEAL returns for column `c` while CLOSED is `closed` (R84); none where it says any value: the
column is no pulled-up input. -/
def idealLevel (s : State) (closed : List Key) (c : Fin 6) : Option Level :=
  if portBit s .kc .dir (colPin s c) || !portBit s .kc .pull (colPin s c) then none
  else some (!closed.any fun key => key.c == c && rowActive s key.r)

/-- The value the environment draws for column `c` (R84), and the environment after it. -/
def drawSample (s : State) (c : Fin 6) : Level × Env × Nat :=
  match s.env with
  | .draws (v :: vs) => (v, .draws vs, s.drawCount)
  | .draws [] => (Config.envDraw s.drawCount, .draws [], s.drawCount + 1)
  | .ideal upcoming closed =>
    match idealLevel s (upcoming.headD closed) c with
    | some v => (v, .ideal upcoming.tail (upcoming.headD closed), s.drawCount)
    | none => (Config.envDraw s.drawCount, .ideal upcoming.tail (upcoming.headD closed), s.drawCount + 1)

/-- The value `PinRead(KC, KP_COL_PINS[c])` returns in this state. -/
def sampleValue (s : State) (c : Fin 6) : Level := (drawSample s c).1

/-- The state after `PinRead(KC, KP_COL_PINS[c])`: no KDB state but TRACE changes (R45). -/
def afterSample (s : State) (c : Fin 6) : State :=
  emit { s with env := (drawSample s c).2.1, drawCount := (drawSample s c).2.2 } (.s .kc (colPin s c) (sampleValue s c))

/-- `MemWrite(KEYOUT, 1, v)` by KDB (R41). -/
def writeKeyout (s : State) (v : Byte) : State := emit { s with keyout := some v } (.k v)

/-- The number of a fault code (R157). -/
def faultNumber : FaultCode → Byte
  | .kpNotInit => 0x01
  | .kpDoubleInit => 0x02
  | .kpConfigInvalid => 0x03
  | .kpArgRange => 0x04
  | .dispNotInit => 0x11
  | .dispDoubleInit => 0x12
  | .dispConfigInvalid => 0x13
  | .keyoutUnwritten => 0x21
  | .pressedUnwritten => 0x22

/-- Raising a fault (R160): FAULT is recorded and nothing else changes (R161); SEQ does not return to IDLE. -/
def raiseFault (s : State) (code : FaultCode) (cmdword : Option Word) : State :=
  { s with fault := some { code := code, cmdword := cmdword } }

/-- Refusing a command word (R162). -/
def refuse (s : State) (reason : Illegal) : State := { s with refused := some reason }

/-- A completed command (R30): SEQ returns to IDLE, and no payload is in progress. -/
def complete (s : State) : State := { s with seq := .idle, payload := .none }

/-- Reset (R180, R36): every item of KDB state at its reset value, a new TRACE. Parameters, host and
environment keep theirs (R181). -/
def platformReset (s : State) (launch : Option Byte) : State :=
  { State.powerOn s.params launch with host := s.host, hostLog := s.hostLog, env := s.env, drawCount := s.drawCount }

end Sys2Proof.Machine
end

