-- ==== Sys2Proof/Machine/Operands.lean ====
section
/-! DEFINITION. What commands compute from their operands and payloads: configuration validity, the address
formatter, string length, decimal rendering. -/

namespace Sys2Proof.Machine

/-- Pairwise distinct (R22, R24). -/
def allDistinct : List Nat → Bool
  | [] => true
  | x :: xs => !xs.contains x && allDistinct xs

/-- Every pin index is less than `PORT_WIDTH`, here `width` (R22, R24). -/
def pinsInRange (width : Nat) (ps : List Nat) : Bool := ps.all fun p => decide (p < width)

/-- `KpValid(cfg)` (R80, R22) on ports of `width` pins. -/
def kpValid (width : Nat) (cfg : KpCfg) : Bool :=
  pinsInRange width cfg.rowPins.toList && allDistinct cfg.rowPins.toList &&
  (pinsInRange width cfg.colPins.toList && allDistinct cfg.colPins.toList) &&
  (cfg.keyMap.length == 24 && cfg.keyMap.all fun x => decide (x < 2 ^ Config.symbolWidth))

/-- `DispValid(cfg)` (R113, R24) on ports of `width` pins; `shared` when DD and DC are one port. -/
def dispValid (width : Nat) (shared : Bool) (cfg : DispCfg) : Bool :=
  pinsInRange width cfg.dataPins.toList && pinsInRange width cfg.ctrlPins.toList &&
  (allDistinct cfg.dataPins.toList && allDistinct cfg.ctrlPins.toList) &&
  (!shared || allDistinct (cfg.dataPins.toList ++ cfg.ctrlPins.toList))

/-- The keypad tables of a KPCFG payload (R82); a valid payload loses nothing. -/
def kpConfigOf (cfg : KpCfg) : KpConfig where
  rowPins := cfg.rowPins
  colPins := cfg.colPins
  keyMap := Vector.ofFn fun n => BitVec.ofNat 8 (cfg.keyMap.getD n.val 0)

/-- The display tables of a DISPCFG payload (R114); a valid payload loses nothing. -/
def dispConfigOf (cfg : DispCfg) : DispConfig where
  dataPins := cfg.dataPins
  ctrlPins := cfg.ctrlPins

/-- `row = zext(ROW)`, `col = zext(COL)` (R58). -/
def zext (field : Byte) : Nat := field.toNat

/-- A position DISP accepts (R120): row in 0..3 and column below `DISP_COLS`. -/
def positionInRange (p : Params) (row col : Nat) : Bool :=
  decide (row < Config.dispRows) && decide (col < p.dispCols)

/-- The address formatter (R71, R120): `ROW_BASE[row] | col`. DESIGN CHOICE for a column of 256 or more, which only a
`DISP_COLS` above 256 lets a PRINT_STRING reach and for which R71 states no result: a free value; log 33. -/
def addressByte (p : Params) (row : Fin 4) (col : Nat) : Byte :=
  if col < 256 then p.rowBase[row] ||| BitVec.ofNat 8 col else Config.wideAddress p.rowBase[row] col

/-- `TextLen(text)` (R130): the index of the first 0x00, or the length. -/
def textLen : List Byte → Nat
  | [] => 0
  | b :: bs => if b = 0 then 0 else textLen bs + 1

/-- The character code of a decimal digit (R72). -/
def digitCode (d : Nat) : Byte := 0x30 + BitVec.ofNat 8 d

/-- The decimal digits of `n`, most significant first, before `acc`; `fuel` bounds their number. -/
def decDigits : Nat → Nat → List Byte → List Byte
  | 0, _, acc => acc
  | fuel + 1, n, acc =>
    if n / 10 = 0 then digitCode (n % 10) :: acc else decDigits fuel (n / 10) (digitCode (n % 10) :: acc)

/-- The decimal representation of a natural number (R136): a number has at most one decimal digit for each
binary one. -/
def decNat (n : Nat) : List Byte := decDigits (Nat.log2 n + 1) n []

/-- `Dec(v)` (R136): the magnitude in unbounded integers, with '-' before a negative one. -/
def dec (v : Int) : List Byte := if v < 0 then 0x2D :: decNat v.natAbs else decNat v.natAbs

/-- `TEXT[i]` of the payload in progress (R42); 0 where there is none, which no command reads. DESIGN CHOICE:
log 21. -/
def textByte (p : Payload) (i : Nat) : Byte :=
  match p with
  | .text t => t.getD i 0
  | .none | .kpcfg _ | .dispcfg _ | .value _ | .foreign _ _ => 0

/-- `Dec(v)[i]` of the payload in progress (R135); 0 where there is none, which no command reads. DESIGN
CHOICE: log 21. -/
def digitByte (p : Payload) (i : Nat) : Byte :=
  match p with
  | .value v => (dec v).getD i 0
  | .none | .kpcfg _ | .dispcfg _ | .text _ | .foreign _ _ => 0

end Sys2Proof.Machine
end

