-- ==== Sys2Proof/Machine/Flags.lean ====
section
/-! DEFINITION. KDB has no arithmetic condition flags (R31). Its one flag is PRESSED (R28), which the
detection routine alone writes. -/

namespace Sys2Proof.Machine

/-- `PRESSED <- v` (R28). -/
def setPressed (s : State) (v : Level) : State := { s with pressed := some v }

/-- A sample value that reads closed (R87). -/
def readsClosed (v : Level) : Bool := !v

/-- PRESSED holds 1 (R91). -/
def isPressed (s : State) : Bool := s.pressed == some true

end Sys2Proof.Machine
end

