-- ==== Sys2Proof/Machine/Micro.lean ====
section
/-! DEFINITION. The micro-steps (R7, R11), the routines the commands share as lists of micro-steps, and how
the sequencer runs them (R30). -/

namespace Sys2Proof.Machine

/-- What one micro-step does: go on to the next one, stay in the wait loop at `op`, or return from the command. -/
inductive MicroResult where
  | advance (s : State)
  | spin (s : State) (op : MicroOp)
  | finish (s : State)
  deriving DecidableEq, Repr

/-- The first sample of `Detect(c)`. SINGLE_SAMPLE: PRESSED is 1 when it reads closed (R89).
BLOCKING_RELEASE: open reports not pressed, closed enters the wait loop (R88). DESIGN CHOICE: the write of PRESSED is
part of the sample's micro-step, where R7 could make it one of its own; log 25. -/
def detectFirst (s : State) (c : Fin 6) : MicroResult :=
  match s.params.detectMode with
  | .singleSample => .advance (setPressed (afterSample s c) (readsClosed (sampleValue s c)))
  | .blockingRelease =>
    if readsClosed (sampleValue s c) then .spin (afterSample s c) (.waitRelease c)
    else .advance (setPressed (afterSample s c) false)

/-- One iteration of the wait loop (R88): a sample that reads open reports pressed, a closed one loops. DESIGN CHOICE:
the write of PRESSED is part of the sample's micro-step; log 25. -/
def detectAgain (s : State) (c : Fin 6) : MicroResult :=
  if readsClosed (sampleValue s c) then .spin (afterSample s c) (.waitRelease c)
  else .advance (setPressed (afterSample s c) true)

/-- The configuration store takes the KPCFG payload (R82); no other payload reaches it. -/
def storeKp (s : State) : State :=
  match s.payload with
  | .kpcfg cfg => { s with kpCfg := some (kpConfigOf cfg) }
  | .none | .dispcfg _ | .text _ | .value _ | .foreign _ _ => s

/-- The configuration store takes the DISPCFG payload (R114); no other payload reaches it. -/
def storeDisp (s : State) : State :=
  match s.payload with
  | .dispcfg cfg => { s with dispCfg := some (dispConfigOf cfg) }
  | .none | .kpcfg _ | .text _ | .value _ | .foreign _ _ => s

/-- `DL <- b; RSL <- rs` (R29, R103). -/
def setLatch (s : State) (rs : Level) (b : Byte) : State := { s with dl := b, rsl := rs }

/-- One micro-step (R11). DESIGN CHOICE: which internal register updates (R7) are micro-steps of their own, which go
together in one, and which are part of another micro-step; log 25. -/
def microOp (op : MicroOp) (s : State) : MicroResult :=
  match op with
  | .pinWrite loc reg v => .advance (pinWrite s (pinAt s loc).1 reg (pinAt s loc).2 v)
  | .pinWriteRsl => .advance (pinWrite s .dc .out (ctrlPin s 0) s.rsl)
  | .pinWriteDl j bit => .advance (pinWrite s .dd .out (dataPin s j) (s.dl.getLsbD bit.val))
  | .delay kind => .advance (delay s kind)
  | .latch rs b => .advance (setLatch s rs b)
  | .latchText => .advance (setLatch s true (textByte s.payload s.i))
  | .latchDigit => .advance (setLatch s true (digitByte s.payload s.i))
  | .setR n => .advance { s with r := n }
  | .setK n => .advance { s with k := n }
  | .setC n => .advance { s with c := n }
  | .setI n => .advance { s with i := n }
  | .storeKpConfig => .advance (storeKp s)
  | .storeDispConfig => .advance (storeDisp s)
  | .detect c => detectFirst s c
  | .waitRelease c => detectAgain s c
  | .reportKey => if isPressed s then .finish (writeKeyout s (keySymbol s s.r s.c)) else .advance s
  | .kpReady => .advance { s with kpState := .ready }
  | .dispReady => .advance { s with dispState := .ready }

/-- Runs the micro-steps `ops` of the command `w` in program order (R50), until the command completes or a
sample of the wait loop reads closed; there SEQ holds the position (R30, R163). -/
def runOps (w : Word) : List MicroOp → State → State
  | [], s => complete s
  | op :: rest, s =>
    match microOp op s with
    | .advance t => runOps w rest t
    | .spin t op' => { t with seq := .run w (.at (op' :: rest)) }
    | .finish t => complete t

/-- `SelectRow(r)` (R77): every row line high in index order, then row `r` low. -/
def selectRowOps : List MicroOp :=
  [.setK 0, .pinWrite .rowK .out true, .setK 1, .pinWrite .rowK .out true,
   .setK 2, .pinWrite .rowK .out true, .setK 3, .pinWrite .rowK .out true, .pinWrite .rowR .out false]

/-- `Pulse()` (R102); EN is control pin 2 (R12). -/
def pulseOps : List MicroOp :=
  [.pinWrite (.ctrl 2) .out true, .delay .edge, .pinWrite (.ctrl 2) .out false, .delay .edge]

/-- The upper nibble, bit 4 first (R103, R104). -/
def upperNibbleOps : List MicroOp := [.pinWriteDl 0 4, .pinWriteDl 1 5, .pinWriteDl 2 6, .pinWriteDl 3 7]

/-- The lower nibble, bit 0 first (R103, R104). -/
def lowerNibbleOps : List MicroOp := [.pinWriteDl 0 0, .pinWriteDl 1 1, .pinWriteDl 2 2, .pinWriteDl 3 3]

/-- `XFER` after its latch write (R103): RS, RW low, upper nibble, pulse, lower nibble, pulse. -/
def transferOps : List MicroOp :=
  [.pinWriteRsl, .pinWrite (.ctrl 1) .out false] ++ upperNibbleOps ++ pulseOps ++ lowerNibbleOps ++ pulseOps

/-- `XFER(rs, b)` (R103). -/
def xferOps (rs : Level) (b : Byte) : List MicroOp := .latch rs b :: transferOps

/-- `Position(row, col)` (R120): nothing when out of range (R121). -/
def positionOps (p : Params) (row col : Nat) : List MicroOp :=
  if h : row < Config.dispRows ∧ col < p.dispCols then xferOps false (addressByte p ⟨row, h.1⟩ col) else []

/-- The body of PrintString's loop for index `n` (R129). -/
def printCharAtOps (p : Params) (n : Nat) : List MicroOp :=
  .setI n :: ((if p.wrapCol ≤ n then positionOps p p.wrapRow (n - p.wrapCol) else []) ++ .latchText :: transferOps)

/-- `PrintString(text)` (R129). -/
def printStringOps (p : Params) (text : List Byte) : List MicroOp :=
  (List.range (textLen text)).flatMap (printCharAtOps p)

/-- `PrintNumber(v)` (R135). -/
def printNumberOps (v : Int) : List MicroOp :=
  (List.range (dec v).length).flatMap fun n => .setI n :: .latchDigit :: transferOps

/-- A command of word `w` that passes its checks (`check = none`) runs its micro-steps with its payload in
progress; one that fails them raises the fault and does nothing else (R14, R160). -/
def runCommand (w : Word) (payload : Payload) (check : Option FaultCode) (ops : List MicroOp) (s : State) :
    Host.Outcome State Fault Refusal :=
  match check with
  | some code => .next (raiseFault s code (some w))
  | none => .next (runOps w ops { s with payload := payload })

end Sys2Proof.Machine
end

