-- ==== Sys2Proof/Machine/DisplayTransfer.lean ====
section
/-! DEFINITION. The commands that are one transfer: DISP_SEND_COMMAND, DISP_PRINT_CHAR (41_display_transfer.md). -/

namespace Sys2Proof.Machine

/-- A DISP command other than DISP_INIT requires READY (R26, R126). -/
def checkDispReady (s : State) : Option FaultCode :=
  if s.dispState ≠ .ready then some .dispNotInit else none

/-- DISP_SEND_COMMAND (R108): any byte, unchanged (R70), no settle delay (R109). -/
def execDispSendCommand (code : Byte) (s : State) : Host.Outcome State Fault Refusal :=
  runCommand (encode (.dispSendCommand code)) .none (checkDispReady s) (xferOps false code) s

/-- DISP_PRINT_CHAR (R110). -/
def execDispPrintChar (code : Byte) (s : State) : Host.Outcome State Fault Refusal :=
  runCommand (encode (.dispPrintChar code)) .none (checkDispReady s) (xferOps true code) s

end Sys2Proof.Machine
end

