-- ==== Sys2Proof/Machine/DisplayControl.lean ====
section
/-! DEFINITION. DISP_INIT, DISP_CLEAR, DISP_RETURN_HOME, DISP_MOVE_CURSOR (42_display_control.md). -/

namespace Sys2Proof.Machine

/-- The checks of DISP_INIT in the order of R114: unit state, then configuration (R165). -/
def checkDispInit (cfg : DispCfg) (s : State) : Option FaultCode :=
  if s.dispState ≠ .uninit then some .dispDoubleInit
  else if !dispValid s.params.portWidth s.params.sharedDisp cfg then some .dispConfigInvalid
  else none

/-- The DIR writes of DISP_INIT (R114): four data pins, then RS, RW, EN. -/
def dispDirOps : List MicroOp :=
  ((List.finRange 4).map fun j => .pinWrite (.data j) .dir true) ++
  ((List.finRange 3).map fun j => .pinWrite (.ctrl j) .dir true)

/-- The bootstrap (R114, R115): each command, then a CMD delay (R116). -/
def bootOps (p : Params) : List MicroOp :=
  (List.finRange 5).flatMap fun m => xferOps false p.bootCmds[m] ++ [.delay .cmd]

/-- The micro-steps of DISP_INIT (R114). -/
def dispInitOps (p : Params) : List MicroOp :=
  .storeDispConfig :: (dispDirOps ++ .delay .power :: (bootOps p ++ [.dispReady]))

/-- The micro-steps of DISP_CLEAR (R117). -/
def dispClearOps (p : Params) : List MicroOp :=
  xferOps false p.cmdClear ++ .delay .long :: (xferOps false p.cmdReturnHome ++ [.delay .long])

/-- DISP_INIT (R114). -/
def execDispInit (cfg : DispCfg) (s : State) : Host.Outcome State Fault Refusal :=
  runCommand (encode (.dispInit cfg)) (.dispcfg cfg) (checkDispInit cfg s) (dispInitOps s.params) s

/-- DISP_CLEAR (R117). -/
def execDispClear (s : State) : Host.Outcome State Fault Refusal :=
  runCommand (encode .dispClear) .none (checkDispReady s) (dispClearOps s.params) s

/-- DISP_RETURN_HOME (R119). -/
def execDispReturnHome (s : State) : Host.Outcome State Fault Refusal :=
  runCommand (encode .dispReturnHome) .none (checkDispReady s) (xferOps false s.params.cmdReturnHome) s

/-- DISP_MOVE_CURSOR (R120). -/
def execDispMoveCursor (row col : Byte) (s : State) : Host.Outcome State Fault Refusal :=
  runCommand (encode (.dispMoveCursor row col)) .none (checkDispReady s)
    (positionOps s.params (zext row) (zext col)) s

end Sys2Proof.Machine
end

