-- ==== Sys2Proof/Machine/DisplayText.lean ====
section
/-! DEFINITION. The text commands (43_display_text.md). -/

namespace Sys2Proof.Machine

/-- DISP_PRINT_CHAR_TO (R127): out of range, the character is still sent (R128). -/
def execDispPrintCharTo (row col code : Byte) (s : State) : Host.Outcome State Fault Refusal :=
  runCommand (encode (.dispPrintCharTo row col code)) .none (checkDispReady s)
    (positionOps s.params (zext row) (zext col) ++ xferOps true code) s

/-- DISP_PRINT_STRING (R129). -/
def execDispPrintString (text : List Byte) (s : State) : Host.Outcome State Fault Refusal :=
  runCommand (encode (.dispPrintString text)) (.text text) (checkDispReady s) (printStringOps s.params text) s

/-- DISP_PRINT_STRING_TO (R133). -/
def execDispPrintStringTo (row col : Byte) (text : List Byte) (s : State) : Host.Outcome State Fault Refusal :=
  runCommand (encode (.dispPrintStringTo row col text)) (.text text) (checkDispReady s)
    (positionOps s.params (zext row) (zext col) ++ printStringOps s.params text) s

/-- DISP_PRINT_NUMBER (R135). -/
def execDispPrintNumber (v : Int) (s : State) : Host.Outcome State Fault Refusal :=
  runCommand (encode (.dispPrintNumber v)) (.value v) (checkDispReady s) (printNumberOps v) s

/-- DISP_PRINT_NUMBER_TO (R138). -/
def execDispPrintNumberTo (row col : Byte) (v : Int) (s : State) : Host.Outcome State Fault Refusal :=
  runCommand (encode (.dispPrintNumberTo row col v)) (.value v) (checkDispReady s)
    (positionOps s.params (zext row) (zext col) ++ printNumberOps v) s

end Sys2Proof.Machine
end

