-- ==== Sys2Proof/Machine/Keypad.lean ====
section
/-! DEFINITION. The keypad commands KP_INIT, KP_READ, KP_DETECT (40_keypad.md). -/

namespace Sys2Proof.Machine

/-- The checks of KP_INIT in the order of R82: unit state, then configuration (R165). -/
def checkKpInit (cfg : KpCfg) (s : State) : Option FaultCode :=
  if s.kpState ≠ .uninit then some .kpDoubleInit
  else if !kpValid s.params.portWidth cfg then some .kpConfigInvalid
  else none

/-- A KP command other than KP_INIT requires READY (R25). -/
def checkKpReady (s : State) : Option FaultCode :=
  if s.kpState ≠ .ready then some .kpNotInit else none

/-- The checks of KP_DETECT (R90): unit state, then the column (R165). -/
def checkKpDetect (col : Byte) (s : State) : Option FaultCode :=
  if s.kpState ≠ .ready then some .kpNotInit
  else if 5 < zext col then some .kpArgRange
  else none

/-- Column `c` of KP_INIT (R82): input, pull-up on. -/
def initColumnOps (c : Fin 6) : List MicroOp :=
  [.setC c, .pinWrite .colC .dir false, .pinWrite .colC .pull true]

/-- Row `k` of KP_INIT (R82): output, high. -/
def initRowOps (k : Fin 4) : List MicroOp :=
  [.setK k, .pinWrite .rowK .dir true, .pinWrite .rowK .out true]

/-- The micro-steps of KP_INIT (R82). -/
def kpInitOps : List MicroOp :=
  .storeKpConfig :: ((List.finRange 6).flatMap initColumnOps ++ (List.finRange 4).flatMap initRowOps ++ [.kpReady])

/-- One column of KP_READ (R91). -/
def readColumnOps (c : Fin 6) : List MicroOp := [.setC c, .detect c, .reportKey]

/-- One row of KP_READ (R91). -/
def readRowOps (r : Fin 4) : List MicroOp :=
  .setR r :: (selectRowOps ++ (List.finRange 6).flatMap readColumnOps)

/-- The micro-steps of KP_READ (R91), rows before columns (R79). -/
def kpReadOps : List MicroOp := (List.finRange 4).flatMap readRowOps

/-- The micro-steps of KP_DETECT (R90); an out-of-range column has none. -/
def kpDetectOps (col : Byte) : List MicroOp :=
  if h : zext col < 6 then [.detect ⟨zext col, h⟩] else []

/-- KP_INIT (R82). -/
def execKpInit (cfg : KpCfg) (s : State) : Host.Outcome State Fault Refusal :=
  runCommand (encode (.kpInit cfg)) (.kpcfg cfg) (checkKpInit cfg s) kpInitOps s

/-- KP_READ (R91). -/
def execKpRead (s : State) : Host.Outcome State Fault Refusal :=
  runCommand (encode .kpRead) .none (checkKpReady s) kpReadOps s

/-- KP_DETECT (R90). -/
def execKpDetect (col : Byte) (s : State) : Host.Outcome State Fault Refusal :=
  runCommand (encode (.kpDetect col)) .none (checkKpDetect col s) (kpDetectOps col) s

end Sys2Proof.Machine
end

