-- ==== Sys2Proof/Machine/Dispatch.lean ====
section
/-! DEFINITION. The meaning of each command, one arm per constructor. -/

namespace Sys2Proof.Machine

def exec (i : Instr) (s : State) : Host.Outcome State Fault Refusal :=
  match i with
  | .kpInit cfg => Sys2Proof.Machine.execKpInit cfg s
  | .kpRead => Sys2Proof.Machine.execKpRead s
  | .kpDetect col => Sys2Proof.Machine.execKpDetect col s
  | .dispInit cfg => Sys2Proof.Machine.execDispInit cfg s
  | .dispSendCommand code => Sys2Proof.Machine.execDispSendCommand code s
  | .dispPrintChar code => Sys2Proof.Machine.execDispPrintChar code s
  | .dispPrintCharTo row col code => Sys2Proof.Machine.execDispPrintCharTo row col code s
  | .dispPrintString text => Sys2Proof.Machine.execDispPrintString text s
  | .dispPrintStringTo row col text => Sys2Proof.Machine.execDispPrintStringTo row col text s
  | .dispMoveCursor row col => Sys2Proof.Machine.execDispMoveCursor row col s
  | .dispClear => Sys2Proof.Machine.execDispClear s
  | .dispReturnHome => Sys2Proof.Machine.execDispReturnHome s
  | .dispPrintNumber v => Sys2Proof.Machine.execDispPrintNumber v s
  | .dispPrintNumberTo row col v => Sys2Proof.Machine.execDispPrintNumberTo row col v s

end Sys2Proof.Machine
end

