-- ==== Sys2Proof/Machine/Sequencer.lean ====
section
/-! DEFINITION. How the host's actions reach KDB (R30, R175), how a command starts and resumes, and the
machine one micro-step at a time (R7). -/

namespace Sys2Proof.Machine

/-- The checks a command makes before its first micro-step (R14). -/
def checkOf (i : Instr) (s : State) : Option FaultCode :=
  match i with
  | .kpInit cfg => checkKpInit cfg s
  | .kpRead => checkKpReady s
  | .kpDetect col => checkKpDetect col s
  | .dispInit cfg => checkDispInit cfg s
  | .dispSendCommand _ => checkDispReady s
  | .dispPrintChar _ => checkDispReady s
  | .dispPrintCharTo _ _ _ => checkDispReady s
  | .dispPrintString _ => checkDispReady s
  | .dispPrintStringTo _ _ _ => checkDispReady s
  | .dispMoveCursor _ _ => checkDispReady s
  | .dispClear => checkDispReady s
  | .dispReturnHome => checkDispReady s
  | .dispPrintNumber _ => checkDispReady s
  | .dispPrintNumberTo _ _ _ => checkDispReady s

/-- The micro-steps of a command, loops unrolled. -/
def programOf (i : Instr) (p : Params) : List MicroOp :=
  match i with
  | .kpInit _ => kpInitOps
  | .kpRead => kpReadOps
  | .kpDetect col => kpDetectOps col
  | .dispInit _ => dispInitOps p
  | .dispSendCommand code => xferOps false code
  | .dispPrintChar code => xferOps true code
  | .dispPrintCharTo row col code => positionOps p (zext row) (zext col) ++ xferOps true code
  | .dispPrintString text => printStringOps p text
  | .dispPrintStringTo row col text => positionOps p (zext row) (zext col) ++ printStringOps p text
  | .dispMoveCursor row col => positionOps p (zext row) (zext col)
  | .dispClear => dispClearOps p
  | .dispReturnHome => xferOps false p.cmdReturnHome
  | .dispPrintNumber v => printNumberOps v
  | .dispPrintNumberTo row col v => positionOps p (zext row) (zext col) ++ printNumberOps v

/-- SEQ at the start of a command the host has issued, its payload in progress (R30, R42). -/
def issue (s : State) (w : Word) (payload : Payload) : State :=
  { s with seq := .run w .entry, payload := payload }

/-- The command the host issues next, on the state `s`: refused when it decodes to ILLEGAL (R162), else run. -/
def startCommand (s : State) (w : Word) (payload : Payload) : Host.Outcome State Fault Refusal :=
  match decode w payload with
  | .error reason => .next (refuse s reason)
  | .ok i => exec i (issue s w payload)

/-- SEQ after a micro-step that leaves `rest` to do: IDLE when nothing is left (R30). -/
def settle (w : Word) (rest : List MicroOp) (s : State) : State :=
  match rest with
  | [] => complete s
  | op :: more => { s with seq := .run w (.at (op :: more)) }

/-- A command loaded into the sequencer before its first micro-step: checks made, nothing else done. -/
def loadCommand (s : State) (w : Word) (payload : Payload) : State :=
  match decode w payload with
  | .error reason => refuse s reason
  | .ok i =>
    match checkOf i s with
    | some code => raiseFault (issue s w payload) code (some w)
    | none => settle w (programOf i s.params) { s with payload := payload }

/-- One micro-step of the command in progress (R7, R30). A stopped or idle KDB makes none. -/
def microStep (s : State) : State :=
  match s.fault, s.refused, s.seq with
  | none, none, .run w (.at (op :: rest)) =>
    match microOp op s with
    | .advance t => settle w rest t
    | .spin t op' => { t with seq := .run w (.at (op' :: rest)) }
    | .finish t => complete t
  | _, _, _ => s

/-- `n` micro-steps. -/
def microSteps : Nat → State → State
  | 0, s => s
  | n + 1, s => microSteps n (microStep s)

/-- A host read of KEYOUT between commands (R175): the value, or fault 0x21 (R157). -/
def hostReadKeyout (s : State) : State :=
  match s.keyout with
  | some v => { s with hostLog := s.hostLog ++ [.keyout v] }
  | none => raiseFault s .keyoutUnwritten none

/-- A host write of KEYOUT between commands (R27, R175); no micro-step of KDB, so no event. -/
def hostWriteKeyout (s : State) (v : Byte) : State := { s with keyout := some v }

/-- A host read of PRESSED between commands (R175): the value, or fault 0x22 (R157). -/
def hostReadPressed (s : State) : State :=
  match s.pressed with
  | some v => { s with hostLog := s.hostLog ++ [.pressed v] }
  | none => raiseFault s .pressedUnwritten none

/-- A command of which the platform lets `n` micro-steps happen before it resets KDB (R178, R180). -/
def issueThenReset (s : State) (w : Word) (payload : Payload) (n : Nat) (launch : Option Byte) : State :=
  platformReset (microSteps n (loadCommand s w payload)) launch

/-- The host's action on an idle KDB (R55, R175); `s` is the state with the action taken off its list. -/
def hostAct (a : HostAction) (s : State) : Host.Outcome State Fault Refusal :=
  match a with
  | .issue w payload => startCommand s w payload
  | .issueThenReset w payload n launch => .next (issueThenReset s w payload n launch)
  | .readKeyout => .next (hostReadKeyout s)
  | .writeKeyout v => .next (hostWriteKeyout s v)
  | .readPressed => .next (hostReadPressed s)
  | .reset launch => .next (platformReset s launch)
  | .readDisplay => .refused .hostRequestNotServed

/-- KDB idle (R179): it takes the host's next action, or waits. -/
def idleStep (s : State) : Host.Outcome State Fault Refusal :=
  match s.host with
  | [] => .next s
  | a :: rest => hostAct a { s with host := rest }

/-- A command in progress goes on from its position (R30). -/
def resume (s : State) (w : Word) (pos : Pos) : Host.Outcome State Fault Refusal :=
  match pos with
  | .entry => startCommand s w s.payload
  | .at ops => .next (runOps w ops s)

/-- A KDB that is neither faulted nor refused: SEQ says what it does. -/
def runStep (s : State) : Host.Outcome State Fault Refusal :=
  match s.seq with
  | .idle => idleStep s
  | .run w pos => resume s w pos

/-- A KDB without a pending platform reset: while FAULT or REFUSED is set it takes no step (R32, R162). DESIGN CHOICE:
it then serves no host access to KEYOUT or PRESSED either, though R55 and R175 ask of one only that SEQ be IDLE; log 31. -/
def healthyStep (s : State) : Host.Outcome State Fault Refusal :=
  match s.fault with
  | some record => .fault (.stopped record)
  | none =>
    match s.refused with
    | some reason => .refused (.commandRefused reason)
    | none => runStep s

/-- One step of the machine. A platform reset comes first, whatever KDB does (R178, R180). -/
def machineStep (s : State) : Host.Outcome State Fault Refusal :=
  match s.host with
  | .reset launch :: rest => .next (platformReset { s with host := rest } launch)
  | _ => healthyStep s

/-- `s` with the command of a table word, and a payload of zeros, next on the host's list and KDB ready to
accept it (log 16). -/
def placeWord (s : State) (nbits w : Nat) : State :=
  { s with
    host := .issue (tableWord nbits w) (tablePayload (tableWord nbits w)) :: s.host
    seq := .idle
    fault := none
    refused := none }

end Sys2Proof.Machine
end

