-- ==== Sys2Proof/Machine/Step.lean ====
section
/-! DEFINITION. One step of the machine, and the placing of a command where step takes its next one. -/

namespace Sys2Proof.Machine

/-- One step: a host action on an idle KDB, with the whole of an issued command up to its completion or to a
closed sample of the wait loop; or the next part of a command in progress (log 1). -/
def step (s : State) : Host.Outcome State Fault Refusal := machineStep s

/-- `s` with a table word placed where `step` takes its next command (log 16). -/
def State.withFetchWord (s : State) (nbits w : Nat) : State := placeWord s nbits w

end Sys2Proof.Machine
end

