-- ==== Sys2Proof/Machine/Assembler.lean ====
section
/-! DEFINITION. The assembler's pseudo-instructions (R74) and the written form of a command (R73). No step
reads this file. -/

namespace Sys2Proof.Machine

/-- The five pseudo-instructions (R74). -/
inductive Pseudo where
  | dispSetDdram (a : Byte)
  | dispFunction4Bit2Line
  | dispDisplayOnCursor
  | dispDisplayOff
  | dispEntryIncrement
  deriving DecidableEq, Repr

/-- The one command a pseudo-instruction stands for (R74); DISP_SET_DDRAM asks for `a < 0x80`. -/
def expandPseudo : Pseudo → Option Instr
  | .dispSetDdram a => if a < 0x80 then some (.dispSendCommand (0x80 ||| a)) else none
  | .dispFunction4Bit2Line => some (.dispSendCommand 0x28)
  | .dispDisplayOnCursor => some (.dispSendCommand 0x0E)
  | .dispDisplayOff => some (.dispSendCommand 0x08)
  | .dispEntryIncrement => some (.dispSendCommand 0x06)

/-- The mnemonic of a command (R61). -/
def mnemonicOf : Opcode → String
  | .kpInit => "KP_INIT"
  | .kpRead => "KP_READ"
  | .kpDetect => "KP_DETECT"
  | .dispInit => "DISP_INIT"
  | .dispSendCommand => "DISP_SEND_COMMAND"
  | .dispPrintChar => "DISP_PRINT_CHAR"
  | .dispPrintCharTo => "DISP_PRINT_CHAR_TO"
  | .dispPrintString => "DISP_PRINT_STRING"
  | .dispPrintStringTo => "DISP_PRINT_STRING_TO"
  | .dispMoveCursor => "DISP_MOVE_CURSOR"
  | .dispClear => "DISP_CLEAR"
  | .dispReturnHome => "DISP_RETURN_HOME"
  | .dispPrintNumber => "DISP_PRINT_NUMBER"
  | .dispPrintNumberTo => "DISP_PRINT_NUMBER_TO"

/-- Decimal numbers separated by commas. -/
def commaList (ns : List Nat) : String := String.intercalate "," (ns.map fun n => toString n)

/-- `rows=(..), cols=(..), map=[..; ..; ..; ..]` of KP_INIT (R73). -/
def kpCfgText (cfg : KpCfg) : String :=
  "rows=(" ++ commaList cfg.rowPins.toList ++ "), cols=(" ++ commaList cfg.colPins.toList ++ "), map=[" ++
  String.intercalate "; " ((List.range 4).map fun r => commaList ((cfg.keyMap.drop (6 * r)).take 6)) ++ "]"

/-- A TEXT payload between quotes (R73). DESIGN CHOICE: R73 gives a written form to printable ASCII alone and no escape
for a double quote; every byte, an unprintable one and 0x22 too, is written as the character of that code; log 32. -/
def quoted (t : List Byte) : String := "\"" ++ String.ofList (t.map fun b => Char.ofNat b.toNat) ++ "\""

/-- The operands of a command in the order of R73. DESIGN CHOICE: of the three forms R73 gives a byte, the decimal one;
log 32. -/
def operandTexts : Instr → List String
  | .kpInit cfg => [kpCfgText cfg]
  | .kpRead => []
  | .kpDetect col => [toString col.toNat]
  | .dispInit cfg =>
    ["data=(" ++ commaList cfg.dataPins.toList ++ "), ctrl=(" ++ commaList cfg.ctrlPins.toList ++ ")"]
  | .dispSendCommand code => [toString code.toNat]
  | .dispPrintChar code => [toString code.toNat]
  | .dispPrintCharTo row col code => [toString row.toNat, toString col.toNat, toString code.toNat]
  | .dispPrintString t => [quoted t]
  | .dispPrintStringTo row col t => [toString row.toNat, toString col.toNat, quoted t]
  | .dispMoveCursor row col => [toString row.toNat, toString col.toNat]
  | .dispClear => []
  | .dispReturnHome => []
  | .dispPrintNumber v => [toString v]
  | .dispPrintNumberTo row col v => [toString row.toNat, toString col.toNat, toString v]

/-- The written form of a command (R73). -/
def asmText (i : Instr) : String :=
  match operandTexts i with
  | [] => mnemonicOf (opcodeOf i)
  | ops => mnemonicOf (opcodeOf i) ++ " " ++ String.intercalate ", " ops

end Sys2Proof.Machine
end

