-- ==== Sys2Proof/Machine/Display.lean ====
section
/-! DEFINITION. What the display bus carries (R67, R68), what a display receives from a trace (R141 to R144),
and the reference display DEV (R145 to R148). DEV is no agent of the machine (R8, R56): nothing in a step
reads this file (log 17). -/

namespace Sys2Proof.Machine

/-- The class of a byte sent with RS = 0 (R68). -/
inductive BusClass where
  | clearDisplay
  | returnHome
  | entryModeSet (increment shift : Level)
  | displayControl (display cursor blink : Level)
  | cursorShift (shiftDisplay right : Level)
  | functionSet (eightBit twoLine largeFont : Level)
  | setCgramAddr (a : BitVec 6)
  | setDdramAddr (a : BitVec 7)
  | reserved
  deriving DecidableEq, Repr

/-- The class is given by the highest set bit (R68). -/
def busClass (b : Byte) : BusClass :=
  if b.getLsbD 7 then .setDdramAddr (b.extractLsb' 0 7)
  else if b.getLsbD 6 then .setCgramAddr (b.extractLsb' 0 6)
  else if b.getLsbD 5 then .functionSet (b.getLsbD 4) (b.getLsbD 3) (b.getLsbD 2)
  else if b.getLsbD 4 then .cursorShift (b.getLsbD 3) (b.getLsbD 2)
  else if b.getLsbD 3 then .displayControl (b.getLsbD 2) (b.getLsbD 1) (b.getLsbD 0)
  else if b.getLsbD 2 then .entryModeSet (b.getLsbD 1) (b.getLsbD 0)
  else if b.getLsbD 1 then .returnHome
  else if b.getLsbD 0 then .clearDisplay
  else .reserved

/-- What the display latches at a falling edge of EN (R141): RS and the four data levels, data pin 0 first.
A pin that is no output contributes an unknown level (R152). -/
structure Nibble where
  rs : Option Level
  d0 : Option Level
  d1 : Option Level
  d2 : Option Level
  d3 : Option Level
  deriving DecidableEq, Repr

/-- The display port registers as the display sees them while a trace is replayed. -/
structure Bus where
  shared : Bool
  pins : DispConfig
  dd : PortRegs
  dc : PortRegs
  deriving DecidableEq, Repr

/-- The registers of DC on the bus: those of DD where the two are one port (R15). -/
def busCtrl (b : Bus) : PortRegs := if b.shared then b.dd else b.dc

/-- The level of a pin (R37): its OUT bit while it is an output, else not determined by KDB. -/
def pinLevel (p : PortRegs) (i : Pin) : Option Level :=
  if p.dir.testBit i then some (p.out.testBit i) else none

/-- What the display would latch now (R141). -/
def busNibble (b : Bus) : Nibble where
  rs := pinLevel (busCtrl b) b.pins.ctrlPins[0]
  d0 := pinLevel b.dd b.pins.dataPins[0]
  d1 := pinLevel b.dd b.pins.dataPins[1]
  d2 := pinLevel b.dd b.pins.dataPins[2]
  d3 := pinLevel b.dd b.pins.dataPins[3]

/-- `W(DC, OUT, EN, 0)` while EN is an output at level 1: a falling edge (R141). -/
def isFallingEdge (b : Bus) (e : Event) : Bool :=
  e == .w .dc .out b.pins.ctrlPins[2] false && pinLevel (busCtrl b) b.pins.ctrlPins[2] == some true

/-- The bus after an event. -/
def busAfter (b : Bus) (e : Event) : Bus :=
  match e with
  | .w .dd reg i v => { b with dd := writePortBit b.dd reg i v }
  | .w .dc reg i v =>
    if b.shared then { b with dd := writePortBit b.dd reg i v } else { b with dc := writePortBit b.dc reg i v }
  | .w .kr _ _ _ | .w .kc _ _ _ | .s _ _ _ | .d _ | .k _ => b

/-- The nibbles latched along a trace, in order (R141). -/
def latchedNibbles (b : Bus) : List Event → List Nibble
  | [] => []
  | e :: rest =>
    if isFallingEdge b e then busNibble b :: latchedNibbles (busAfter b e) rest else latchedNibbles (busAfter b e) rest

/-- The two nibbles a transfer `(rs, b)` puts on the bus, upper first (R103, R104). -/
def sentNibbles (x : Level × Byte) : List Nibble :=
  [⟨some x.1, some (x.2.getLsbD 4), some (x.2.getLsbD 5), some (x.2.getLsbD 6), some (x.2.getLsbD 7)⟩,
   ⟨some x.1, some (x.2.getLsbD 0), some (x.2.getLsbD 1), some (x.2.getLsbD 2), some (x.2.getLsbD 3)⟩]

/-- The byte of an upper and a lower nibble, with the RS of the lower (R142); none if a level is unknown. -/
def pairByte (hi lo : Nibble) : Option (Level × Byte) :=
  match lo.rs, hi.d3, hi.d2, hi.d1, hi.d0, lo.d3, lo.d2, lo.d1, lo.d0 with
  | some rs, some b7, some b6, some b5, some b4, some b3, some b2, some b1, some b0 =>
    some (rs, BitVec.ofBoolListLE [b0, b1, b2, b3, b4, b5, b6, b7])
  | _, _, _, _, _, _, _, _, _ => none

/-- The display pairs nibbles in order (R142), from a pairing phase: `none` is aligned, `some n` shifted by one
nibble, with the upper nibble `n` left unpaired from before. -/
def pairNibbles : Option Nibble → List Nibble → List (Option (Level × Byte))
  | _, [] => []
  | none, n :: rest => pairNibbles (some n) rest
  | some hi, lo :: rest => pairByte hi lo :: pairNibbles none rest

/-- The pairing phase after these nibbles: the upper nibble they leave unpaired, if any. A display powered
separately keeps it across a KDB reset (R181). -/
def phaseAfter : Option Nibble → List Nibble → Option Nibble
  | phase, [] => phase
  | none, n :: rest => phaseAfter (some n) rest
  | some _, _ :: rest => phaseAfter none rest

/-- The pairing phases a display found at phase `left` by a reset may be in after it. Between transfers the display
keeps its phase (R181). In mid-transfer (`mid`, see `inMidTransfer`) the phase is a draw, aligned or shifted by one
nibble (R184): shifted, it holds the nibble left unpaired. A claim about what is received after a reset holds for every
phase drawn. DESIGN CHOICE where R181 and R184 do not say: a reset between transfers keeps the shift an earlier reset
left (log 30); a reset in mid-transfer that finds no nibble unpaired, because of such a shift (log 30) or because it
falls in the first pulse (log 34), draws aligned or shifted with any nibble. -/
def PhaseDraw (mid : Bool) (left phase : Option Nibble) : Prop :=
  if mid then phase = none ∨ ∃ n, phase = some n ∧ (left = none ∨ left = some n) else phase = left

/-- What the display receives along a trace replayed from these bus levels and this pairing phase (R142, R184). -/
def traceBytesFrom (phase : Option Nibble) (b : Bus) (trace : List Event) : List (Option (Level × Byte)) :=
  pairNibbles phase (latchedNibbles b trace)

/-- `Bytes` of a trace replayed from these bus levels (R144), with the aligned pairing of R142. It holds only where no
reset fell in mid-transfer (R184); after one, `traceBytesFrom` takes the phase drawn. -/
def traceBytes (b : Bus) (trace : List Event) : List (Option (Level × Byte)) := traceBytesFrom none b trace

/-- The bus right after reset, with the pins the state has configured (R36). -/
def busAtReset (s : State) : Bus :=
  { shared := s.params.sharedDisp, pins := dispTables s, dd := s.params.gpioDD, dc := s.params.gpioDC }

/-- The bus as it stands now. -/
def busNow (s : State) : Bus :=
  { shared := s.params.sharedDisp, pins := dispTables s, dd := s.dd, dc := s.dc }

/-- What the display has received since reset, from the pairing phase the reset left it in (R184, `PhaseDraw`);
with `none` it is `Bytes(TRACE)` (R144). -/
def receivedBytes (phase : Option Nibble) (s : State) : List (Option (Level × Byte)) :=
  traceBytesFrom phase (busAtReset s) s.trace

/-- The pairing phase of the display as KDB stands now, from the phase the last reset left it in. -/
def phaseNow (phase : Option Nibble) (s : State) : Option Nibble := phaseAfter phase (latchedNibbles (busAtReset s) s.trace)

/-- A reset of KDB as it stands now falls in the middle of a transfer, so that it draws the pairing phase (R184, U24):
one nibble of a pair is latched, or EN is driven high, as in either pulse. DESIGN CHOICE: R184 speaks of a reset between
the two pulses and D29 of one in the middle of a transfer; the first pulse counts as the middle, the writes before it,
with EN low, do not; log 34. -/
def inMidTransfer (s : State) : Bool :=
  (latchedNibbles (busAtReset s) s.trace).length % 2 == 1 ||
    pinLevel (busCtrl (busNow s)) (ctrlPin s 2) == some true

/-- The pairing phases of the display after a reset of KDB as it stands now, from the phase the last one left it in. -/
def ResetPhase (before : Option Nibble) (s : State) (phase : Option Nibble) : Prop :=
  PhaseDraw (inMidTransfer s) (phaseNow before s) phase

/-- Where DEV's data writes go (R145). -/
inductive DevTarget where
  | ddram | cgram
  deriving DecidableEq, Repr

/-- DEV (R145). -/
structure Dev where
  ddram : Vector Byte 128
  ac : BitVec 7
  increment : Level
  shift : Level
  displayOn : Level
  cursorOn : Level
  blinkOn : Level
  eightBit : Level
  twoLine : Level
  largeFont : Level
  target : DevTarget
  deriving DecidableEq, Repr

/-- DEV at power-on (R145): TARGET is DDRAM. R145 calls DDRAM and AC unknown and gives no value for the flags, so
those parts are `unknown`'s: a claim holds for every `unknown`. -/
def devPowerOn (unknown : Dev) : Dev := { unknown with target := .ddram }

/-- AC moved by one (R147, ID = 1): on a 2-line display from the end of a line to the start of the other. Elsewhere,
also for N = 0 and for an address outside the two lines, to the next address; DEDUCED that the 7-bit counter goes from
0x7F to 0x00; log 29. -/
def addressAfter (twoLine : Level) (a : BitVec 7) : BitVec 7 :=
  if twoLine && a == 0x27 then 0x40 else if twoLine && a == 0x67 then 0x00 else a + 1

/-- AC moved by one the reverse way (R147, ID = 0); DEDUCED as `addressAfter` is; log 29. -/
def addressBefore (twoLine : Level) (a : BitVec 7) : BitVec 7 :=
  if twoLine && a == 0x40 then 0x27 else if twoLine && a == 0x00 then 0x67 else a - 1

/-- DEV executes a command byte (R146); none where R146 puts the class out of DEV. -/
def devCommand (d : Dev) (b : Byte) : Option Dev :=
  match busClass b with
  | .clearDisplay => some { d with ddram := Vector.replicate 128 0x20, ac := 0, increment := true, target := .ddram }
  | .returnHome => some { d with ac := 0, target := .ddram }
  | .entryModeSet i s => some { d with increment := i, shift := s }
  | .displayControl on c bl => some { d with displayOn := on, cursorOn := c, blinkOn := bl }
  | .cursorShift _ _ => none
  | .functionSet l n f => some { d with eightBit := l, twoLine := n, largeFont := f }
  | .setCgramAddr _ => some { d with target := .cgram }
  | .setDdramAddr a => some { d with ac := a, target := .ddram }
  | .reserved => some d

/-- DEV executes a data byte (R147); none for TARGET = CGRAM and for SH = 1, which are out of DEV (R146, R147).
DESIGN CHOICE: after a SET_CGRAM_ADDR data writes are in DEV again once TARGET is DDRAM, so also after a CLEAR_DISPLAY
or a RETURN_HOME, where R146 says both that these set TARGET to DDRAM and that data writes stay out until a
SET_DDRAM_ADDR; log 27. -/
def devData (d : Dev) (b : Byte) : Option Dev :=
  if d.target = .ddram ∧ d.shift = false then
    some { d with
      ddram := d.ddram.set d.ac.toNat b (by exact d.ac.isLt)
      ac := if d.increment then addressAfter d.twoLine d.ac else addressBefore d.twoLine d.ac }
  else none

/-- DEV executes a received pair (R146, R147); an unknown byte is out of DEV. -/
def devExec (d : Dev) : Option (Level × Byte) → Option Dev
  | some (false, b) => devCommand d b
  | some (true, b) => devData d b
  | none => none

/-- DEV executes the received bytes in order (R145: at once, with no busy state). -/
def devRun (d : Dev) : List (Option (Level × Byte)) → Option Dev
  | [] => some d
  | b :: rest =>
    match devExec d b with
    | some d' => devRun d' rest
    | none => none

/-- The visible position of a DDRAM address on a 20 x 4 display (R148). -/
def visibleAt (a : Nat) : Option (Nat × Nat) :=
  if a ≤ 0x13 then some (0, a)
  else if 0x40 ≤ a ∧ a ≤ 0x53 then some (1, a - 0x40)
  else if 0x14 ≤ a ∧ a ≤ 0x27 then some (2, a - 0x14)
  else if 0x54 ≤ a ∧ a ≤ 0x67 then some (3, a - 0x54)
  else none

end Sys2Proof.Machine
end

