-- ==== Sys2Proof/Safety.lean ====
section
/-! DEFINITION. What a good end of a run is (R177), the invariant of the machine, and the words in which the
claims are stated: the events of the spec's traces and what a command may change. -/

namespace Sys2Proof.Machine

/-- The end of a run that ends well (R177): every command done, SEQ IDLE, no fault, no refusal. DESIGN CHOICE: it
looks at the last state alone, so a run in which a reset abandoned a command, or cleared a fault or a refusal, ends
well if its last state does; R177 speaks of a run without resets and does not say; log 28. -/
def RunEndsWell (s : State) : Prop := s.host = [] ∧ s.seq = .idle ∧ s.fault = none ∧ s.refused = none

/-- KDB accepts a command (R32, R162, R175): SEQ IDLE, no FAULT, not REFUSED. -/
def AcceptsCommand (s : State) : Prop := s.seq = .idle ∧ s.fault = none ∧ s.refused = none

/-- SEQ stands in the wait loop of column `c` (R88, R96). -/
def Waiting (s : State) (w : Word) (c : Fin 6) : Prop := ∃ rest, s.seq = .run w (.at (.waitRelease c :: rest))

/-- The items of R180 at their reset values, for a machine with parameters `p` and this launch value. -/
def AtReset (t : State) (p : Params) (launch : Option Byte) : Prop :=
  t.kpState = .uninit ∧ t.dispState = .uninit ∧ t.kpCfg = none ∧ t.dispCfg = none ∧ t.keyout = launch ∧
  t.pressed = none ∧ t.seq = .idle ∧ t.fault = none ∧ t.refused = none ∧ t.trace = [] ∧
  t.kr = p.gpioKR ∧ t.kc = p.gpioKC ∧ t.dd = p.gpioDD ∧ t.dc = p.gpioDC

/-- The four row pins in use are pairwise distinct (R22). -/
def RowPinsDistinct (s : State) : Prop := ∀ a b : Fin 4, rowPin s a = rowPin s b → a = b

/-- The six column pins in use are pairwise distinct (R22). -/
def ColPinsDistinct (s : State) : Prop := ∀ a b : Fin 6, colPin s a = colPin s b → a = b

/-- The display pins in use are distinct as R24 asks. -/
def DispPinsDistinct (s : State) : Prop :=
  (∀ a b : Fin 4, dataPin s a = dataPin s b → a = b) ∧ (∀ a b : Fin 3, ctrlPin s a = ctrlPin s b → a = b) ∧
  (s.params.sharedDisp = true → ∀ (a : Fin 4) (b : Fin 3), dataPin s a ≠ ctrlPin s b)

/-- The registers of a port fit `w` bits (R15). -/
def FitsWidth (w : Nat) (p : PortRegs) : Prop := p.dir < 2 ^ w ∧ p.out < 2 ^ w ∧ p.pull < 2 ^ w

/-- Every GPIO register, and every `GPIO_RESET` value, fits `PORT_WIDTH` bits (R5, R15). -/
def PortsFit (s : State) : Prop :=
  (FitsWidth s.params.portWidth s.kr ∧ FitsWidth s.params.portWidth s.kc ∧
    FitsWidth s.params.portWidth s.dd ∧ FitsWidth s.params.portWidth s.dc) ∧
  (FitsWidth s.params.portWidth s.params.gpioKR ∧ FitsWidth s.params.portWidth s.params.gpioKC ∧
    FitsWidth s.params.portWidth s.params.gpioDD ∧ FitsWidth s.params.portWidth s.params.gpioDC)

/-- The pins of a READY unit are pins of its ports (R22, R24, R48). -/
def PinsInRange (s : State) : Prop :=
  (s.kpState = .ready →
    (∀ k : Fin 4, rowPin s k < s.params.portWidth) ∧ ∀ c : Fin 6, colPin s c < s.params.portWidth) ∧
  (s.dispState = .ready →
    (∀ j : Fin 4, dataPin s j < s.params.portWidth) ∧ ∀ j : Fin 3, ctrlPin s j < s.params.portWidth)

/-- What KP_INIT leaves for as long as KP is READY (R83): columns inputs with pull-up, rows outputs, pins
distinct. -/
def KpSetUp (s : State) : Prop :=
  RowPinsDistinct s ∧ ColPinsDistinct s ∧
  (∀ c : Fin 6, portBit s .kc .dir (colPin s c) = false ∧ portBit s .kc .pull (colPin s c) = true) ∧
  (∀ r : Fin 4, portBit s .kr .dir (rowPin s r) = true)

/-- At most one row is active (R78). -/
def RowsExclusive (s : State) : Prop :=
  ∀ a b : Fin 4, rowActive s a = true → rowActive s b = true → a = b

/-- What DISP_INIT leaves for as long as DISP is READY and no transfer is in progress (R101, R105): seven
outputs on distinct pins, RW and EN low. -/
def DispSetUp (s : State) : Prop :=
  DispPinsDistinct s ∧
  (∀ j : Fin 4, portBit s .dd .dir (dataPin s j) = true) ∧ (∀ j : Fin 3, portBit s .dc .dir (ctrlPin s j) = true) ∧
  portBit s .dc .out (ctrlPin s 1) = false ∧ portBit s .dc .out (ctrlPin s 2) = false

/-- Where SEQ can stand between two steps (R30, R160, R163): IDLE, at a command that raised a fault, or in the
wait loop of KP_READ or KP_DETECT on a READY keypad. -/
def SeqOk (s : State) : Prop :=
  s.seq = .idle ∨ s.fault ≠ none ∨
  ∃ w c rest, s.seq = .run w (.at (.waitRelease c :: rest)) ∧ s.kpState = .ready ∧
    ((w = encode .kpRead ∧ (.detect c :: rest) <:+ kpReadOps) ∨ ((∃ col, w = encode (.kpDetect col)) ∧ rest = []))

/-- The invariant of the machine between two steps. -/
structure Inv (s : State) : Prop where
  fit : PortsFit s
  pins : PinsInRange s
  kp : s.kpState = .ready → KpSetUp s
  rows : s.kpState = .ready → RowsExclusive s
  disp : s.dispState = .ready → DispSetUp s
  seq : SeqOk s

/-- The 18 events of `XFER(rs, b)` (R103, R106), under the pins in use. -/
def xferEvents (s : State) (rs : Level) (b : Byte) : List Event :=
  [.w .dc .out (ctrlPin s 0) rs, .w .dc .out (ctrlPin s 1) false,
   .w .dd .out (dataPin s 0) (b.getLsbD 4), .w .dd .out (dataPin s 1) (b.getLsbD 5),
   .w .dd .out (dataPin s 2) (b.getLsbD 6), .w .dd .out (dataPin s 3) (b.getLsbD 7),
   .w .dc .out (ctrlPin s 2) true, .d .edge, .w .dc .out (ctrlPin s 2) false, .d .edge,
   .w .dd .out (dataPin s 0) (b.getLsbD 0), .w .dd .out (dataPin s 1) (b.getLsbD 1),
   .w .dd .out (dataPin s 2) (b.getLsbD 2), .w .dd .out (dataPin s 3) (b.getLsbD 3),
   .w .dc .out (ctrlPin s 2) true, .d .edge, .w .dc .out (ctrlPin s 2) false, .d .edge]

/-- The events of transfers sent one after another with nothing between them. -/
def sendEvents (s : State) (sent : List (Level × Byte)) : List Event :=
  sent.flatMap fun x => xferEvents s x.1 x.2

/-- The transfers of `Position(row, col)` (R120, R121). -/
def positionBytes (p : Params) (row col : Nat) : List (Level × Byte) :=
  if h : row < 4 then
    if col < p.dispCols then [(false, addressByte p ⟨row, h⟩ col)] else []
  else []

/-- The transfers of `PrintString(text)` from string index `n` on (R129, R130). -/
def stringBytesFrom (p : Params) : Nat → List Byte → List (Level × Byte)
  | _, [] => []
  | n, b :: bs =>
    if b = 0 then []
    else (if n < p.wrapCol then [] else positionBytes p p.wrapRow (n - p.wrapCol)) ++ (true, b) :: stringBytesFrom p (n + 1) bs

/-- The transfers of `PrintNumber(v)` (R135). -/
def numberBytes (v : Int) : List (Level × Byte) := (dec v).map fun b => (true, b)

/-- The bus bytes a display command sends, in order (R69, R108 to R138); none for a keypad command. -/
def bytesSent (p : Params) : Instr → List (Level × Byte)
  | .kpInit _ => []
  | .kpRead => []
  | .kpDetect _ => []
  | .dispInit _ => p.bootCmds.toList.map fun b => (false, b)
  | .dispSendCommand code => [(false, code)]
  | .dispPrintChar code => [(true, code)]
  | .dispPrintCharTo row col code => positionBytes p row.toNat col.toNat ++ [(true, code)]
  | .dispPrintString text => stringBytesFrom p 0 text
  | .dispPrintStringTo row col text => positionBytes p row.toNat col.toNat ++ stringBytesFrom p 0 text
  | .dispMoveCursor row col => positionBytes p row.toNat col.toNat
  | .dispClear => [(false, p.cmdClear), (false, p.cmdReturnHome)]
  | .dispReturnHome => [(false, p.cmdReturnHome)]
  | .dispPrintNumber v => numberBytes v
  | .dispPrintNumberTo row col v => positionBytes p row.toNat col.toNat ++ numberBytes v

/-- A command of KP (UNIT 1), or one of DISP (UNIT 2). -/
def isKeypad : Instr → Bool
  | .kpInit _ => true
  | .kpRead => true
  | .kpDetect _ => true
  | .dispInit _ => false
  | .dispSendCommand _ => false
  | .dispPrintChar _ => false
  | .dispPrintCharTo _ _ _ => false
  | .dispPrintString _ => false
  | .dispPrintStringTo _ _ _ => false
  | .dispMoveCursor _ _ => false
  | .dispClear => false
  | .dispReturnHome => false
  | .dispPrintNumber _ => false
  | .dispPrintNumberTo _ _ _ => false

/-- DISP_INIT, the one display command that writes more than the bus OUT bits. -/
def isDispInit : Instr → Bool
  | .dispInit _ => true
  | .kpInit _ | .kpRead | .kpDetect _ | .dispSendCommand _ | .dispPrintChar _ | .dispPrintCharTo _ _ _
  | .dispPrintString _ | .dispPrintStringTo _ _ _ | .dispMoveCursor _ _ | .dispClear | .dispReturnHome
  | .dispPrintNumber _ | .dispPrintNumberTo _ _ _ => false

/-- The port bit is one of the seven display OUT bits (R108): a data pin of DD or a control pin of DC. -/
def BusOutBit (s : State) (p : Port) (reg : Reg) (i : Pin) : Prop :=
  reg = .out ∧
  ((portHome s.params.sharedDisp p = .dd ∧ ∃ j : Fin 4, i = dataPin s j) ∨
   (portHome s.params.sharedDisp p = portHome s.params.sharedDisp .dc ∧ ∃ j : Fin 3, i = ctrlPin s j))

/-- The levels the bus is left at by a last transfer `(rs, b)` (R103): RS, RW low, EN low, the lower nibble. -/
def BusLeftAt (s t : State) (rs : Level) (b : Byte) : Prop :=
  portBit t .dc .out (ctrlPin s 0) = rs ∧ portBit t .dc .out (ctrlPin s 1) = false ∧
  portBit t .dc .out (ctrlPin s 2) = false ∧ ∀ j : Fin 4, portBit t .dd .out (dataPin s j) = b.getLsbD j.val

/-- Everything of the keypad, the host and the environment is as before (R4, R20). -/
def KeypadKept (s t : State) : Prop :=
  t.kr = s.kr ∧ t.kc = s.kc ∧ t.kpCfg = s.kpCfg ∧ t.kpState = s.kpState ∧ t.keyout = s.keyout ∧
  t.pressed = s.pressed ∧ t.r = s.r ∧ t.k = s.k ∧ t.c = s.c ∧ t.env = s.env ∧ t.drawCount = s.drawCount

/-- Everything of the display is as before (R4, R20). -/
def DisplayKept (s t : State) : Prop :=
  t.dd = s.dd ∧ t.dc = s.dc ∧ t.dispCfg = s.dispCfg ∧ t.dispState = s.dispState ∧ t.dl = s.dl ∧ t.rsl = s.rsl ∧
  t.i = s.i

/-- FAULT, REFUSED, the parameters and the host's fields are as before. -/
def RecordsKept (s t : State) : Prop :=
  t.fault = s.fault ∧ t.refused = s.refused ∧ t.params = s.params ∧ t.host = s.host ∧ t.hostLog = s.hostLog

/-- A command has completed (R30): SEQ is IDLE and no payload is in progress. -/
def Completed (t : State) : Prop := t.seq = .idle ∧ t.payload = .none

/-- `t` is `s` after a completed display command, other than DISP_INIT, that sent these bytes: the latch and
the bus at the last of them, nothing else of the machine changed but TRACE and the loop register `i`. -/
structure DisplaySent (s t : State) (sent : List (Level × Byte)) : Prop where
  completed : Completed t
  keypad : KeypadKept s t
  records : RecordsKept s t
  config : t.dispCfg = s.dispCfg ∧ t.dispState = s.dispState
  nothing : sent = [] → t.dl = s.dl ∧ t.rsl = s.rsl ∧ t.dd = s.dd ∧ t.dc = s.dc
  latch : ∀ rs b, sent.getLast? = some (rs, b) → t.dl = b ∧ t.rsl = rs
  bus : ∀ rs b, sent.getLast? = some (rs, b) → DispPinsDistinct s → BusLeftAt s t rs b
  otherBits : ∀ p reg n, ¬ BusOutBit s p reg n → portBit t p reg n = portBit s p reg n

/-- The five events of `SelectRow(r)` (R77). -/
def selectEvents (s : State) (r : Fin 4) : List Event :=
  [.w .kr .out (rowPin s 0) true, .w .kr .out (rowPin s 1) true, .w .kr .out (rowPin s 2) true,
   .w .kr .out (rowPin s 3) true, .w .kr .out (rowPin s r) false]

/-- The samples of the first `n` columns, all open. -/
def openEvents (s : State) (n : Nat) : List Event :=
  ((List.finRange 6).take n).map fun c => .s .kc (colPin s c) true

/-- The events of the first `n` rows of a scan in which every sample reads open (R91, R97). -/
def openRowsEvents (s : State) (n : Nat) : List Event :=
  ((List.finRange 4).take n).flatMap fun r => selectEvents s r ++ openEvents s 6

/-- The events of a scan up to, not including, the first sample of key (r, c) (R97). -/
def eventsBefore (s : State) (r : Fin 4) (c : Fin 6) : List Event :=
  openRowsEvents s r.val ++ selectEvents s r ++ openEvents s c.val

/-- The 20 events of KP_INIT (R82), under the pins of a payload's tables. -/
def kpInitEvents (t : KpConfig) : List Event :=
  ((List.finRange 6).flatMap fun c => [.w .kc .dir t.colPins[c] false, .w .kc .pull t.colPins[c] true]) ++
  ((List.finRange 4).flatMap fun k => [.w .kr .dir t.rowPins[k] true, .w .kr .out t.rowPins[k] true])

/-- The 103 events of DISP_INIT (R114), written for a state `t` that holds the tables. -/
def dispInitEvents (t : State) : List Event :=
  ((List.finRange 4).map fun j => .w .dd .dir (dataPin t j) true) ++
  ((List.finRange 3).map fun j => .w .dc .dir (ctrlPin t j) true) ++ [.d .power] ++
  t.params.bootCmds.toList.flatMap fun b => xferEvents t false b ++ [.d .cmd]

/-- `key` is the least of `closed` in row-major order (R93). -/
def FirstClosed (closed : List Key) (key : Key) : Prop :=
  key ∈ closed ∧ ∀ k ∈ closed, 6 * key.r.val + key.c.val ≤ 6 * k.r.val + k.c.val

/-- The number a string of digit codes stands for in decimal. -/
def digitsValue (ds : List Byte) : Nat := ds.foldl (fun acc d => 10 * acc + (d.toNat - 0x30)) 0

/-- The part of the state KP commands read (R4): the keypad's, the environment's and the parameters. -/
def SameKeypadPart (s t : State) : Prop := KeypadKept s t ∧ t.params = s.params

/-- The part of the state DISP commands read (R4): the display's and the parameters. -/
def SameDisplayPart (s t : State) : Prop := DisplayKept s t ∧ t.params = s.params

/-- Command `i` has one outcome (R9, R154) on `a` and on `b`, where it answers `a'` and `b'`: on both it raises the
same fault with the same record and does nothing else; or on both it keeps FAULT as it was, and SEQ stands at the same
place, so that it completes on both or waits on both. -/
def SameOutcome (i : Instr) (a b a' b' : State) : Prop :=
  (∃ code, a' = raiseFault a code (some (encode i)) ∧ b' = raiseFault b code (some (encode i))) ∨
  (a'.fault = a.fault ∧ b'.fault = b.fault ∧ a'.seq = b'.seq ∧ a'.payload = b'.payload ∧ (Completed a' ↔ Completed b'))

end Sys2Proof.Machine
end

