-- ==== Sys2Proof/Certificates/Slice0/Obligations.lean ====
section
/-! DEFINITION. The statements for the provers, from the numbered rules of spec/. -/

open Sys2Proof Sys2Proof.Machine

/-! ## Reset, steps and outcomes -/

/-- R180: what a reset leaves, whatever state KDB was in, and the machine's first state. `AtReset` states the items
R180 lists; that the environment is kept is R181's, and that the parameters are kept through a reset is the model's
choice (log 18). -/
def Obligations.ResetValues : Prop :=
  (∀ (s : State) (launch : Option Byte),
    AtReset (platformReset s launch) s.params launch ∧ (platformReset s launch).params = s.params ∧
    (platformReset s launch).env = s.env) ∧
  AtReset State.reset Params.default none

/-- R182: with the default GPIO_RESET every pin after reset is an input with no pull-up, and every command
but the two inits faults. That a fault is a next state in which FAULT is recorded is the model's choice (log 6). -/
def Obligations.ResetPinsAreInputs : Prop :=
  (∀ (p : Port) (i : Pin), portBit State.reset p .dir i = false ∧ portBit State.reset p .pull i = false) ∧
  (∀ i : Instr, (∀ cfg, i ≠ .kpInit cfg) → (∀ cfg, i ≠ .dispInit cfg) →
    ∃ code, exec i State.reset = .next (raiseFault State.reset code (some (encode i))))

/-- The invariant holds right after reset. -/
def Obligations.ResetHasInvariant : Prop := Inv State.reset

/-- From every state with the invariant, every step that answers a next state keeps it. -/
def Obligations.StepKeepsInvariant : Prop :=
  ∀ s t : State, Inv s → step s = .next t → Inv t

/-- A step at an idle KDB whose host issues a command runs the decoded command: `exec` of it on the state
with the action taken off the host's list and SEQ at the command's start. So too for a placed table word. The
granularity of a step is the model's choice (log 1), and so is how a placed word comes to run (log 16). -/
def Obligations.StepRunsDecodedCommand : Prop :=
  (∀ (s : State) (w : Word) (p : Payload) (rest : List HostAction) (i : Instr),
    AcceptsCommand s → s.host = .issue w p :: rest → decode w p = .ok i →
    step s = exec i { s with host := rest, seq := .run w .entry, payload := p }) ∧
  (∀ (s : State) (nbits w : Nat) (i : Instr), decodeTableWord nbits w = some i →
    step (s.withFetchWord nbits w) =
      exec i { s with seq := .run (tableWord nbits w) .entry, payload := tablePayload (tableWord nbits w), fault := none, refused := none })

/-- R162: a word that decodes to ILLEGAL sets REFUSED, performs no micro-step, and KDB then takes no step. That the
refusal shows as a next state first and as a refused step after it is the model's choice (log 7). So is that the step is
refused where SEQ is IDLE and the host would read or write KEYOUT or read PRESSED, of which R55 and R175 ask SEQ IDLE
alone (log 31). -/
def Obligations.IllegalWordIsRefused : Prop :=
  ∀ (s : State) (w : Word) (p : Payload) (rest : List HostAction) (e : Illegal),
    AcceptsCommand s → s.host = .issue w p :: rest → decode w p = .error e →
    step s = .next { s with host := rest, refused := some e } ∧
    ∀ t : State, t.fault = none → t.refused = some e → (∀ l more, t.host ≠ .reset l :: more) →
      step t = .refused (.commandRefused e)

/-- R32: while FAULT is set KDB takes no step; only a reset clears it. That the step after
a fault answers `Outcome.fault` is the model's way to take no step (log 6). That it answers so where SEQ is IDLE and the
host would read or write KEYOUT or read PRESSED, of which R55 and R175 ask SEQ IDLE alone, is the model's choice
(log 31). -/
def Obligations.FaultStopsUntilReset : Prop :=
  ∀ (s : State) (f : FaultRecord), s.fault = some f →
    ((∀ l more, s.host ≠ .reset l :: more) → step s = .fault (.stopped f)) ∧
    (∀ t : State, step s = .next t → (∃ l more, s.host = .reset l :: more) ∧ t.fault = none)

/-- R178, R180: a reset is taken from any state, in progress, faulted or refused, and a reset between two
micro-steps of a command leaves the same KDB state. The form of the two
host actions is the model's (log 18, log 24). -/
def Obligations.ResetFromAnyState : Prop :=
  (∀ (s : State) (l : Option Byte) (rest : List HostAction), s.host = .reset l :: rest →
    step s = .next (platformReset { s with host := rest } l)) ∧
  (∀ (s : State) (w : Word) (p : Payload) (n : Nat) (l : Option Byte) (rest : List HostAction),
    AcceptsCommand s → s.host = .issueThenReset w p n l :: rest →
    ∃ t : State, step s = .next t ∧
      t = { platformReset { s with host := rest } l with env := t.env, drawCount := t.drawCount })

/-- R175, R55: what the host reads and writes between commands, and the faults 0x21 and 0x22 (R157). The list of
host actions and their log are the model's (log 9), as are the stutter at an empty list (log 8), the refusal of a
request that KDB need not serve (log 20) and that a host write appends no event (log 26). -/
def Obligations.HostAccessBetweenCommands : Prop :=
  ∀ (s : State) (rest : List HostAction), AcceptsCommand s →
    (∀ v, s.host = .readKeyout :: rest → s.keyout = some v →
      step s = .next { s with host := rest, hostLog := s.hostLog ++ [.keyout v] }) ∧
    (s.host = .readKeyout :: rest → s.keyout = none →
      step s = .next { s with host := rest, fault := some { code := .keyoutUnwritten, cmdword := none } }) ∧
    (∀ v, s.host = .writeKeyout v :: rest → step s = .next { s with host := rest, keyout := some v }) ∧
    (∀ v, s.host = .readPressed :: rest → s.pressed = some v →
      step s = .next { s with host := rest, hostLog := s.hostLog ++ [.pressed v] }) ∧
    (s.host = .readPressed :: rest → s.pressed = none →
      step s = .next { s with host := rest, fault := some { code := .pressedUnwritten, cmdword := none } }) ∧
    (s.host = .readDisplay :: rest → step s = .refused .hostRequestNotServed) ∧
    (s.host = [] → step s = .next s)

/-- R157: the numbers of the fault codes. -/
def Obligations.FaultCodeNumbers : Prop :=
  [FaultCode.kpNotInit, .kpDoubleInit, .kpConfigInvalid, .kpArgRange, .dispNotInit, .dispDoubleInit,
    .dispConfigInvalid, .keyoutUnwritten, .pressedUnwritten].map faultNumber =
    [0x01, 0x02, 0x03, 0x04, 0x11, 0x12, 0x13, 0x21, 0x22]

/-- R86, R5: no step changes the parameters, the detection mode among them. That a reset keeps them too is the model's
choice (log 18): R186 fixes PORT_BINDING only until reset. -/
def Obligations.ParametersNeverChange : Prop :=
  ∀ s t : State, step s = .next t → t.params = s.params

/-- R34: TRACE is append-only: a step that is no reset only adds events at its end. -/
def Obligations.TraceIsAppendOnly : Prop :=
  ∀ s t : State, (∀ l more, s.host ≠ .reset l :: more) → (∀ w p n l more, s.host ≠ .issueThenReset w p n l :: more) →
    step s = .next t → s.trace <+: t.trace

/-- R21, R23, R25, R26: a configured unit keeps its tables and stays READY until a reset. -/
def Obligations.ConfigurationIsImmutable : Prop :=
  ∀ s t : State, Inv s → (∀ l more, s.host ≠ .reset l :: more) →
    (∀ w p n l more, s.host ≠ .issueThenReset w p n l :: more) → step s = .next t →
    (s.kpState = .ready → t.kpState = .ready ∧ t.kpCfg = s.kpCfg) ∧
    (s.dispState = .ready → t.dispState = .ready ∧ t.dispCfg = s.dispCfg)

/-! ## Encoding -/

/-- Words written out from R61 and from the vectors E1 to E30 decode to the commands they stand for. -/
def Obligations.TableWordsDecode : Prop :=
  decode 0x11000000 .none = .ok .kpRead ∧
  decode 0x12000300 .none = .ok (.kpDetect 3) ∧
  decode 0x21000028 .none = .ok (.dispSendCommand 0x28) ∧
  decode 0x23010537 .none = .ok (.dispPrintCharTo 1 5 0x37) ∧
  decode 0x25020300 (.text [0x48, 0x49]) = .ok (.dispPrintStringTo 2 3 [0x48, 0x49]) ∧
  decode 0x26031300 .none = .ok (.dispMoveCursor 3 19) ∧
  decode 0x2A000A00 (.value 42) = .ok (.dispPrintNumberTo 0 10 42) ∧
  decode 0x00000000 .none = .error .illegalUnit ∧
  decode 0x13000000 .none = .error .illegalOp ∧
  decode 0x26010041 .none = .error .nonzeroUnusedField ∧
  decode 0x24000000 (.value 5) = .error .payloadKind

/-- Decoding the encoded word and payload of any well-formed command gives the command back. -/
def Obligations.DecodeOfEncode : Prop :=
  ∀ i : Instr, i.wellFormed = true → decode (encode i) (payloadOf i) = .ok i

/-- Whatever decodes is the encoded word of a well-formed command with its own payload: no other word has a
meaning (R63). -/
def Obligations.OnlyEncodedWordsDecode : Prop :=
  ∀ (w : Word) (p : Payload) (i : Instr), decode w p = .ok i →
    i.wellFormed = true ∧ encode i = w ∧ payloadOf i = p

/-- R63, R162: each kind of reserved or illegal encoding is refused with its reason, in the order of R62. -/
def Obligations.ReservedEncodingsRefused : Prop :=
  (∀ (w : Word) (p : Payload), w.toNat / 2 ^ 28 ≠ 1 → w.toNat / 2 ^ 28 ≠ 2 → decode w p = .error .illegalUnit) ∧
  (∀ (w : Word) (p : Payload), w.toNat / 2 ^ 28 = 1 → 3 ≤ w.toNat / 2 ^ 24 % 16 → decode w p = .error .illegalOp) ∧
  (∀ (w : Word) (p : Payload), w.toNat / 2 ^ 28 = 2 → 0xB ≤ w.toNat / 2 ^ 24 % 16 → decode w p = .error .illegalOp) ∧
  (∀ (w : Word) (p : Payload) (op : Opcode), opcodeAt (fieldUnit w) (fieldOp w) = .ok op →
    ((usesRow op = false ∧ fieldRow w ≠ 0) ∨ (usesCol op = false ∧ fieldCol w ≠ 0) ∨ (usesData op = false ∧ fieldData w ≠ 0)) →
    decode w p = .error .nonzeroUnusedField) ∧
  (∀ (i : Instr) (p : Payload), payloadKindOf p ≠ some (opcodeKind (opcodeOf i)) →
    decode (encode i) p = .error .payloadKind)

/-- R74: the pseudo-instructions and what they stand for. -/
def Obligations.PseudoInstructionsExpand : Prop :=
  (∀ a : Byte, a.toNat < 0x80 → expandPseudo (.dispSetDdram a) = some (.dispSendCommand (0x80 ||| a))) ∧
  (∀ a : Byte, 0x80 ≤ a.toNat → expandPseudo (.dispSetDdram a) = none) ∧
  expandPseudo .dispFunction4Bit2Line = some (.dispSendCommand 0x28) ∧
  expandPseudo .dispDisplayOnCursor = some (.dispSendCommand 0x0E) ∧
  expandPseudo .dispDisplayOff = some (.dispSendCommand 0x08) ∧
  expandPseudo .dispEntryIncrement = some (.dispSendCommand 0x06)

/-! ## Faults of commands -/

/-- R157, R160, R161, R165: when the keypad commands fault, and that a fault changes FAULT alone. A fault is
a next state in which FAULT is recorded and SEQ stays where it was (log 6). -/
def Obligations.KeypadFaults : Prop :=
  ∀ s : State,
    (s.kpState = .uninit → exec .kpRead s = .next { s with fault := some ⟨.kpNotInit, some 0x11000000⟩ }) ∧
    (∀ col : Byte, s.kpState = .uninit →
      exec (.kpDetect col) s = .next { s with fault := some ⟨.kpNotInit, some (encode (.kpDetect col))⟩ }) ∧
    (∀ col : Byte, s.kpState = .ready → 6 ≤ col.toNat →
      exec (.kpDetect col) s = .next { s with fault := some ⟨.kpArgRange, some (encode (.kpDetect col))⟩ }) ∧
    (∀ cfg, s.kpState = .ready → exec (.kpInit cfg) s = .next { s with fault := some ⟨.kpDoubleInit, some 0x10000000⟩ }) ∧
    (∀ cfg, s.kpState = .uninit → kpValid s.params.portWidth cfg = false →
      exec (.kpInit cfg) s = .next { s with fault := some ⟨.kpConfigInvalid, some 0x10000000⟩ })

/-- R157, R160, R161, R165: when the display commands fault, and that a fault changes FAULT alone. A fault is
a next state in which FAULT is recorded and SEQ stays where it was (log 6). -/
def Obligations.DisplayFaults : Prop :=
  ∀ s : State,
    (∀ i : Instr, isKeypad i = false → isDispInit i = false → s.dispState = .uninit →
      exec i s = .next { s with fault := some ⟨.dispNotInit, some (encode i)⟩ }) ∧
    (∀ cfg, s.dispState = .ready → exec (.dispInit cfg) s = .next { s with fault := some ⟨.dispDoubleInit, some 0x20000000⟩ }) ∧
    (∀ cfg, s.dispState = .uninit → dispValid s.params.portWidth s.params.sharedDisp cfg = false →
      exec (.dispInit cfg) s = .next { s with fault := some ⟨.dispConfigInvalid, some 0x20000000⟩ })

/-- R22: exactly when a keypad configuration is valid, for every PORT_WIDTH `w` (R5). -/
def Obligations.KeypadConfigValidity : Prop :=
  ∀ (w : Nat) (cfg : KpCfg), kpValid w cfg = true ↔
    (∀ k : Fin 4, cfg.rowPins[k] < w) ∧ (∀ a b : Fin 4, cfg.rowPins[a] = cfg.rowPins[b] → a = b) ∧
    (∀ c : Fin 6, cfg.colPins[c] < w) ∧ (∀ a b : Fin 6, cfg.colPins[a] = cfg.colPins[b] → a = b) ∧
    cfg.keyMap.length = 24 ∧ ∀ x ∈ cfg.keyMap, x < 2 ^ 8

/-- R24: exactly when a display configuration is valid, for every PORT_WIDTH `w` (R5); `shared` when DD and DC are
one port. -/
def Obligations.DisplayConfigValidity : Prop :=
  ∀ (w : Nat) (shared : Bool) (cfg : DispCfg), dispValid w shared cfg = true ↔
    (∀ j : Fin 4, cfg.dataPins[j] < w) ∧ (∀ j : Fin 3, cfg.ctrlPins[j] < w) ∧
    (∀ a b : Fin 4, cfg.dataPins[a] = cfg.dataPins[b] → a = b) ∧ (∀ a b : Fin 3, cfg.ctrlPins[a] = cfg.ctrlPins[b] → a = b) ∧
    (shared = true → ∀ (a : Fin 4) (b : Fin 3), cfg.dataPins[a] ≠ cfg.ctrlPins[b])

/-! ## Keypad -/

/-- R82, R83: KP_INIT with a valid configuration; every column sample under ENV_IDEAL then returns 1, whatever
CLOSED holds. -/
def Obligations.KpInitResult : Prop :=
  ∀ (s : State) (cfg : KpCfg), s.kpState = .uninit → kpValid s.params.portWidth cfg = true →
    ∃ t : State, exec (.kpInit cfg) s = .next t ∧ Completed t ∧ t.kpState = .ready ∧
      (∀ k : Fin 4, rowPin t k = cfg.rowPins[k]) ∧ (∀ c : Fin 6, colPin t c = cfg.colPins[c]) ∧
      (∀ (r : Fin 4) (c : Fin 6), (keySymbol t r c).toNat = cfg.keyMap.getD (6 * r.val + c.val) 0) ∧
      t.trace = s.trace ++ kpInitEvents (kpConfigOf cfg) ∧
      KpSetUp t ∧ (∀ r : Fin 4, portBit t .kr .out (rowPin t r) = true ∧ rowActive t r = false) ∧
      (∀ (reg : Reg) (n : Pin), (reg = .pull ∨ ∀ k : Fin 4, n ≠ rowPin t k) → portBit t .kr reg n = portBit s .kr reg n) ∧
      (∀ (reg : Reg) (n : Pin), (reg = .out ∨ ∀ c : Fin 6, n ≠ colPin t c) → portBit t .kc reg n = portBit s .kc reg n) ∧
      DisplayKept s t ∧ RecordsKept s t ∧ t.keyout = s.keyout ∧ t.pressed = s.pressed ∧ t.env = s.env ∧ t.drawCount = s.drawCount ∧
      ∀ (closed : List Key) (c : Fin 6), idealLevel t closed c = some true

/-- R84: what a column sample under ENV_IDEAL returns for a pulled-up input column. That ENV_IDEAL
reads a list of the sets CLOSED to come is the model's form of the environment (log 3). -/
def Obligations.IdealColumnSample : Prop :=
  ∀ (s : State) (upcoming : List (List Key)) (closed : List Key) (c : Fin 6),
    s.env = .ideal upcoming closed → portBit s .kc .dir (colPin s c) = false → portBit s .kc .pull (colPin s c) = true →
    (sampleValue s c = false ↔ ∃ r : Fin 4, (⟨r, c⟩ : Key) ∈ upcoming.headD closed ∧
      portBit s .kr .dir (rowPin s r) = true ∧ portBit s .kr .out (rowPin s r) = false)

/-- R45: a sample changes no KDB state but appends its event. The draws it
consumes are the model's form of the environment (log 3). -/
def Obligations.SampleChangesNoKdbState : Prop :=
  ∀ (s : State) (c : Fin 6),
    afterSample s c = { s with
      trace := s.trace ++ [.s .kc (colPin s c) (sampleValue s c)],
      env := (afterSample s c).env, drawCount := (afterSample s c).drawCount } ∧
    (∀ v vs, s.env = .draws (v :: vs) → sampleValue s c = v ∧ (afterSample s c).env = .draws vs)

/-- R92, R95, R97, R100: KP_READ when the 24 samples read open, in either mode. The script of
samples in `env` is the model's form of the environment (log 3). -/
def Obligations.KpReadNoKey : Prop :=
  ∀ (s : State) (rest : List Level), s.kpState = .ready → s.env = .draws (List.replicate 24 true ++ rest) →
    ∃ t : State, exec .kpRead s = .next t ∧ Completed t ∧ t.keyout = s.keyout ∧ t.pressed = some false ∧
      t.trace = s.trace ++ openRowsEvents s 4 ∧ t.env = .draws rest ∧ t.kpState = .ready ∧ t.kpCfg = s.kpCfg ∧ t.kc = s.kc ∧
      (RowPinsDistinct s → ∀ r : Fin 4, portBit t .kr .out (rowPin s r) = decide (r ≠ 3)) ∧
      (∀ (reg : Reg) (n : Pin), (reg ≠ .out ∨ ∀ k : Fin 4, n ≠ rowPin s k) → portBit t .kr reg n = portBit s .kr reg n) ∧
      DisplayKept s t ∧ RecordsKept s t

/-- R91, R94, R95, R97, R100: KP_READ in SINGLE_SAMPLE mode when the first closed sample is that of key (r, c). The
script of samples in `env` is the model's form of the environment (log 3). -/
def Obligations.KpReadSingleSampleKey : Prop :=
  ∀ (s : State) (r : Fin 4) (c : Fin 6) (rest : List Level), s.kpState = .ready → s.params.detectMode = .singleSample →
    s.env = .draws (List.replicate (6 * r.val + c.val) true ++ false :: rest) →
    ∃ t : State, exec .kpRead s = .next t ∧ Completed t ∧ t.keyout = some (keySymbol s r c) ∧ t.pressed = some true ∧
      t.trace = s.trace ++ eventsBefore s r c ++ [.s .kc (colPin s c) false, .k (keySymbol s r c)] ∧
      t.env = .draws rest ∧ t.kpState = .ready ∧ t.kpCfg = s.kpCfg ∧ t.kc = s.kc ∧
      (RowPinsDistinct s → ∀ k : Fin 4, portBit t .kr .out (rowPin s k) = decide (k ≠ r)) ∧
      (∀ (reg : Reg) (n : Pin), (reg ≠ .out ∨ ∀ k : Fin 4, n ≠ rowPin s k) → portBit t .kr reg n = portBit s .kr reg n) ∧
      DisplayKept s t ∧ RecordsKept s t

/-- R88, R91, R94, R95, R97, R100: KP_READ in BLOCKING_RELEASE mode when key (r, c) is held for `h + 1`
samples: the command is in the wait loop until the sample that reads open, `h + 1` steps later, completes it. The
granularity of these steps and the script of samples are the model's (log 1, log 3). -/
def Obligations.KpReadBlockingKey : Prop :=
  ∀ (s : State) (r : Fin 4) (c : Fin 6) (h : Nat) (rest : List Level), s.kpState = .ready →
    s.params.detectMode = .blockingRelease → s.fault = none → s.refused = none → s.host = [] →
    s.env = .draws (List.replicate (6 * r.val + c.val) true ++ (List.replicate (h + 1) false ++ true :: rest)) →
    ∃ u t : State, exec .kpRead s = .next u ∧ Waiting u (encode .kpRead) c ∧ u.keyout = s.keyout ∧
      Host.Core.run core (h + 1) u = .next t ∧ Completed t ∧ t.keyout = some (keySymbol s r c) ∧ t.pressed = some true ∧
      t.trace = s.trace ++ eventsBefore s r c ++ List.replicate (h + 1) (.s .kc (colPin s c) false) ++
        [.s .kc (colPin s c) true, .k (keySymbol s r c)] ∧
      t.env = .draws rest ∧ t.kpState = .ready ∧ t.kpCfg = s.kpCfg ∧ t.kc = s.kc ∧
      (RowPinsDistinct s → ∀ k : Fin 4, portBit t .kr .out (rowPin s k) = decide (k ≠ r)) ∧
      (∀ (reg : Reg) (n : Pin), (reg ≠ .out ∨ ∀ k : Fin 4, n ≠ rowPin s k) → portBit t .kr reg n = portBit s .kr reg n) ∧
      DisplayKept s t ∧ RecordsKept s t

/-- R154, R91: in every environment and mode KP_READ on a READY keypad either completes without a key, or
completes with the symbol of one key, or stands in the wait loop with KEYOUT as before. That a BLOCKING_RELEASE
KP_READ that meets a key ends `exec` in the wait loop, and completes with that key in a later step, is the model's
granularity (log 1). -/
def Obligations.KpReadOutcomes : Prop :=
  ∀ s : State, s.kpState = .ready →
    ∃ t : State, exec .kpRead s = .next t ∧ DisplayKept s t ∧ RecordsKept s t ∧ s.trace <+: t.trace ∧
      ((Completed t ∧ t.keyout = s.keyout ∧ t.pressed = some false) ∨
       (Completed t ∧ s.params.detectMode = .singleSample ∧ t.pressed = some true ∧
         ∃ (r : Fin 4) (c : Fin 6), t.keyout = some (keySymbol s r c) ∧
           t.trace = s.trace ++ eventsBefore s r c ++ [.s .kc (colPin s c) false, .k (keySymbol s r c)]) ∨
       (s.params.detectMode = .blockingRelease ∧ t.keyout = s.keyout ∧
         ∃ (r : Fin 4) (c : Fin 6), Waiting t (encode .kpRead) c ∧
           t.trace = s.trace ++ eventsBefore s r c ++ [.s .kc (colPin s c) false]))

/-- R93: under ENV_IDEAL with CLOSED constant, a SINGLE_SAMPLE KP_READ writes the symbol of the closed key
first in row-major order; with CLOSED empty KEYOUT is kept, in either mode. -/
def Obligations.FirstMatchUnderIdealEnvironment : Prop :=
  (∀ (s : State) (closed : List Key) (key : Key), s.kpState = .ready → KpSetUp s →
    s.params.detectMode = .singleSample → s.env = .ideal [] closed → FirstClosed closed key →
    ∃ t : State, exec .kpRead s = .next t ∧ Completed t ∧ t.keyout = some (keySymbol s key.r key.c) ∧
      t.trace = s.trace ++ eventsBefore s key.r key.c ++ [.s .kc (colPin s key.c) false, .k (keySymbol s key.r key.c)]) ∧
  (∀ s : State, s.kpState = .ready → KpSetUp s → s.env = .ideal [] [] →
    ∃ t : State, exec .kpRead s = .next t ∧ Completed t ∧ t.keyout = s.keyout ∧ t.trace = s.trace ++ openRowsEvents s 4)

/-- R93, R96, R163: under ENV_IDEAL with CLOSED constant and not empty, a BLOCKING_RELEASE KP_READ never
completes: after any number of steps it stands in the wait loop, one sample later each, KEYOUT as before. That one
step is one sample here is the model's granularity (log 1). -/
def Obligations.HeldKeyHangsKpRead : Prop :=
  ∀ (s : State) (closed : List Key) (key : Key), s.kpState = .ready → KpSetUp s →
    s.params.detectMode = .blockingRelease → s.fault = none → s.refused = none → s.host = [] →
    s.env = .ideal [] closed → FirstClosed closed key →
    ∃ u : State, exec .kpRead s = .next u ∧
      ∀ n : Nat, ∃ t : State, Host.Core.run core n u = .next t ∧ Waiting t (encode .kpRead) key.c ∧
        t.fault = none ∧ t.keyout = s.keyout ∧
        t.trace = s.trace ++ eventsBefore s key.r key.c ++ List.replicate (n + 1) (.s .kc (colPin s key.c) false)

/-- R89, R90: KP_DETECT in SINGLE_SAMPLE mode, in every environment. That the
column is an operand and not the loop register c is the model's reading (log 10). -/
def Obligations.KpDetectSingleSample : Prop :=
  ∀ (s : State) (col : Byte) (c : Fin 6), s.kpState = .ready → col.toNat = c.val → s.params.detectMode = .singleSample →
    ∃ t : State, exec (.kpDetect col) s = .next t ∧ Completed t ∧ t.pressed = some (!sampleValue s c) ∧
      t.trace = s.trace ++ [.s .kc (colPin s c) (sampleValue s c)] ∧
      DisplayKept s t ∧ RecordsKept s t ∧ t.kr = s.kr ∧ t.kc = s.kc ∧ t.kpCfg = s.kpCfg ∧ t.kpState = s.kpState ∧
      t.keyout = s.keyout ∧ t.r = s.r ∧ t.k = s.k ∧ t.c = s.c

/-- R88, R90: KP_DETECT in BLOCKING_RELEASE mode: an open first sample completes it with PRESSED 0; a key held
for `h + 1` samples completes it with PRESSED 1 at the sample that reads open; it writes no row and no KEYOUT. The
granularity of these steps and the script of samples are the model's (log 1, log 3). -/
def Obligations.KpDetectBlocking : Prop :=
  (∀ (s : State) (col : Byte) (c : Fin 6), s.kpState = .ready → col.toNat = c.val →
    s.params.detectMode = .blockingRelease → sampleValue s c = true →
    ∃ t : State, exec (.kpDetect col) s = .next t ∧ Completed t ∧ t.pressed = some false ∧
      t.trace = s.trace ++ [.s .kc (colPin s c) true] ∧ DisplayKept s t ∧ RecordsKept s t ∧ t.kr = s.kr ∧ t.kc = s.kc ∧
      t.keyout = s.keyout) ∧
  (∀ (s : State) (col : Byte) (c : Fin 6) (h : Nat) (rest : List Level), s.kpState = .ready → col.toNat = c.val →
    s.params.detectMode = .blockingRelease → s.fault = none → s.refused = none → s.host = [] →
    s.env = .draws (List.replicate (h + 1) false ++ true :: rest) →
    ∃ u t : State, exec (.kpDetect col) s = .next u ∧ Waiting u (encode (.kpDetect col)) c ∧
      Host.Core.run core (h + 1) u = .next t ∧ Completed t ∧ t.pressed = some true ∧
      t.trace = s.trace ++ List.replicate (h + 1) (.s .kc (colPin s c) false) ++ [.s .kc (colPin s c) true] ∧
      DisplayKept s t ∧ RecordsKept s t ∧ t.kr = s.kr ∧ t.kc = s.kc ∧ t.keyout = s.keyout)

/-- R96: a step in the wait loop whose sample reads closed leaves the command in progress, appends that one
event and changes nothing else of KDB. That one step is one
sample here is the model's granularity (log 1). -/
def Obligations.ClosedSampleKeepsWaiting : Prop :=
  ∀ (s : State) (w : Word) (c : Fin 6) (more : List MicroOp), s.seq = .run w (.at (.waitRelease c :: more)) →
    s.fault = none → s.refused = none → (∀ l later, s.host ≠ .reset l :: later) → sampleValue s c = false →
    ∃ t : State, step s = .next t ∧
      t = { s with trace := s.trace ++ [.s .kc (colPin s c) false], env := t.env, drawCount := t.drawCount }

/-! ## Display -/

/-- R114, R115, R116: DISP_INIT with a valid configuration. -/
def Obligations.DispInitResult : Prop :=
  ∀ (s : State) (cfg : DispCfg), s.dispState = .uninit → dispValid s.params.portWidth s.params.sharedDisp cfg = true →
    ∃ t : State, exec (.dispInit cfg) s = .next t ∧ Completed t ∧ t.dispState = .ready ∧
      (∀ j : Fin 4, dataPin t j = cfg.dataPins[j]) ∧ (∀ j : Fin 3, ctrlPin t j = cfg.ctrlPins[j]) ∧
      t.trace = s.trace ++ dispInitEvents t ∧ t.dl = s.params.bootCmds[4] ∧ t.rsl = false ∧
      DispSetUp t ∧ BusLeftAt t t false s.params.bootCmds[4] ∧ KeypadKept s t ∧ RecordsKept s t ∧ t.i = s.i ∧
      (∀ (p : Port) (reg : Reg) (n : Pin), reg = .pull ∨ ¬ BusOutBit t p .out n → portBit t p reg n = portBit s p reg n)

/-- R108, R103: DISP_SEND_COMMAND sends any byte unchanged (R70) with RS low, and no settle delay follows. -/
def Obligations.DispSendCommandResult : Prop :=
  ∀ (s : State) (code : Byte), s.dispState = .ready →
    ∃ t : State, exec (.dispSendCommand code) s = .next t ∧ t.trace = s.trace ++ xferEvents s false code ∧
      DisplaySent s t [(false, code)] ∧ t.i = s.i

/-- R110, R103: DISP_PRINT_CHAR sends any byte unchanged (R70) with RS high, and no settle delay follows. -/
def Obligations.DispPrintCharResult : Prop :=
  ∀ (s : State) (code : Byte), s.dispState = .ready →
    ∃ t : State, exec (.dispPrintChar code) s = .next t ∧ t.trace = s.trace ++ xferEvents s true code ∧
      DisplaySent s t [(true, code)] ∧ t.i = s.i

/-- R117, R118: DISP_CLEAR sends clear-display, then return-home, a LONG delay after each. -/
def Obligations.DispClearResult : Prop :=
  ∀ s : State, s.dispState = .ready →
    ∃ t : State, exec .dispClear s = .next t ∧
      t.trace = s.trace ++ xferEvents s false s.params.cmdClear ++ [.d .long] ++ xferEvents s false s.params.cmdReturnHome ++ [.d .long] ∧
      DisplaySent s t [(false, s.params.cmdClear), (false, s.params.cmdReturnHome)] ∧ t.i = s.i

/-- R119: DISP_RETURN_HOME sends return-home only. -/
def Obligations.DispReturnHomeResult : Prop :=
  ∀ s : State, s.dispState = .ready →
    ∃ t : State, exec .dispReturnHome s = .next t ∧ t.trace = s.trace ++ xferEvents s false s.params.cmdReturnHome ∧
      DisplaySent s t [(false, s.params.cmdReturnHome)] ∧ t.i = s.i

/-- R120, R121: DISP_MOVE_CURSOR sends `ROW_BASE[row] | col` in range, and does nothing out of range. -/
def Obligations.DispMoveCursorResult : Prop :=
  ∀ (s : State) (row col : Byte), s.dispState = .ready →
    ∃ t : State, exec (.dispMoveCursor row col) s = .next t ∧ t.i = s.i ∧
      (∀ h : row.toNat < 4, col.toNat < s.params.dispCols →
        t.trace = s.trace ++ xferEvents s false (s.params.rowBase[row.toNat] ||| col) ∧
        DisplaySent s t [(false, s.params.rowBase[row.toNat] ||| col)]) ∧
      (4 ≤ row.toNat ∨ s.params.dispCols ≤ col.toNat → t = { s with seq := .idle, payload := .none })

/-- R127, R128: DISP_PRINT_CHAR_TO positions if it can and sends the character in any case. -/
def Obligations.DispPrintCharToResult : Prop :=
  ∀ (s : State) (row col code : Byte), s.dispState = .ready →
    ∃ t : State, exec (.dispPrintCharTo row col code) s = .next t ∧ t.i = s.i ∧
      (∀ h : row.toNat < 4, col.toNat < s.params.dispCols →
        t.trace = s.trace ++ xferEvents s false (s.params.rowBase[row.toNat] ||| col) ++ xferEvents s true code) ∧
      (4 ≤ row.toNat ∨ s.params.dispCols ≤ col.toNat → t.trace = s.trace ++ xferEvents s true code) ∧
      DisplaySent s t (positionBytes s.params row.toNat col.toNat ++ [(true, code)])

/-- R129, R130, R140: DISP_PRINT_STRING sends the characters before the first 0x00, each from index WRAP_COL
on after a Position(WRAP_ROW, i - WRAP_COL). Where DISP_COLS is above 256, the byte of a Position at a column of 256 or
more is a free value (log 33). -/
def Obligations.DispPrintStringResult : Prop :=
  ∀ (s : State) (text : List Byte), s.dispState = .ready →
    ∃ t : State, exec (.dispPrintString text) s = .next t ∧
      t.trace = s.trace ++ sendEvents s (stringBytesFrom s.params 0 text) ∧
      DisplaySent s t (stringBytesFrom s.params 0 text)

/-- R133: DISP_PRINT_STRING_TO positions once, if it can, then prints the string. -/
def Obligations.DispPrintStringToResult : Prop :=
  ∀ (s : State) (row col : Byte) (text : List Byte), s.dispState = .ready →
    ∃ t : State, exec (.dispPrintStringTo row col text) s = .next t ∧
      t.trace = s.trace ++ sendEvents s (positionBytes s.params row.toNat col.toNat ++ stringBytesFrom s.params 0 text) ∧
      DisplaySent s t (positionBytes s.params row.toNat col.toNat ++ stringBytesFrom s.params 0 text)

/-- R135: DISP_PRINT_NUMBER sends the bytes of Dec(v), with no wrap. -/
def Obligations.DispPrintNumberResult : Prop :=
  ∀ (s : State) (v : Int), s.dispState = .ready →
    ∃ t : State, exec (.dispPrintNumber v) s = .next t ∧
      t.trace = s.trace ++ sendEvents s ((dec v).map fun b => (true, b)) ∧ DisplaySent s t (numberBytes v)

/-- R138: DISP_PRINT_NUMBER_TO positions once, if it can, then prints the number. -/
def Obligations.DispPrintNumberToResult : Prop :=
  ∀ (s : State) (row col : Byte) (v : Int), s.dispState = .ready →
    ∃ t : State, exec (.dispPrintNumberTo row col v) s = .next t ∧
      t.trace = s.trace ++ sendEvents s (positionBytes s.params row.toNat col.toNat ++ numberBytes v) ∧
      DisplaySent s t (positionBytes s.params row.toNat col.toNat ++ numberBytes v)

/-- R143: from a set-up display, what the display receives along a display command is exactly the sequence of
the transfers it sends; along DISP_INIT from whatever levels the pins had (R188). Each clause says it for every pairing
phase, as R184 asks of a display after a reset in mid-transfer: the nibbles received are those of the transfers, paired
from that phase; from the aligned phase of R142 they are the transfers themselves. The view of the bus as a function
outside State is the model's (log 17). -/
def Obligations.DisplayReceivesTheBytesSent : Prop :=
  (∀ (s t : State) (i : Instr), isKeypad i = false → isDispInit i = false → s.dispState = .ready → DispSetUp s →
    exec i s = .next t →
    ∃ events, t.trace = s.trace ++ events ∧ traceBytes (busNow s) events = (bytesSent s.params i).map some ∧
      ∀ phase : Option Nibble, traceBytesFrom phase (busNow s) events =
        pairNibbles phase ((bytesSent s.params i).flatMap sentNibbles)) ∧
  (∀ (s t : State) (cfg : DispCfg), s.dispState = .uninit →
    dispValid s.params.portWidth s.params.sharedDisp cfg = true → exec (.dispInit cfg) s = .next t →
    ∃ events, t.trace = s.trace ++ events ∧
      traceBytes { busNow s with pins := dispConfigOf cfg } events = (bytesSent s.params (.dispInit cfg)).map some ∧
      ∀ phase : Option Nibble, traceBytesFrom phase { busNow s with pins := dispConfigOf cfg } events =
        pairNibbles phase ((bytesSent s.params (.dispInit cfg)).flatMap sentNibbles))

/-- R105: no display command ever drives RW high. -/
def Obligations.ReadWriteLineNeverHigh : Prop :=
  ∀ (s t : State) (i : Instr), isKeypad i = false → exec i s = .next t →
    ∃ events, t.trace = s.trace ++ events ∧ (DispPinsDistinct t → Event.w .dc .out (ctrlPin t 1) true ∉ events)

/-- R134: with the default wrap, for any row bases: the number of events of DISP_PRINT_STRING, and of the
character and positioning transfers it consists of. -/
def Obligations.PrintStringEventCount : Prop :=
  ∀ (s t : State) (text : List Byte), s.dispState = .ready → s.params.wrapCol = 20 → s.params.wrapRow = 1 →
    s.params.dispCols = 20 → exec (.dispPrintString text) s = .next t →
    let n := textLen text
    let sent := stringBytesFrom s.params 0 text
    t.trace = s.trace ++ sendEvents s sent ∧
    (sendEvents s sent).length = (if n ≤ 20 then 18 * n else if n ≤ 40 then 18 * n + 18 * (n - 20) else 18 * n + 360) ∧
    (sent.filter fun x => x.1).length = n ∧ (sent.filter fun x => !x.1).length = min (n - 20) 20

/-- R130: TextLen is the index of the first 0x00, or the length if there is none. -/
def Obligations.TextLenIsFirstZero : Prop :=
  ∀ text : List Byte,
    textLen text ≤ text.length ∧ (∀ j < textLen text, text.getD j 0 ≠ 0) ∧
    (textLen text < text.length → text.getD (textLen text) 1 = 0)

/-- R136: Dec(v) is a '-' exactly for negative v, then decimal digits that stand for |v|, with no leading zero
unless v is 0. -/
def Obligations.DecIsDecimal : Prop :=
  ∀ v : Int, ∃ ds : List Byte, dec v = (if v < 0 then [0x2D] else []) ++ ds ∧
    ds ≠ [] ∧ (∀ d ∈ ds, 0x30 ≤ d.toNat ∧ d.toNat ≤ 0x39) ∧ digitsValue ds = v.natAbs ∧
    (v ≠ 0 → ds.head? ≠ some 0x30) ∧ (v = 0 → ds = [0x30])

/-- R137: the corner values of Dec; 11 bytes is the longest. -/
def Obligations.DecCornerValues : Prop :=
  dec 0 = [0x30] ∧ dec 7 = [0x37] ∧ dec (-1) = [0x2D, 0x31] ∧ dec 10 = [0x31, 0x30] ∧
  dec 2147483647 = [0x32, 0x31, 0x34, 0x37, 0x34, 0x38, 0x33, 0x36, 0x34, 0x37] ∧
  dec (-2147483648) = [0x2D, 0x32, 0x31, 0x34, 0x37, 0x34, 0x38, 0x33, 0x36, 0x34, 0x38] ∧
  ∀ v : Int, inNumRange v = true → (dec v).length ≤ 11

/-- R122: with the default bases the formatter's OR equals addition in rows 0 and 1, and in rows 2 and 3 at
exactly the columns 0 to 3 and 8 to 11; rows 2 and 3 reach eight address bytes each. With other bases it is the OR of
those, for every column that fits the bus byte. -/
def Obligations.AddressFormatterIsOr : Prop :=
  (∀ (p : Params) (row : Fin 4) (col : Nat), col < 256 → addressByte p row col = p.rowBase[row] ||| BitVec.ofNat 8 col) ∧
  (∀ (row : Fin 4) (col : Fin 20),
    addressByte Params.default row col.val = Params.default.rowBase[row] + BitVec.ofNat 8 col.val ↔
      (row.val ≤ 1 ∨ col.val ≤ 3 ∨ (8 ≤ col.val ∧ col.val ≤ 11))) ∧
  (∀ b : Byte, (∃ col : Fin 20, addressByte Params.default 2 col.val = b) ↔
    b ∈ [0x94, 0x95, 0x96, 0x97, 0x9C, 0x9D, 0x9E, 0x9F]) ∧
  (∀ b : Byte, (∃ col : Fin 20, addressByte Params.default 3 col.val = b) ↔
    b ∈ [0xD4, 0xD5, 0xD6, 0xD7, 0xDC, 0xDD, 0xDE, 0xDF])

/-- R69: the classes of the bytes KDB emits of its own accord, with the default parameters. -/
def Obligations.OwnBytesHaveTheirClasses : Prop :=
  Params.default.bootCmds.toList.map busClass =
    [.returnHome, .functionSet false true false, .displayControl true true false, .entryModeSet true false, .clearDisplay] ∧
  busClass Params.default.cmdClear = .clearDisplay ∧ busClass Params.default.cmdReturnHome = .returnHome ∧
  ∀ (row : Fin 4) (col : Fin 20), ∃ a, busClass (addressByte Params.default row col.val) = .setDdramAddr a

/-- R149: a DISP_INIT with the default bootstrap leaves the reference display, whatever state it was in, at its
initial values, with R142's pairing from the aligned phase. The reference display is a function outside State (log 17). -/
def Obligations.ReferenceDisplayAfterInit : Prop :=
  ∀ (s t : State) (cfg : DispCfg) (d : Dev), s.dispState = .uninit → dispValid s.params.portWidth s.params.sharedDisp cfg = true →
    s.params.bootCmds = Params.default.bootCmds → exec (.dispInit cfg) s = .next t →
    ∃ events, t.trace = s.trace ++ events ∧
      devRun d (traceBytes { busNow s with pins := dispConfigOf cfg } events) =
        some { ddram := Vector.replicate 128 0x20, ac := 0, increment := true, shift := false, displayOn := true,
               cursorOn := true, blinkOn := false, eightBit := false, twoLine := true, largeFont := false, target := .ddram }

/-! ## Frames, independence, refinement -/

/-- R20: what a keypad command leaves alone in the next state it answers: all of the display, the parameters,
the host; and the registers of its own ports it does not write. That
KP_DETECT's column is an operand and not the loop register c is the model's reading (log 10). -/
def Obligations.KeypadCommandFrame : Prop :=
  (∀ (s t : State) (i : Instr), isKeypad i = true → exec i s = .next t →
    DisplayKept s t ∧ t.refused = s.refused ∧ t.params = s.params ∧ t.host = s.host ∧ t.hostLog = s.hostLog ∧
    t.kr.pull = s.kr.pull ∧ t.kc.out = s.kc.out) ∧
  (∀ (s t : State), exec .kpRead s = .next t →
    t.kr.dir = s.kr.dir ∧ t.kc = s.kc ∧ t.kpCfg = s.kpCfg ∧ t.kpState = s.kpState ∧
    ∀ n : Pin, (∀ k : Fin 4, n ≠ rowPin s k) → portBit t .kr .out n = portBit s .kr .out n) ∧
  (∀ (s t : State) (col : Byte), exec (.kpDetect col) s = .next t →
    t.kr = s.kr ∧ t.kc = s.kc ∧ t.kpCfg = s.kpCfg ∧ t.kpState = s.kpState ∧ t.keyout = s.keyout ∧
    t.r = s.r ∧ t.k = s.k ∧ t.c = s.c)

/-- R20: what a display command leaves alone in the next state it answers: all of the keypad, the environment,
the parameters, the host, and every port bit but those of the configured display pins. -/
def Obligations.DisplayCommandFrame : Prop :=
  ∀ (s t : State) (i : Instr), isKeypad i = false → exec i s = .next t →
    KeypadKept s t ∧ t.refused = s.refused ∧ t.params = s.params ∧ t.host = s.host ∧ t.hostLog = s.hostLog ∧
    (∀ (p : Port) (n : Pin), portBit t p .pull n = portBit s p .pull n) ∧
    (∀ (p : Port) (reg : Reg) (n : Pin), ¬ BusOutBit t p .out n → portBit t p reg n = portBit s p reg n) ∧
    (isDispInit i = false → t.dispCfg = s.dispCfg ∧ t.dispState = s.dispState ∧
      ∀ (p : Port) (n : Pin), portBit t p .dir n = portBit s p .dir n)

/-- R164, R163: in SINGLE_SAMPLE mode every word the host issues is refused, faults or is completed in the one
step that takes it; every command but KP_READ and KP_DETECT completes or faults so in the other mode too. That this is
one step is the model's granularity (log 1), and the forms of a fault and of a refusal are the model's (log 6, log 7). -/
def Obligations.OnlyDetectionCanHang : Prop :=
  (∀ (s : State) (w : Word) (p : Payload) (rest : List HostAction),
    AcceptsCommand s → s.params.detectMode = .singleSample → s.host = .issue w p :: rest →
    ∃ t : State, step s = .next t ∧
      ((Completed t ∧ t.fault = none ∧ t.refused = none) ∨
       (∃ code, t.fault = some ⟨code, some w⟩ ∧ t.trace = s.trace) ∨ (∃ e, t.refused = some e ∧ t.trace = s.trace))) ∧
  (∀ (s : State) (i : Instr),
    (s.params.detectMode = .singleSample ∨ (i ≠ .kpRead ∧ ∀ col, i ≠ .kpDetect col)) →
    ∃ t : State, exec i s = .next t ∧
      (Completed t ∨ ∃ code, t = { s with fault := some ⟨code, some (encode i)⟩ }))

/-- R7, R30: `exec` is the machine run one micro-step at a time: a command that is issued on an idle, healthy
KDB and passes its checks reaches, after some number of micro-steps, exactly the state `exec` answers. The form of pos
and of a micro-step is the model's (log 1, log 2, log 25). -/
def Obligations.ExecIsMicroSteps : Prop :=
  ∀ (s t : State) (i : Instr), i.wellFormed = true → s.fault = none → s.refused = none →
    exec i s = .next t → t.fault = none →
    ∃ n : Nat, microSteps n (loadCommand s (encode i) (payloadOf i)) = t

/-- R4, R9: a keypad command does to the keypad what it does whatever state the display is in: the same keypad, the
same events, the same fault with its record or none, and it completes or waits at the same place alike. -/
def Obligations.KeypadIgnoresDisplay : Prop :=
  ∀ (a b a' : State) (i : Instr), isKeypad i = true → SameKeypadPart a b → exec i a = .next a' →
    ∃ b' : State, exec i b = .next b' ∧ SameKeypadPart a' b' ∧ SameOutcome i a b a' b' ∧
      ∃ events, a'.trace = a.trace ++ events ∧ b'.trace = b.trace ++ events

/-- R4, R9: a display command does to the display what it does whatever state the keypad and the keys are in: the same
display, the same events, the same fault with its record or none, and it completes alike. -/
def Obligations.DisplayIgnoresKeypad : Prop :=
  ∀ (a b a' : State) (i : Instr), isKeypad i = false → SameDisplayPart a b → exec i a = .next a' →
    ∃ b' : State, exec i b = .next b' ∧ SameDisplayPart a' b' ∧ SameOutcome i a b a' b' ∧
      ∃ events, a'.trace = a.trace ++ events ∧ b'.trace = b.trace ++ events
end

