-- ==== Sys2Proof/Laws/State.lean ====
section
/-! SUPPORT. What each named update leaves in each field of State: one lemma per field per update. -/

namespace Sys2Proof.Machine

@[simp] theorem emit_kr (s : State) (e : Event) : (emit s e).kr = s.kr := rfl
@[simp] theorem emit_kc (s : State) (e : Event) : (emit s e).kc = s.kc := rfl
@[simp] theorem emit_dd (s : State) (e : Event) : (emit s e).dd = s.dd := rfl
@[simp] theorem emit_dc (s : State) (e : Event) : (emit s e).dc = s.dc := rfl
@[simp] theorem emit_kpCfg (s : State) (e : Event) : (emit s e).kpCfg = s.kpCfg := rfl
@[simp] theorem emit_dispCfg (s : State) (e : Event) : (emit s e).dispCfg = s.dispCfg := rfl
@[simp] theorem emit_kpState (s : State) (e : Event) : (emit s e).kpState = s.kpState := rfl
@[simp] theorem emit_dispState (s : State) (e : Event) : (emit s e).dispState = s.dispState := rfl
@[simp] theorem emit_keyout (s : State) (e : Event) : (emit s e).keyout = s.keyout := rfl
@[simp] theorem emit_pressed (s : State) (e : Event) : (emit s e).pressed = s.pressed := rfl
@[simp] theorem emit_dl (s : State) (e : Event) : (emit s e).dl = s.dl := rfl
@[simp] theorem emit_rsl (s : State) (e : Event) : (emit s e).rsl = s.rsl := rfl
@[simp] theorem emit_seq (s : State) (e : Event) : (emit s e).seq = s.seq := rfl
@[simp] theorem emit_r (s : State) (e : Event) : (emit s e).r = s.r := rfl
@[simp] theorem emit_k (s : State) (e : Event) : (emit s e).k = s.k := rfl
@[simp] theorem emit_c (s : State) (e : Event) : (emit s e).c = s.c := rfl
@[simp] theorem emit_i (s : State) (e : Event) : (emit s e).i = s.i := rfl
@[simp] theorem emit_payload (s : State) (e : Event) : (emit s e).payload = s.payload := rfl
@[simp] theorem emit_fault (s : State) (e : Event) : (emit s e).fault = s.fault := rfl
@[simp] theorem emit_refused (s : State) (e : Event) : (emit s e).refused = s.refused := rfl
@[simp] theorem emit_trace (s : State) (e : Event) : (emit s e).trace = s.trace ++ [e] := rfl
@[simp] theorem emit_params (s : State) (e : Event) : (emit s e).params = s.params := rfl
@[simp] theorem emit_host (s : State) (e : Event) : (emit s e).host = s.host := rfl
@[simp] theorem emit_hostLog (s : State) (e : Event) : (emit s e).hostLog = s.hostLog := rfl
@[simp] theorem emit_env (s : State) (e : Event) : (emit s e).env = s.env := rfl
@[simp] theorem emit_drawCount (s : State) (e : Event) : (emit s e).drawCount = s.drawCount := rfl

@[simp] theorem putPort_kpCfg (s : State) (p : Port) (x : PortRegs) : (putPort s p x).kpCfg = s.kpCfg := by unfold putPort; split <;> rfl
@[simp] theorem putPort_dispCfg (s : State) (p : Port) (x : PortRegs) : (putPort s p x).dispCfg = s.dispCfg := by unfold putPort; split <;> rfl
@[simp] theorem putPort_kpState (s : State) (p : Port) (x : PortRegs) : (putPort s p x).kpState = s.kpState := by unfold putPort; split <;> rfl
@[simp] theorem putPort_dispState (s : State) (p : Port) (x : PortRegs) : (putPort s p x).dispState = s.dispState := by unfold putPort; split <;> rfl
@[simp] theorem putPort_keyout (s : State) (p : Port) (x : PortRegs) : (putPort s p x).keyout = s.keyout := by unfold putPort; split <;> rfl
@[simp] theorem putPort_pressed (s : State) (p : Port) (x : PortRegs) : (putPort s p x).pressed = s.pressed := by unfold putPort; split <;> rfl
@[simp] theorem putPort_dl (s : State) (p : Port) (x : PortRegs) : (putPort s p x).dl = s.dl := by unfold putPort; split <;> rfl
@[simp] theorem putPort_rsl (s : State) (p : Port) (x : PortRegs) : (putPort s p x).rsl = s.rsl := by unfold putPort; split <;> rfl
@[simp] theorem putPort_seq (s : State) (p : Port) (x : PortRegs) : (putPort s p x).seq = s.seq := by unfold putPort; split <;> rfl
@[simp] theorem putPort_r (s : State) (p : Port) (x : PortRegs) : (putPort s p x).r = s.r := by unfold putPort; split <;> rfl
@[simp] theorem putPort_k (s : State) (p : Port) (x : PortRegs) : (putPort s p x).k = s.k := by unfold putPort; split <;> rfl
@[simp] theorem putPort_c (s : State) (p : Port) (x : PortRegs) : (putPort s p x).c = s.c := by unfold putPort; split <;> rfl
@[simp] theorem putPort_i (s : State) (p : Port) (x : PortRegs) : (putPort s p x).i = s.i := by unfold putPort; split <;> rfl
@[simp] theorem putPort_payload (s : State) (p : Port) (x : PortRegs) : (putPort s p x).payload = s.payload := by unfold putPort; split <;> rfl
@[simp] theorem putPort_fault (s : State) (p : Port) (x : PortRegs) : (putPort s p x).fault = s.fault := by unfold putPort; split <;> rfl
@[simp] theorem putPort_refused (s : State) (p : Port) (x : PortRegs) : (putPort s p x).refused = s.refused := by unfold putPort; split <;> rfl
@[simp] theorem putPort_trace (s : State) (p : Port) (x : PortRegs) : (putPort s p x).trace = s.trace := by unfold putPort; split <;> rfl
@[simp] theorem putPort_params (s : State) (p : Port) (x : PortRegs) : (putPort s p x).params = s.params := by unfold putPort; split <;> rfl
@[simp] theorem putPort_host (s : State) (p : Port) (x : PortRegs) : (putPort s p x).host = s.host := by unfold putPort; split <;> rfl
@[simp] theorem putPort_hostLog (s : State) (p : Port) (x : PortRegs) : (putPort s p x).hostLog = s.hostLog := by unfold putPort; split <;> rfl
@[simp] theorem putPort_env (s : State) (p : Port) (x : PortRegs) : (putPort s p x).env = s.env := by unfold putPort; split <;> rfl
@[simp] theorem putPort_drawCount (s : State) (p : Port) (x : PortRegs) : (putPort s p x).drawCount = s.drawCount := by unfold putPort; split <;> rfl

@[simp] theorem pinWrite_kpCfg (s : State) (p : Port) (reg : Reg) (n : Pin) (v : Level) : (pinWrite s p reg n v).kpCfg = s.kpCfg := by simp [pinWrite]
@[simp] theorem pinWrite_dispCfg (s : State) (p : Port) (reg : Reg) (n : Pin) (v : Level) : (pinWrite s p reg n v).dispCfg = s.dispCfg := by simp [pinWrite]
@[simp] theorem pinWrite_kpState (s : State) (p : Port) (reg : Reg) (n : Pin) (v : Level) : (pinWrite s p reg n v).kpState = s.kpState := by simp [pinWrite]
@[simp] theorem pinWrite_dispState (s : State) (p : Port) (reg : Reg) (n : Pin) (v : Level) : (pinWrite s p reg n v).dispState = s.dispState := by simp [pinWrite]
@[simp] theorem pinWrite_keyout (s : State) (p : Port) (reg : Reg) (n : Pin) (v : Level) : (pinWrite s p reg n v).keyout = s.keyout := by simp [pinWrite]
@[simp] theorem pinWrite_pressed (s : State) (p : Port) (reg : Reg) (n : Pin) (v : Level) : (pinWrite s p reg n v).pressed = s.pressed := by simp [pinWrite]
@[simp] theorem pinWrite_dl (s : State) (p : Port) (reg : Reg) (n : Pin) (v : Level) : (pinWrite s p reg n v).dl = s.dl := by simp [pinWrite]
@[simp] theorem pinWrite_rsl (s : State) (p : Port) (reg : Reg) (n : Pin) (v : Level) : (pinWrite s p reg n v).rsl = s.rsl := by simp [pinWrite]
@[simp] theorem pinWrite_seq (s : State) (p : Port) (reg : Reg) (n : Pin) (v : Level) : (pinWrite s p reg n v).seq = s.seq := by simp [pinWrite]
@[simp] theorem pinWrite_r (s : State) (p : Port) (reg : Reg) (n : Pin) (v : Level) : (pinWrite s p reg n v).r = s.r := by simp [pinWrite]
@[simp] theorem pinWrite_k (s : State) (p : Port) (reg : Reg) (n : Pin) (v : Level) : (pinWrite s p reg n v).k = s.k := by simp [pinWrite]
@[simp] theorem pinWrite_c (s : State) (p : Port) (reg : Reg) (n : Pin) (v : Level) : (pinWrite s p reg n v).c = s.c := by simp [pinWrite]
@[simp] theorem pinWrite_i (s : State) (p : Port) (reg : Reg) (n : Pin) (v : Level) : (pinWrite s p reg n v).i = s.i := by simp [pinWrite]
@[simp] theorem pinWrite_payload (s : State) (p : Port) (reg : Reg) (n : Pin) (v : Level) : (pinWrite s p reg n v).payload = s.payload := by simp [pinWrite]
@[simp] theorem pinWrite_fault (s : State) (p : Port) (reg : Reg) (n : Pin) (v : Level) : (pinWrite s p reg n v).fault = s.fault := by simp [pinWrite]
@[simp] theorem pinWrite_refused (s : State) (p : Port) (reg : Reg) (n : Pin) (v : Level) : (pinWrite s p reg n v).refused = s.refused := by simp [pinWrite]
@[simp] theorem pinWrite_trace (s : State) (p : Port) (reg : Reg) (n : Pin) (v : Level) : (pinWrite s p reg n v).trace = s.trace ++ [.w p reg n v] := by simp [pinWrite]
@[simp] theorem pinWrite_params (s : State) (p : Port) (reg : Reg) (n : Pin) (v : Level) : (pinWrite s p reg n v).params = s.params := by simp [pinWrite]
@[simp] theorem pinWrite_host (s : State) (p : Port) (reg : Reg) (n : Pin) (v : Level) : (pinWrite s p reg n v).host = s.host := by simp [pinWrite]
@[simp] theorem pinWrite_hostLog (s : State) (p : Port) (reg : Reg) (n : Pin) (v : Level) : (pinWrite s p reg n v).hostLog = s.hostLog := by simp [pinWrite]
@[simp] theorem pinWrite_env (s : State) (p : Port) (reg : Reg) (n : Pin) (v : Level) : (pinWrite s p reg n v).env = s.env := by simp [pinWrite]
@[simp] theorem pinWrite_drawCount (s : State) (p : Port) (reg : Reg) (n : Pin) (v : Level) : (pinWrite s p reg n v).drawCount = s.drawCount := by simp [pinWrite]

@[simp] theorem delay_kr (s : State) (kind : DelayKind) : (delay s kind).kr = s.kr := rfl
@[simp] theorem delay_kc (s : State) (kind : DelayKind) : (delay s kind).kc = s.kc := rfl
@[simp] theorem delay_dd (s : State) (kind : DelayKind) : (delay s kind).dd = s.dd := rfl
@[simp] theorem delay_dc (s : State) (kind : DelayKind) : (delay s kind).dc = s.dc := rfl
@[simp] theorem delay_kpCfg (s : State) (kind : DelayKind) : (delay s kind).kpCfg = s.kpCfg := rfl
@[simp] theorem delay_dispCfg (s : State) (kind : DelayKind) : (delay s kind).dispCfg = s.dispCfg := rfl
@[simp] theorem delay_kpState (s : State) (kind : DelayKind) : (delay s kind).kpState = s.kpState := rfl
@[simp] theorem delay_dispState (s : State) (kind : DelayKind) : (delay s kind).dispState = s.dispState := rfl
@[simp] theorem delay_keyout (s : State) (kind : DelayKind) : (delay s kind).keyout = s.keyout := rfl
@[simp] theorem delay_pressed (s : State) (kind : DelayKind) : (delay s kind).pressed = s.pressed := rfl
@[simp] theorem delay_dl (s : State) (kind : DelayKind) : (delay s kind).dl = s.dl := rfl
@[simp] theorem delay_rsl (s : State) (kind : DelayKind) : (delay s kind).rsl = s.rsl := rfl
@[simp] theorem delay_seq (s : State) (kind : DelayKind) : (delay s kind).seq = s.seq := rfl
@[simp] theorem delay_r (s : State) (kind : DelayKind) : (delay s kind).r = s.r := rfl
@[simp] theorem delay_k (s : State) (kind : DelayKind) : (delay s kind).k = s.k := rfl
@[simp] theorem delay_c (s : State) (kind : DelayKind) : (delay s kind).c = s.c := rfl
@[simp] theorem delay_i (s : State) (kind : DelayKind) : (delay s kind).i = s.i := rfl
@[simp] theorem delay_payload (s : State) (kind : DelayKind) : (delay s kind).payload = s.payload := rfl
@[simp] theorem delay_fault (s : State) (kind : DelayKind) : (delay s kind).fault = s.fault := rfl
@[simp] theorem delay_refused (s : State) (kind : DelayKind) : (delay s kind).refused = s.refused := rfl
@[simp] theorem delay_trace (s : State) (kind : DelayKind) : (delay s kind).trace = s.trace ++ [.d kind] := rfl
@[simp] theorem delay_params (s : State) (kind : DelayKind) : (delay s kind).params = s.params := rfl
@[simp] theorem delay_host (s : State) (kind : DelayKind) : (delay s kind).host = s.host := rfl
@[simp] theorem delay_hostLog (s : State) (kind : DelayKind) : (delay s kind).hostLog = s.hostLog := rfl
@[simp] theorem delay_env (s : State) (kind : DelayKind) : (delay s kind).env = s.env := rfl
@[simp] theorem delay_drawCount (s : State) (kind : DelayKind) : (delay s kind).drawCount = s.drawCount := rfl

@[simp] theorem setLatch_kr (s : State) (rs : Level) (b : Byte) : (setLatch s rs b).kr = s.kr := rfl
@[simp] theorem setLatch_kc (s : State) (rs : Level) (b : Byte) : (setLatch s rs b).kc = s.kc := rfl
@[simp] theorem setLatch_dd (s : State) (rs : Level) (b : Byte) : (setLatch s rs b).dd = s.dd := rfl
@[simp] theorem setLatch_dc (s : State) (rs : Level) (b : Byte) : (setLatch s rs b).dc = s.dc := rfl
@[simp] theorem setLatch_kpCfg (s : State) (rs : Level) (b : Byte) : (setLatch s rs b).kpCfg = s.kpCfg := rfl
@[simp] theorem setLatch_dispCfg (s : State) (rs : Level) (b : Byte) : (setLatch s rs b).dispCfg = s.dispCfg := rfl
@[simp] theorem setLatch_kpState (s : State) (rs : Level) (b : Byte) : (setLatch s rs b).kpState = s.kpState := rfl
@[simp] theorem setLatch_dispState (s : State) (rs : Level) (b : Byte) : (setLatch s rs b).dispState = s.dispState := rfl
@[simp] theorem setLatch_keyout (s : State) (rs : Level) (b : Byte) : (setLatch s rs b).keyout = s.keyout := rfl
@[simp] theorem setLatch_pressed (s : State) (rs : Level) (b : Byte) : (setLatch s rs b).pressed = s.pressed := rfl
@[simp] theorem setLatch_dl (s : State) (rs : Level) (b : Byte) : (setLatch s rs b).dl = b := rfl
@[simp] theorem setLatch_rsl (s : State) (rs : Level) (b : Byte) : (setLatch s rs b).rsl = rs := rfl
@[simp] theorem setLatch_seq (s : State) (rs : Level) (b : Byte) : (setLatch s rs b).seq = s.seq := rfl
@[simp] theorem setLatch_r (s : State) (rs : Level) (b : Byte) : (setLatch s rs b).r = s.r := rfl
@[simp] theorem setLatch_k (s : State) (rs : Level) (b : Byte) : (setLatch s rs b).k = s.k := rfl
@[simp] theorem setLatch_c (s : State) (rs : Level) (b : Byte) : (setLatch s rs b).c = s.c := rfl
@[simp] theorem setLatch_i (s : State) (rs : Level) (b : Byte) : (setLatch s rs b).i = s.i := rfl
@[simp] theorem setLatch_payload (s : State) (rs : Level) (b : Byte) : (setLatch s rs b).payload = s.payload := rfl
@[simp] theorem setLatch_fault (s : State) (rs : Level) (b : Byte) : (setLatch s rs b).fault = s.fault := rfl
@[simp] theorem setLatch_refused (s : State) (rs : Level) (b : Byte) : (setLatch s rs b).refused = s.refused := rfl
@[simp] theorem setLatch_trace (s : State) (rs : Level) (b : Byte) : (setLatch s rs b).trace = s.trace := rfl
@[simp] theorem setLatch_params (s : State) (rs : Level) (b : Byte) : (setLatch s rs b).params = s.params := rfl
@[simp] theorem setLatch_host (s : State) (rs : Level) (b : Byte) : (setLatch s rs b).host = s.host := rfl
@[simp] theorem setLatch_hostLog (s : State) (rs : Level) (b : Byte) : (setLatch s rs b).hostLog = s.hostLog := rfl
@[simp] theorem setLatch_env (s : State) (rs : Level) (b : Byte) : (setLatch s rs b).env = s.env := rfl
@[simp] theorem setLatch_drawCount (s : State) (rs : Level) (b : Byte) : (setLatch s rs b).drawCount = s.drawCount := rfl

@[simp] theorem setPressed_kr (s : State) (v : Level) : (setPressed s v).kr = s.kr := rfl
@[simp] theorem setPressed_kc (s : State) (v : Level) : (setPressed s v).kc = s.kc := rfl
@[simp] theorem setPressed_dd (s : State) (v : Level) : (setPressed s v).dd = s.dd := rfl
@[simp] theorem setPressed_dc (s : State) (v : Level) : (setPressed s v).dc = s.dc := rfl
@[simp] theorem setPressed_kpCfg (s : State) (v : Level) : (setPressed s v).kpCfg = s.kpCfg := rfl
@[simp] theorem setPressed_dispCfg (s : State) (v : Level) : (setPressed s v).dispCfg = s.dispCfg := rfl
@[simp] theorem setPressed_kpState (s : State) (v : Level) : (setPressed s v).kpState = s.kpState := rfl
@[simp] theorem setPressed_dispState (s : State) (v : Level) : (setPressed s v).dispState = s.dispState := rfl
@[simp] theorem setPressed_keyout (s : State) (v : Level) : (setPressed s v).keyout = s.keyout := rfl
@[simp] theorem setPressed_pressed (s : State) (v : Level) : (setPressed s v).pressed = some v := rfl
@[simp] theorem setPressed_dl (s : State) (v : Level) : (setPressed s v).dl = s.dl := rfl
@[simp] theorem setPressed_rsl (s : State) (v : Level) : (setPressed s v).rsl = s.rsl := rfl
@[simp] theorem setPressed_seq (s : State) (v : Level) : (setPressed s v).seq = s.seq := rfl
@[simp] theorem setPressed_r (s : State) (v : Level) : (setPressed s v).r = s.r := rfl
@[simp] theorem setPressed_k (s : State) (v : Level) : (setPressed s v).k = s.k := rfl
@[simp] theorem setPressed_c (s : State) (v : Level) : (setPressed s v).c = s.c := rfl
@[simp] theorem setPressed_i (s : State) (v : Level) : (setPressed s v).i = s.i := rfl
@[simp] theorem setPressed_payload (s : State) (v : Level) : (setPressed s v).payload = s.payload := rfl
@[simp] theorem setPressed_fault (s : State) (v : Level) : (setPressed s v).fault = s.fault := rfl
@[simp] theorem setPressed_refused (s : State) (v : Level) : (setPressed s v).refused = s.refused := rfl
@[simp] theorem setPressed_trace (s : State) (v : Level) : (setPressed s v).trace = s.trace := rfl
@[simp] theorem setPressed_params (s : State) (v : Level) : (setPressed s v).params = s.params := rfl
@[simp] theorem setPressed_host (s : State) (v : Level) : (setPressed s v).host = s.host := rfl
@[simp] theorem setPressed_hostLog (s : State) (v : Level) : (setPressed s v).hostLog = s.hostLog := rfl
@[simp] theorem setPressed_env (s : State) (v : Level) : (setPressed s v).env = s.env := rfl
@[simp] theorem setPressed_drawCount (s : State) (v : Level) : (setPressed s v).drawCount = s.drawCount := rfl

@[simp] theorem afterSample_kr (s : State) (col : Fin 6) : (afterSample s col).kr = s.kr := rfl
@[simp] theorem afterSample_kc (s : State) (col : Fin 6) : (afterSample s col).kc = s.kc := rfl
@[simp] theorem afterSample_dd (s : State) (col : Fin 6) : (afterSample s col).dd = s.dd := rfl
@[simp] theorem afterSample_dc (s : State) (col : Fin 6) : (afterSample s col).dc = s.dc := rfl
@[simp] theorem afterSample_kpCfg (s : State) (col : Fin 6) : (afterSample s col).kpCfg = s.kpCfg := rfl
@[simp] theorem afterSample_dispCfg (s : State) (col : Fin 6) : (afterSample s col).dispCfg = s.dispCfg := rfl
@[simp] theorem afterSample_kpState (s : State) (col : Fin 6) : (afterSample s col).kpState = s.kpState := rfl
@[simp] theorem afterSample_dispState (s : State) (col : Fin 6) : (afterSample s col).dispState = s.dispState := rfl
@[simp] theorem afterSample_keyout (s : State) (col : Fin 6) : (afterSample s col).keyout = s.keyout := rfl
@[simp] theorem afterSample_pressed (s : State) (col : Fin 6) : (afterSample s col).pressed = s.pressed := rfl
@[simp] theorem afterSample_dl (s : State) (col : Fin 6) : (afterSample s col).dl = s.dl := rfl
@[simp] theorem afterSample_rsl (s : State) (col : Fin 6) : (afterSample s col).rsl = s.rsl := rfl
@[simp] theorem afterSample_seq (s : State) (col : Fin 6) : (afterSample s col).seq = s.seq := rfl
@[simp] theorem afterSample_r (s : State) (col : Fin 6) : (afterSample s col).r = s.r := rfl
@[simp] theorem afterSample_k (s : State) (col : Fin 6) : (afterSample s col).k = s.k := rfl
@[simp] theorem afterSample_c (s : State) (col : Fin 6) : (afterSample s col).c = s.c := rfl
@[simp] theorem afterSample_i (s : State) (col : Fin 6) : (afterSample s col).i = s.i := rfl
@[simp] theorem afterSample_payload (s : State) (col : Fin 6) : (afterSample s col).payload = s.payload := rfl
@[simp] theorem afterSample_fault (s : State) (col : Fin 6) : (afterSample s col).fault = s.fault := rfl
@[simp] theorem afterSample_refused (s : State) (col : Fin 6) : (afterSample s col).refused = s.refused := rfl
@[simp] theorem afterSample_trace (s : State) (col : Fin 6) : (afterSample s col).trace = s.trace ++ [.s .kc (colPin s col) (sampleValue s col)] := rfl
@[simp] theorem afterSample_params (s : State) (col : Fin 6) : (afterSample s col).params = s.params := rfl
@[simp] theorem afterSample_host (s : State) (col : Fin 6) : (afterSample s col).host = s.host := rfl
@[simp] theorem afterSample_hostLog (s : State) (col : Fin 6) : (afterSample s col).hostLog = s.hostLog := rfl
@[simp] theorem afterSample_env (s : State) (col : Fin 6) : (afterSample s col).env = (drawSample s col).2.1 := rfl
@[simp] theorem afterSample_drawCount (s : State) (col : Fin 6) : (afterSample s col).drawCount = (drawSample s col).2.2 := rfl

@[simp] theorem writeKeyout_kr (s : State) (v : Byte) : (writeKeyout s v).kr = s.kr := rfl
@[simp] theorem writeKeyout_kc (s : State) (v : Byte) : (writeKeyout s v).kc = s.kc := rfl
@[simp] theorem writeKeyout_dd (s : State) (v : Byte) : (writeKeyout s v).dd = s.dd := rfl
@[simp] theorem writeKeyout_dc (s : State) (v : Byte) : (writeKeyout s v).dc = s.dc := rfl
@[simp] theorem writeKeyout_kpCfg (s : State) (v : Byte) : (writeKeyout s v).kpCfg = s.kpCfg := rfl
@[simp] theorem writeKeyout_dispCfg (s : State) (v : Byte) : (writeKeyout s v).dispCfg = s.dispCfg := rfl
@[simp] theorem writeKeyout_kpState (s : State) (v : Byte) : (writeKeyout s v).kpState = s.kpState := rfl
@[simp] theorem writeKeyout_dispState (s : State) (v : Byte) : (writeKeyout s v).dispState = s.dispState := rfl
@[simp] theorem writeKeyout_keyout (s : State) (v : Byte) : (writeKeyout s v).keyout = some v := rfl
@[simp] theorem writeKeyout_pressed (s : State) (v : Byte) : (writeKeyout s v).pressed = s.pressed := rfl
@[simp] theorem writeKeyout_dl (s : State) (v : Byte) : (writeKeyout s v).dl = s.dl := rfl
@[simp] theorem writeKeyout_rsl (s : State) (v : Byte) : (writeKeyout s v).rsl = s.rsl := rfl
@[simp] theorem writeKeyout_seq (s : State) (v : Byte) : (writeKeyout s v).seq = s.seq := rfl
@[simp] theorem writeKeyout_r (s : State) (v : Byte) : (writeKeyout s v).r = s.r := rfl
@[simp] theorem writeKeyout_k (s : State) (v : Byte) : (writeKeyout s v).k = s.k := rfl
@[simp] theorem writeKeyout_c (s : State) (v : Byte) : (writeKeyout s v).c = s.c := rfl
@[simp] theorem writeKeyout_i (s : State) (v : Byte) : (writeKeyout s v).i = s.i := rfl
@[simp] theorem writeKeyout_payload (s : State) (v : Byte) : (writeKeyout s v).payload = s.payload := rfl
@[simp] theorem writeKeyout_fault (s : State) (v : Byte) : (writeKeyout s v).fault = s.fault := rfl
@[simp] theorem writeKeyout_refused (s : State) (v : Byte) : (writeKeyout s v).refused = s.refused := rfl
@[simp] theorem writeKeyout_trace (s : State) (v : Byte) : (writeKeyout s v).trace = s.trace ++ [.k v] := rfl
@[simp] theorem writeKeyout_params (s : State) (v : Byte) : (writeKeyout s v).params = s.params := rfl
@[simp] theorem writeKeyout_host (s : State) (v : Byte) : (writeKeyout s v).host = s.host := rfl
@[simp] theorem writeKeyout_hostLog (s : State) (v : Byte) : (writeKeyout s v).hostLog = s.hostLog := rfl
@[simp] theorem writeKeyout_env (s : State) (v : Byte) : (writeKeyout s v).env = s.env := rfl
@[simp] theorem writeKeyout_drawCount (s : State) (v : Byte) : (writeKeyout s v).drawCount = s.drawCount := rfl

@[simp] theorem raiseFault_kr (s : State) (code : FaultCode) (w : Option Word) : (raiseFault s code w).kr = s.kr := rfl
@[simp] theorem raiseFault_kc (s : State) (code : FaultCode) (w : Option Word) : (raiseFault s code w).kc = s.kc := rfl
@[simp] theorem raiseFault_dd (s : State) (code : FaultCode) (w : Option Word) : (raiseFault s code w).dd = s.dd := rfl
@[simp] theorem raiseFault_dc (s : State) (code : FaultCode) (w : Option Word) : (raiseFault s code w).dc = s.dc := rfl
@[simp] theorem raiseFault_kpCfg (s : State) (code : FaultCode) (w : Option Word) : (raiseFault s code w).kpCfg = s.kpCfg := rfl
@[simp] theorem raiseFault_dispCfg (s : State) (code : FaultCode) (w : Option Word) : (raiseFault s code w).dispCfg = s.dispCfg := rfl
@[simp] theorem raiseFault_kpState (s : State) (code : FaultCode) (w : Option Word) : (raiseFault s code w).kpState = s.kpState := rfl
@[simp] theorem raiseFault_dispState (s : State) (code : FaultCode) (w : Option Word) : (raiseFault s code w).dispState = s.dispState := rfl
@[simp] theorem raiseFault_keyout (s : State) (code : FaultCode) (w : Option Word) : (raiseFault s code w).keyout = s.keyout := rfl
@[simp] theorem raiseFault_pressed (s : State) (code : FaultCode) (w : Option Word) : (raiseFault s code w).pressed = s.pressed := rfl
@[simp] theorem raiseFault_dl (s : State) (code : FaultCode) (w : Option Word) : (raiseFault s code w).dl = s.dl := rfl
@[simp] theorem raiseFault_rsl (s : State) (code : FaultCode) (w : Option Word) : (raiseFault s code w).rsl = s.rsl := rfl
@[simp] theorem raiseFault_seq (s : State) (code : FaultCode) (w : Option Word) : (raiseFault s code w).seq = s.seq := rfl
@[simp] theorem raiseFault_r (s : State) (code : FaultCode) (w : Option Word) : (raiseFault s code w).r = s.r := rfl
@[simp] theorem raiseFault_k (s : State) (code : FaultCode) (w : Option Word) : (raiseFault s code w).k = s.k := rfl
@[simp] theorem raiseFault_c (s : State) (code : FaultCode) (w : Option Word) : (raiseFault s code w).c = s.c := rfl
@[simp] theorem raiseFault_i (s : State) (code : FaultCode) (w : Option Word) : (raiseFault s code w).i = s.i := rfl
@[simp] theorem raiseFault_payload (s : State) (code : FaultCode) (w : Option Word) : (raiseFault s code w).payload = s.payload := rfl
@[simp] theorem raiseFault_fault (s : State) (code : FaultCode) (w : Option Word) : (raiseFault s code w).fault = some { code := code, cmdword := w } := rfl
@[simp] theorem raiseFault_refused (s : State) (code : FaultCode) (w : Option Word) : (raiseFault s code w).refused = s.refused := rfl
@[simp] theorem raiseFault_trace (s : State) (code : FaultCode) (w : Option Word) : (raiseFault s code w).trace = s.trace := rfl
@[simp] theorem raiseFault_params (s : State) (code : FaultCode) (w : Option Word) : (raiseFault s code w).params = s.params := rfl
@[simp] theorem raiseFault_host (s : State) (code : FaultCode) (w : Option Word) : (raiseFault s code w).host = s.host := rfl
@[simp] theorem raiseFault_hostLog (s : State) (code : FaultCode) (w : Option Word) : (raiseFault s code w).hostLog = s.hostLog := rfl
@[simp] theorem raiseFault_env (s : State) (code : FaultCode) (w : Option Word) : (raiseFault s code w).env = s.env := rfl
@[simp] theorem raiseFault_drawCount (s : State) (code : FaultCode) (w : Option Word) : (raiseFault s code w).drawCount = s.drawCount := rfl

@[simp] theorem refuse_kr (s : State) (reason : Illegal) : (refuse s reason).kr = s.kr := rfl
@[simp] theorem refuse_kc (s : State) (reason : Illegal) : (refuse s reason).kc = s.kc := rfl
@[simp] theorem refuse_dd (s : State) (reason : Illegal) : (refuse s reason).dd = s.dd := rfl
@[simp] theorem refuse_dc (s : State) (reason : Illegal) : (refuse s reason).dc = s.dc := rfl
@[simp] theorem refuse_kpCfg (s : State) (reason : Illegal) : (refuse s reason).kpCfg = s.kpCfg := rfl
@[simp] theorem refuse_dispCfg (s : State) (reason : Illegal) : (refuse s reason).dispCfg = s.dispCfg := rfl
@[simp] theorem refuse_kpState (s : State) (reason : Illegal) : (refuse s reason).kpState = s.kpState := rfl
@[simp] theorem refuse_dispState (s : State) (reason : Illegal) : (refuse s reason).dispState = s.dispState := rfl
@[simp] theorem refuse_keyout (s : State) (reason : Illegal) : (refuse s reason).keyout = s.keyout := rfl
@[simp] theorem refuse_pressed (s : State) (reason : Illegal) : (refuse s reason).pressed = s.pressed := rfl
@[simp] theorem refuse_dl (s : State) (reason : Illegal) : (refuse s reason).dl = s.dl := rfl
@[simp] theorem refuse_rsl (s : State) (reason : Illegal) : (refuse s reason).rsl = s.rsl := rfl
@[simp] theorem refuse_seq (s : State) (reason : Illegal) : (refuse s reason).seq = s.seq := rfl
@[simp] theorem refuse_r (s : State) (reason : Illegal) : (refuse s reason).r = s.r := rfl
@[simp] theorem refuse_k (s : State) (reason : Illegal) : (refuse s reason).k = s.k := rfl
@[simp] theorem refuse_c (s : State) (reason : Illegal) : (refuse s reason).c = s.c := rfl
@[simp] theorem refuse_i (s : State) (reason : Illegal) : (refuse s reason).i = s.i := rfl
@[simp] theorem refuse_payload (s : State) (reason : Illegal) : (refuse s reason).payload = s.payload := rfl
@[simp] theorem refuse_fault (s : State) (reason : Illegal) : (refuse s reason).fault = s.fault := rfl
@[simp] theorem refuse_refused (s : State) (reason : Illegal) : (refuse s reason).refused = some reason := rfl
@[simp] theorem refuse_trace (s : State) (reason : Illegal) : (refuse s reason).trace = s.trace := rfl
@[simp] theorem refuse_params (s : State) (reason : Illegal) : (refuse s reason).params = s.params := rfl
@[simp] theorem refuse_host (s : State) (reason : Illegal) : (refuse s reason).host = s.host := rfl
@[simp] theorem refuse_hostLog (s : State) (reason : Illegal) : (refuse s reason).hostLog = s.hostLog := rfl
@[simp] theorem refuse_env (s : State) (reason : Illegal) : (refuse s reason).env = s.env := rfl
@[simp] theorem refuse_drawCount (s : State) (reason : Illegal) : (refuse s reason).drawCount = s.drawCount := rfl

@[simp] theorem complete_kr (s : State) : (complete s).kr = s.kr := rfl
@[simp] theorem complete_kc (s : State) : (complete s).kc = s.kc := rfl
@[simp] theorem complete_dd (s : State) : (complete s).dd = s.dd := rfl
@[simp] theorem complete_dc (s : State) : (complete s).dc = s.dc := rfl
@[simp] theorem complete_kpCfg (s : State) : (complete s).kpCfg = s.kpCfg := rfl
@[simp] theorem complete_dispCfg (s : State) : (complete s).dispCfg = s.dispCfg := rfl
@[simp] theorem complete_kpState (s : State) : (complete s).kpState = s.kpState := rfl
@[simp] theorem complete_dispState (s : State) : (complete s).dispState = s.dispState := rfl
@[simp] theorem complete_keyout (s : State) : (complete s).keyout = s.keyout := rfl
@[simp] theorem complete_pressed (s : State) : (complete s).pressed = s.pressed := rfl
@[simp] theorem complete_dl (s : State) : (complete s).dl = s.dl := rfl
@[simp] theorem complete_rsl (s : State) : (complete s).rsl = s.rsl := rfl
@[simp] theorem complete_seq (s : State) : (complete s).seq = .idle := rfl
@[simp] theorem complete_r (s : State) : (complete s).r = s.r := rfl
@[simp] theorem complete_k (s : State) : (complete s).k = s.k := rfl
@[simp] theorem complete_c (s : State) : (complete s).c = s.c := rfl
@[simp] theorem complete_i (s : State) : (complete s).i = s.i := rfl
@[simp] theorem complete_payload (s : State) : (complete s).payload = .none := rfl
@[simp] theorem complete_fault (s : State) : (complete s).fault = s.fault := rfl
@[simp] theorem complete_refused (s : State) : (complete s).refused = s.refused := rfl
@[simp] theorem complete_trace (s : State) : (complete s).trace = s.trace := rfl
@[simp] theorem complete_params (s : State) : (complete s).params = s.params := rfl
@[simp] theorem complete_host (s : State) : (complete s).host = s.host := rfl
@[simp] theorem complete_hostLog (s : State) : (complete s).hostLog = s.hostLog := rfl
@[simp] theorem complete_env (s : State) : (complete s).env = s.env := rfl
@[simp] theorem complete_drawCount (s : State) : (complete s).drawCount = s.drawCount := rfl

@[simp] theorem issue_kr (s : State) (w : Word) (p : Payload) : (issue s w p).kr = s.kr := rfl
@[simp] theorem issue_kc (s : State) (w : Word) (p : Payload) : (issue s w p).kc = s.kc := rfl
@[simp] theorem issue_dd (s : State) (w : Word) (p : Payload) : (issue s w p).dd = s.dd := rfl
@[simp] theorem issue_dc (s : State) (w : Word) (p : Payload) : (issue s w p).dc = s.dc := rfl
@[simp] theorem issue_kpCfg (s : State) (w : Word) (p : Payload) : (issue s w p).kpCfg = s.kpCfg := rfl
@[simp] theorem issue_dispCfg (s : State) (w : Word) (p : Payload) : (issue s w p).dispCfg = s.dispCfg := rfl
@[simp] theorem issue_kpState (s : State) (w : Word) (p : Payload) : (issue s w p).kpState = s.kpState := rfl
@[simp] theorem issue_dispState (s : State) (w : Word) (p : Payload) : (issue s w p).dispState = s.dispState := rfl
@[simp] theorem issue_keyout (s : State) (w : Word) (p : Payload) : (issue s w p).keyout = s.keyout := rfl
@[simp] theorem issue_pressed (s : State) (w : Word) (p : Payload) : (issue s w p).pressed = s.pressed := rfl
@[simp] theorem issue_dl (s : State) (w : Word) (p : Payload) : (issue s w p).dl = s.dl := rfl
@[simp] theorem issue_rsl (s : State) (w : Word) (p : Payload) : (issue s w p).rsl = s.rsl := rfl
@[simp] theorem issue_seq (s : State) (w : Word) (p : Payload) : (issue s w p).seq = .run w .entry := rfl
@[simp] theorem issue_r (s : State) (w : Word) (p : Payload) : (issue s w p).r = s.r := rfl
@[simp] theorem issue_k (s : State) (w : Word) (p : Payload) : (issue s w p).k = s.k := rfl
@[simp] theorem issue_c (s : State) (w : Word) (p : Payload) : (issue s w p).c = s.c := rfl
@[simp] theorem issue_i (s : State) (w : Word) (p : Payload) : (issue s w p).i = s.i := rfl
@[simp] theorem issue_payload (s : State) (w : Word) (p : Payload) : (issue s w p).payload = p := rfl
@[simp] theorem issue_fault (s : State) (w : Word) (p : Payload) : (issue s w p).fault = s.fault := rfl
@[simp] theorem issue_refused (s : State) (w : Word) (p : Payload) : (issue s w p).refused = s.refused := rfl
@[simp] theorem issue_trace (s : State) (w : Word) (p : Payload) : (issue s w p).trace = s.trace := rfl
@[simp] theorem issue_params (s : State) (w : Word) (p : Payload) : (issue s w p).params = s.params := rfl
@[simp] theorem issue_host (s : State) (w : Word) (p : Payload) : (issue s w p).host = s.host := rfl
@[simp] theorem issue_hostLog (s : State) (w : Word) (p : Payload) : (issue s w p).hostLog = s.hostLog := rfl
@[simp] theorem issue_env (s : State) (w : Word) (p : Payload) : (issue s w p).env = s.env := rfl
@[simp] theorem issue_drawCount (s : State) (w : Word) (p : Payload) : (issue s w p).drawCount = s.drawCount := rfl

@[simp] theorem storeKp_kr (s : State) : (storeKp s).kr = s.kr := by unfold storeKp; split <;> rfl
@[simp] theorem storeKp_kc (s : State) : (storeKp s).kc = s.kc := by unfold storeKp; split <;> rfl
@[simp] theorem storeKp_dd (s : State) : (storeKp s).dd = s.dd := by unfold storeKp; split <;> rfl
@[simp] theorem storeKp_dc (s : State) : (storeKp s).dc = s.dc := by unfold storeKp; split <;> rfl
@[simp] theorem storeKp_dispCfg (s : State) : (storeKp s).dispCfg = s.dispCfg := by unfold storeKp; split <;> rfl
@[simp] theorem storeKp_kpState (s : State) : (storeKp s).kpState = s.kpState := by unfold storeKp; split <;> rfl
@[simp] theorem storeKp_dispState (s : State) : (storeKp s).dispState = s.dispState := by unfold storeKp; split <;> rfl
@[simp] theorem storeKp_keyout (s : State) : (storeKp s).keyout = s.keyout := by unfold storeKp; split <;> rfl
@[simp] theorem storeKp_pressed (s : State) : (storeKp s).pressed = s.pressed := by unfold storeKp; split <;> rfl
@[simp] theorem storeKp_dl (s : State) : (storeKp s).dl = s.dl := by unfold storeKp; split <;> rfl
@[simp] theorem storeKp_rsl (s : State) : (storeKp s).rsl = s.rsl := by unfold storeKp; split <;> rfl
@[simp] theorem storeKp_seq (s : State) : (storeKp s).seq = s.seq := by unfold storeKp; split <;> rfl
@[simp] theorem storeKp_r (s : State) : (storeKp s).r = s.r := by unfold storeKp; split <;> rfl
@[simp] theorem storeKp_k (s : State) : (storeKp s).k = s.k := by unfold storeKp; split <;> rfl
@[simp] theorem storeKp_c (s : State) : (storeKp s).c = s.c := by unfold storeKp; split <;> rfl
@[simp] theorem storeKp_i (s : State) : (storeKp s).i = s.i := by unfold storeKp; split <;> rfl
@[simp] theorem storeKp_payload (s : State) : (storeKp s).payload = s.payload := by unfold storeKp; split <;> rfl
@[simp] theorem storeKp_fault (s : State) : (storeKp s).fault = s.fault := by unfold storeKp; split <;> rfl
@[simp] theorem storeKp_refused (s : State) : (storeKp s).refused = s.refused := by unfold storeKp; split <;> rfl
@[simp] theorem storeKp_trace (s : State) : (storeKp s).trace = s.trace := by unfold storeKp; split <;> rfl
@[simp] theorem storeKp_params (s : State) : (storeKp s).params = s.params := by unfold storeKp; split <;> rfl
@[simp] theorem storeKp_host (s : State) : (storeKp s).host = s.host := by unfold storeKp; split <;> rfl
@[simp] theorem storeKp_hostLog (s : State) : (storeKp s).hostLog = s.hostLog := by unfold storeKp; split <;> rfl
@[simp] theorem storeKp_env (s : State) : (storeKp s).env = s.env := by unfold storeKp; split <;> rfl
@[simp] theorem storeKp_drawCount (s : State) : (storeKp s).drawCount = s.drawCount := by unfold storeKp; split <;> rfl

@[simp] theorem storeDisp_kr (s : State) : (storeDisp s).kr = s.kr := by unfold storeDisp; split <;> rfl
@[simp] theorem storeDisp_kc (s : State) : (storeDisp s).kc = s.kc := by unfold storeDisp; split <;> rfl
@[simp] theorem storeDisp_dd (s : State) : (storeDisp s).dd = s.dd := by unfold storeDisp; split <;> rfl
@[simp] theorem storeDisp_dc (s : State) : (storeDisp s).dc = s.dc := by unfold storeDisp; split <;> rfl
@[simp] theorem storeDisp_kpCfg (s : State) : (storeDisp s).kpCfg = s.kpCfg := by unfold storeDisp; split <;> rfl
@[simp] theorem storeDisp_kpState (s : State) : (storeDisp s).kpState = s.kpState := by unfold storeDisp; split <;> rfl
@[simp] theorem storeDisp_dispState (s : State) : (storeDisp s).dispState = s.dispState := by unfold storeDisp; split <;> rfl
@[simp] theorem storeDisp_keyout (s : State) : (storeDisp s).keyout = s.keyout := by unfold storeDisp; split <;> rfl
@[simp] theorem storeDisp_pressed (s : State) : (storeDisp s).pressed = s.pressed := by unfold storeDisp; split <;> rfl
@[simp] theorem storeDisp_dl (s : State) : (storeDisp s).dl = s.dl := by unfold storeDisp; split <;> rfl
@[simp] theorem storeDisp_rsl (s : State) : (storeDisp s).rsl = s.rsl := by unfold storeDisp; split <;> rfl
@[simp] theorem storeDisp_seq (s : State) : (storeDisp s).seq = s.seq := by unfold storeDisp; split <;> rfl
@[simp] theorem storeDisp_r (s : State) : (storeDisp s).r = s.r := by unfold storeDisp; split <;> rfl
@[simp] theorem storeDisp_k (s : State) : (storeDisp s).k = s.k := by unfold storeDisp; split <;> rfl
@[simp] theorem storeDisp_c (s : State) : (storeDisp s).c = s.c := by unfold storeDisp; split <;> rfl
@[simp] theorem storeDisp_i (s : State) : (storeDisp s).i = s.i := by unfold storeDisp; split <;> rfl
@[simp] theorem storeDisp_payload (s : State) : (storeDisp s).payload = s.payload := by unfold storeDisp; split <;> rfl
@[simp] theorem storeDisp_fault (s : State) : (storeDisp s).fault = s.fault := by unfold storeDisp; split <;> rfl
@[simp] theorem storeDisp_refused (s : State) : (storeDisp s).refused = s.refused := by unfold storeDisp; split <;> rfl
@[simp] theorem storeDisp_trace (s : State) : (storeDisp s).trace = s.trace := by unfold storeDisp; split <;> rfl
@[simp] theorem storeDisp_params (s : State) : (storeDisp s).params = s.params := by unfold storeDisp; split <;> rfl
@[simp] theorem storeDisp_host (s : State) : (storeDisp s).host = s.host := by unfold storeDisp; split <;> rfl
@[simp] theorem storeDisp_hostLog (s : State) : (storeDisp s).hostLog = s.hostLog := by unfold storeDisp; split <;> rfl
@[simp] theorem storeDisp_env (s : State) : (storeDisp s).env = s.env := by unfold storeDisp; split <;> rfl
@[simp] theorem storeDisp_drawCount (s : State) : (storeDisp s).drawCount = s.drawCount := by unfold storeDisp; split <;> rfl

end Sys2Proof.Machine
end

