-- ==== Sys2Proof/Laws/Ports.lean ====
section
/-! SUPPORT. Reading a port bit after a write of one (R44): the written bit, and every other bit kept. -/

namespace Sys2Proof.Machine

theorem testBit_setBit (x : PortReg) (i j : Pin) (v : Level) :
    (setBit x i v).testBit j = if j = i then v else x.testBit j := by
  unfold setBit
  by_cases h : j = i
  · subst h
    cases v <;> simp [Nat.testBit_two_pow_self]
  · cases v <;> simp [h, Nat.testBit_two_pow_of_ne (Ne.symm h)]

/-- A write of a bit below the width keeps a register within it. -/
theorem setBit_lt {w : Nat} {x : PortReg} {i : Pin} (v : Level) (hx : x < 2 ^ w) (hi : i < w) : setBit x i v < 2 ^ w := by
  have hp : 2 ^ i < 2 ^ w := Nat.pow_lt_pow_right (by decide) hi
  cases v
  · exact Nat.xor_lt_two_pow hx (Nat.and_lt_two_pow _ hp)
  · exact Nat.or_lt_two_pow hx hp

/-- Bit `j` of a register as a function of the register name. -/
def regBit (p : PortRegs) (reg : Reg) (j : Pin) : Level :=
  match reg with
  | .dir => p.dir.testBit j
  | .out => p.out.testBit j
  | .pull => p.pull.testBit j

theorem portBit_eq_regBit (s : State) (p : Port) (reg : Reg) (i : Pin) :
    portBit s p reg i = regBit (getPort s p) reg i := by cases reg <;> rfl

theorem regBit_writePortBit (p : PortRegs) (reg reg' : Reg) (i j : Pin) (v : Level) :
    regBit (writePortBit p reg i v) reg' j = if reg' = reg ∧ j = i then v else regBit p reg' j := by
  cases reg <;> cases reg' <;> simp only [regBit, writePortBit, testBit_setBit, true_and, reduceCtorEq, false_and, if_false]

@[simp] theorem getPort_emit (s : State) (e : Event) (p : Port) : getPort (emit s e) p = getPort s p := rfl

theorem getPort_putPort (s : State) (p q : Port) (x : PortRegs) :
    getPort (putPort s p x) q =
      if portHome s.params.sharedDisp q = portHome s.params.sharedDisp p then x else getPort s q := by
  unfold getPort
  rw [putPort_params]
  cases hp : portHome s.params.sharedDisp p <;> cases hq : portHome s.params.sharedDisp q <;>
    simp [putPort, hp]

/-- What a pin write does to a port bit: everything it can do. -/
theorem portBit_pinWrite (s : State) (p q : Port) (reg reg' : Reg) (i j : Pin) (v : Level) :
    portBit (pinWrite s p reg i v) q reg' j =
      if portHome s.params.sharedDisp q = portHome s.params.sharedDisp p ∧ reg' = reg ∧ j = i then v
      else portBit s q reg' j := by
  simp only [portBit_eq_regBit, pinWrite, getPort_emit, getPort_putPort]
  by_cases h : portHome s.params.sharedDisp q = portHome s.params.sharedDisp p
  · have hg : getPort s q = getPort s p := by simp only [getPort, h]
    simp [h, regBit_writePortBit, hg]
  · simp [h]

/-- A port bit depends on the port registers and the parameters alone. -/
theorem portBit_congr {s t : State} (p : Port) (reg : Reg) (i : Pin) (hkr : s.kr = t.kr) (hkc : s.kc = t.kc)
    (hdd : s.dd = t.dd) (hdc : s.dc = t.dc) (hp : s.params = t.params) : portBit s p reg i = portBit t p reg i := by
  simp only [portBit, getPort, hkr, hkc, hdd, hdc, hp]

/-- A write to a display port leaves the keypad ports alone (R4, R20). -/
theorem putPort_disp_kr (s : State) (p : Port) (x : PortRegs) (h : p = .dd ∨ p = .dc) : (putPort s p x).kr = s.kr := by
  rcases h with rfl | rfl <;> cases hs : s.params.sharedDisp <;> simp [putPort, portHome, hs]

theorem putPort_disp_kc (s : State) (p : Port) (x : PortRegs) (h : p = .dd ∨ p = .dc) : (putPort s p x).kc = s.kc := by
  rcases h with rfl | rfl <;> cases hs : s.params.sharedDisp <;> simp [putPort, portHome, hs]

@[simp] theorem pinWrite_dd_kr (s : State) (reg : Reg) (n : Pin) (v : Level) : (pinWrite s .dd reg n v).kr = s.kr :=
  putPort_disp_kr s .dd (writePortBit (getPort s .dd) reg n v) (.inl rfl)
@[simp] theorem pinWrite_dd_kc (s : State) (reg : Reg) (n : Pin) (v : Level) : (pinWrite s .dd reg n v).kc = s.kc :=
  putPort_disp_kc s .dd (writePortBit (getPort s .dd) reg n v) (.inl rfl)
@[simp] theorem pinWrite_dc_kr (s : State) (reg : Reg) (n : Pin) (v : Level) : (pinWrite s .dc reg n v).kr = s.kr :=
  putPort_disp_kr s .dc (writePortBit (getPort s .dc) reg n v) (.inr rfl)
@[simp] theorem pinWrite_dc_kc (s : State) (reg : Reg) (n : Pin) (v : Level) : (pinWrite s .dc reg n v).kc = s.kc :=
  putPort_disp_kc s .dc (writePortBit (getPort s .dc) reg n v) (.inr rfl)
@[simp] theorem pinWrite_kr_kr (s : State) (reg : Reg) (n : Pin) (v : Level) :
    (pinWrite s .kr reg n v).kr = writePortBit s.kr reg n v := rfl
@[simp] theorem pinWrite_kr_kc (s : State) (reg : Reg) (n : Pin) (v : Level) : (pinWrite s .kr reg n v).kc = s.kc := rfl
@[simp] theorem pinWrite_kr_dd (s : State) (reg : Reg) (n : Pin) (v : Level) : (pinWrite s .kr reg n v).dd = s.dd := rfl
@[simp] theorem pinWrite_kr_dc (s : State) (reg : Reg) (n : Pin) (v : Level) : (pinWrite s .kr reg n v).dc = s.dc := rfl
@[simp] theorem pinWrite_kc_kr (s : State) (reg : Reg) (n : Pin) (v : Level) : (pinWrite s .kc reg n v).kr = s.kr := rfl
@[simp] theorem pinWrite_kc_kc (s : State) (reg : Reg) (n : Pin) (v : Level) :
    (pinWrite s .kc reg n v).kc = writePortBit s.kc reg n v := rfl
@[simp] theorem pinWrite_kc_dd (s : State) (reg : Reg) (n : Pin) (v : Level) : (pinWrite s .kc reg n v).dd = s.dd := rfl
@[simp] theorem pinWrite_kc_dc (s : State) (reg : Reg) (n : Pin) (v : Level) : (pinWrite s .kc reg n v).dc = s.dc := rfl

@[simp] theorem rowPin_pinWrite (s : State) (p : Port) (reg : Reg) (n : Pin) (v : Level) (k : Fin 4) :
    rowPin (pinWrite s p reg n v) k = rowPin s k := by simp [rowPin, kpTables]
@[simp] theorem colPin_pinWrite (s : State) (p : Port) (reg : Reg) (n : Pin) (v : Level) (c : Fin 6) :
    colPin (pinWrite s p reg n v) c = colPin s c := by simp [colPin, kpTables]
@[simp] theorem dataPin_pinWrite (s : State) (p : Port) (reg : Reg) (n : Pin) (v : Level) (j : Fin 4) :
    dataPin (pinWrite s p reg n v) j = dataPin s j := by simp [dataPin, dispTables]
@[simp] theorem ctrlPin_pinWrite (s : State) (p : Port) (reg : Reg) (n : Pin) (v : Level) (j : Fin 3) :
    ctrlPin (pinWrite s p reg n v) j = ctrlPin s j := by simp [ctrlPin, dispTables]
@[simp] theorem dataPin_delay (s : State) (kind : DelayKind) (j : Fin 4) : dataPin (delay s kind) j = dataPin s j := rfl
@[simp] theorem ctrlPin_delay (s : State) (kind : DelayKind) (j : Fin 3) : ctrlPin (delay s kind) j = ctrlPin s j := rfl
@[simp] theorem dataPin_setLatch (s : State) (rs : Level) (b : Byte) (j : Fin 4) :
    dataPin (setLatch s rs b) j = dataPin s j := rfl
@[simp] theorem ctrlPin_setLatch (s : State) (rs : Level) (b : Byte) (j : Fin 3) :
    ctrlPin (setLatch s rs b) j = ctrlPin s j := rfl
@[simp] theorem portBit_delay (s : State) (kind : DelayKind) (p : Port) (reg : Reg) (i : Pin) :
    portBit (delay s kind) p reg i = portBit s p reg i := rfl
@[simp] theorem portBit_setLatch (s : State) (rs : Level) (b : Byte) (p : Port) (reg : Reg) (i : Pin) :
    portBit (setLatch s rs b) p reg i = portBit s p reg i := rfl

end Sys2Proof.Machine
end

