-- ==== Sys2Proof/Laws/Display.lean ====
section
/-! SUPPORT. What the display receives along transfers (R111, R141 to R143), as a function of the bus. -/

namespace Sys2Proof.Machine

/-- The bus after DISP_INIT's DIR writes: seven outputs on distinct pins, at any OUT levels. -/
structure BusReady (b : Bus) : Prop where
  dd : ∀ i j : Fin 4, b.pins.dataPins[i] = b.pins.dataPins[j] → i = j
  cc : ∀ i j : Fin 3, b.pins.ctrlPins[i] = b.pins.ctrlPins[j] → i = j
  dc : b.shared = true → ∀ (i : Fin 4) (j : Fin 3), b.pins.dataPins[i] ≠ b.pins.ctrlPins[j]
  od : ∀ i : Fin 4, b.dd.dir.testBit b.pins.dataPins[i] = true
  oc : ∀ i : Fin 3, (busCtrl b).dir.testBit b.pins.ctrlPins[i] = true

/-- The 18 events of a transfer (R103, R106), from the configured pins. -/
def dispXferEvents (p : DispConfig) (rs : Level) (b : Byte) : List Event :=
  [.w .dc .out p.ctrlPins[0] rs, .w .dc .out p.ctrlPins[1] false,
   .w .dd .out p.dataPins[0] (b.getLsbD 4), .w .dd .out p.dataPins[1] (b.getLsbD 5),
   .w .dd .out p.dataPins[2] (b.getLsbD 6), .w .dd .out p.dataPins[3] (b.getLsbD 7),
   .w .dc .out p.ctrlPins[2] true, .d .edge, .w .dc .out p.ctrlPins[2] false, .d .edge,
   .w .dd .out p.dataPins[0] (b.getLsbD 0), .w .dd .out p.dataPins[1] (b.getLsbD 1),
   .w .dd .out p.dataPins[2] (b.getLsbD 2), .w .dd .out p.dataPins[3] (b.getLsbD 3),
   .w .dc .out p.ctrlPins[2] true, .d .edge, .w .dc .out p.ctrlPins[2] false, .d .edge]

/-- The bus after events. -/
def busRun (b : Bus) (l : List Event) : Bus := l.foldl busAfter b

theorem latchedNibbles_append (b : Bus) (l m : List Event) :
    latchedNibbles b (l ++ m) = latchedNibbles b l ++ latchedNibbles (busRun b l) m := by
  induction l generalizing b with
  | nil => rfl
  | cons e l ih =>
    simp only [List.cons_append, latchedNibbles]
    split <;> simp [ih, busRun]

/-- A transfer presents its two nibbles, and leaves a ready bus ready (R111). -/
theorem latchedNibbles_xfer (b : Bus) (h : BusReady b) (rs : Level) (x : Byte) :
    latchedNibbles b (dispXferEvents b.pins rs x) =
        sentNibbles (rs, x) ∧
      BusReady (busRun b (dispXferEvents b.pins rs x)) ∧ (busRun b (dispXferEvents b.pins rs x)).pins = b.pins ∧
      (busRun b (dispXferEvents b.pins rs x)).shared = b.shared := by
  obtain ⟨sh, ⟨dps, cps⟩, dd, dc⟩ := b
  obtain ⟨h1, h2, h3, h4, h5⟩ := h
  simp only at h1 h2 h3 h4 h5
  have d01 : dps[0] ≠ dps[1] := fun e => by have := h1 0 1 e; simp at this
  have d02 : dps[0] ≠ dps[2] := fun e => by have := h1 0 2 e; simp at this
  have d03 : dps[0] ≠ dps[3] := fun e => by have := h1 0 3 e; simp at this
  have d12 : dps[1] ≠ dps[2] := fun e => by have := h1 1 2 e; simp at this
  have d13 : dps[1] ≠ dps[3] := fun e => by have := h1 1 3 e; simp at this
  have d23 : dps[2] ≠ dps[3] := fun e => by have := h1 2 3 e; simp at this
  have c01 : cps[0] ≠ cps[1] := fun e => by have := h2 0 1 e; simp at this
  have c02 : cps[0] ≠ cps[2] := fun e => by have := h2 0 2 e; simp at this
  have c12 : cps[1] ≠ cps[2] := fun e => by have := h2 1 2 e; simp at this
  have o0 := h4 0; have o1 := h4 1; have o2 := h4 2; have o3 := h4 3
  have p0 := h5 0; have p1 := h5 1; have p2 := h5 2
  simp only [Fin.getElem_fin, Fin.val_zero, Fin.val_one, Fin.val_two] at o0 o1 o2 p0 p1 p2
  cases sh with
  | false =>
    simp only [busCtrl] at p0 p1 p2
    refine ⟨?_, ⟨h1, h2, h3, ?_, ?_⟩, rfl, rfl⟩
    · simp at o0 o1 o2 o3 p0 p1 p2
      have o3 : dd.dir.testBit dps[3] = true := o3
      simp [o3, testBit_setBit, sentNibbles, dispXferEvents, latchedNibbles, isFallingEdge,
        busAfter, busNibble, pinLevel, writePortBit, busCtrl,
        d01, d02, d03, d12, d13, d23, c01, c02, c12,
        c02.symm, c12.symm, o0, o1, o2, p0, p2]
    · intro i; simp [busRun, dispXferEvents, busAfter, writePortBit]; exact h4 i
    · intro i; simp [busRun, dispXferEvents, busAfter, writePortBit, busCtrl]; exact h5 i
  | true =>
    have hx : ∀ (i : Fin 4) (j : Fin 3), dps[i] ≠ cps[j] := h3 rfl
    have x00 := hx 0 0; have x01 := hx 0 1; have x02 := hx 0 2
    have x10 := hx 1 0; have x11 := hx 1 1; have x12 := hx 1 2
    have x20 := hx 2 0; have x21 := hx 2 1; have x22 := hx 2 2
    have x30 := hx 3 0; have x31 := hx 3 1; have x32 := hx 3 2
    simp only [Fin.getElem_fin, Fin.val_zero, Fin.val_one, Fin.val_two] at x00 x01 x02 x10 x11 x12 x20 x21 x22 x30 x31 x32
    have e3 : ((3 : Fin 4) : Nat) = 3 := rfl
    simp only [e3] at x30 x31 x32
    simp only [busCtrl, if_true] at p0 p1 p2
    refine ⟨?_, ⟨h1, h2, h3, ?_, ?_⟩, rfl, rfl⟩
    · simp at o0 o1 o2 o3 p0 p1 p2
      have o3 : dd.dir.testBit dps[3] = true := o3
      simp [o3, testBit_setBit, sentNibbles, dispXferEvents, latchedNibbles, isFallingEdge,
        busAfter, busNibble, pinLevel, writePortBit, busCtrl,
        d01, d02, d03, d12, d13, d23, c01, c02, c12,
        c02.symm, c12.symm, o0, o1, o2, p0, p2, x02, x12, x22, x32, x00.symm,
        x02.symm, x10.symm, x12.symm, x20.symm, x22.symm, x30.symm, x32.symm]
    · intro i; simp [busRun, dispXferEvents, busAfter, writePortBit]; exact h4 i
    · intro i; simp [busRun, dispXferEvents, busAfter, writePortBit, busCtrl]; exact h5 i

/-- The nibbles of transfers, paired from the aligned phase, are the transfers (R142). -/
theorem pairNibbles_sent (l : List (Level × Byte)) : pairNibbles none (l.flatMap sentNibbles) = l.map some := by
  induction l with
  | nil => rfl
  | cons x l ih =>
    obtain ⟨rs, x⟩ := x
    simp only [List.flatMap_cons, sentNibbles, List.cons_append, List.nil_append, pairNibbles, pairByte, ih, List.map_cons,
      List.cons.injEq, Option.some.injEq, Prod.mk.injEq, true_and, and_true]
    revert x; decide

/-- Transfers leave the pairing phase as they found it (R111). -/
theorem phaseAfter_sent (phase : Option Nibble) (l : List (Level × Byte)) :
    (phaseAfter phase (l.flatMap sentNibbles)).isSome = phase.isSome := by
  induction l generalizing phase with
  | nil => rfl
  | cons x l ih =>
    cases phase <;> simp only [List.flatMap_cons, sentNibbles, List.cons_append, List.nil_append, phaseAfter, ih]; rfl

/-- Transfers with delays after them put exactly their nibbles on a ready bus, in order. -/
theorem latchedNibbles_transfers (l : List (Level × Byte × List DelayKind)) (b : Bus) (h : BusReady b) :
    latchedNibbles b (l.flatMap fun x => dispXferEvents b.pins x.1 x.2.1 ++ x.2.2.map .d) =
      (l.map fun x => (x.1, x.2.1)).flatMap sentNibbles := by
  induction l generalizing b with
  | nil => rfl
  | cons x l ih =>
    obtain ⟨h1, h2, h3, h4⟩ := latchedNibbles_xfer b h x.1 x.2.1
    have hd : ∀ (ks : List DelayKind) (b : Bus), latchedNibbles b (ks.map .d) = [] ∧ busRun b (ks.map .d) = b := by
      intro ks; induction ks with
      | nil => exact fun b => ⟨rfl, rfl⟩
      | cons k ks ih => intro b; simp [latchedNibbles, isFallingEdge, busRun, busAfter]; exact ⟨(ih b).1, (ih b).2⟩
    have e : busRun b (dispXferEvents b.pins x.1 x.2.1 ++ x.2.2.map .d) = busRun b (dispXferEvents b.pins x.1 x.2.1) := by
      show List.foldl _ _ _ = _
      rw [List.foldl_append]; exact (hd _ _).2
    have := ih _ h2
    rw [h3] at this
    rw [List.flatMap_cons, latchedNibbles_append, latchedNibbles_append, h1, (hd _ _).1, e, this, List.append_nil,
      List.map_cons, List.flatMap_cons]

/-- What the display receives along transfers, from every pairing phase (R142, R184). -/
theorem traceBytesFrom_transfers (phase : Option Nibble) (l : List (Level × Byte × List DelayKind)) (b : Bus) (h : BusReady b) :
    traceBytesFrom phase b (l.flatMap fun x => dispXferEvents b.pins x.1 x.2.1 ++ x.2.2.map .d) =
      pairNibbles phase ((l.map fun x => (x.1, x.2.1)).flatMap sentNibbles) := by
  rw [traceBytesFrom, latchedNibbles_transfers l b h]

/-- Transfers with delays after them: the display receives exactly their bytes, in order (R143). -/
theorem traceBytes_transfers (l : List (Level × Byte × List DelayKind)) (b : Bus) (h : BusReady b) :
    traceBytes b (l.flatMap fun x => dispXferEvents b.pins x.1 x.2.1 ++ x.2.2.map .d) = l.map fun x => some (x.1, x.2.1) := by
  rw [traceBytes, traceBytesFrom_transfers none l b h, pairNibbles_sent, List.map_map]
  rfl

end Sys2Proof.Machine
end

