-- ==== Sys2Proof/Laws/Encoding.lean ====
section
/-! SUPPORT. The fields of a packed command word (R57). -/

namespace Sys2Proof

theorem getLsbD_packWord (u o : BitVec 4) (row col data : Byte) (j : Nat) :
    (packWord u o row col data).getLsbD j =
      if j < 8 then data.getLsbD j else if j < 16 then col.getLsbD (j - 8) else if j < 24 then row.getLsbD (j - 16)
      else if j < 28 then o.getLsbD (j - 24) else u.getLsbD (j - 28) := by
  show BitVec.getLsbD (w := 4 + 4 + 8 + 8 + 8) (u ++ o ++ row ++ col ++ data) j = _
  simp only [BitVec.getLsbD_append]
  split_ifs <;> first | rfl | omega

@[simp] theorem fieldUnit_packWord (u o : BitVec 4) (row col data : Byte) :
    fieldUnit (packWord u o row col data) = u := by
  refine BitVec.eq_of_getLsbD_eq fun j h => ?_
  simp only [fieldUnit, BitVec.getLsbD_extractLsb', getLsbD_packWord]
  simp [h, show ¬ 28 + j < 8 by omega, show ¬ 28 + j < 16 by omega, show ¬ 28 + j < 24 by omega]

@[simp] theorem fieldOp_packWord (u o : BitVec 4) (row col data : Byte) :
    fieldOp (packWord u o row col data) = o := by
  refine BitVec.eq_of_getLsbD_eq fun j h => ?_
  simp only [fieldOp, BitVec.getLsbD_extractLsb', getLsbD_packWord]
  simp [h, show ¬ 24 + j < 8 by omega, show ¬ 24 + j < 16 by omega, show 24 + j < 28 by omega]

@[simp] theorem fieldRow_packWord (u o : BitVec 4) (row col data : Byte) :
    fieldRow (packWord u o row col data) = row := by
  refine BitVec.eq_of_getLsbD_eq fun j h => ?_
  simp only [fieldRow, BitVec.getLsbD_extractLsb', getLsbD_packWord]
  simp [h, show ¬ 16 + j < 8 by omega, show 16 + j < 24 by omega]

@[simp] theorem fieldCol_packWord (u o : BitVec 4) (row col data : Byte) :
    fieldCol (packWord u o row col data) = col := by
  refine BitVec.eq_of_getLsbD_eq fun j h => ?_
  simp only [fieldCol, BitVec.getLsbD_extractLsb', getLsbD_packWord]
  simp [h, show 8 + j < 16 by omega]

@[simp] theorem fieldData_packWord (u o : BitVec 4) (row col data : Byte) :
    fieldData (packWord u o row col data) = data := by
  refine BitVec.eq_of_getLsbD_eq fun j h => ?_
  simp only [fieldData, BitVec.getLsbD_extractLsb', getLsbD_packWord]
  simp [h]

/-- A word is the packing of its fields (R57). -/
theorem packWord_fields (w : Word) :
    packWord (fieldUnit w) (fieldOp w) (fieldRow w) (fieldCol w) (fieldData w) = w := by
  refine BitVec.eq_of_getLsbD_eq fun j h => ?_
  simp only [getLsbD_packWord, fieldUnit, fieldOp, fieldRow, fieldCol, fieldData, BitVec.getLsbD_extractLsb']
  split_ifs with h1 h2 h3 h4
  · simp [h1]
  · simp [show j - 8 < 8 by omega, show 8 + (j - 8) = j by omega]
  · simp [show j - 16 < 8 by omega, show 16 + (j - 16) = j by omega]
  · simp [show j - 24 < 4 by omega, show 24 + (j - 24) = j by omega]
  · simp [show j - 28 < 4 by omega, show 28 + (j - 28) = j by omega]

/-- The row found at a UNIT and OP has that UNIT and OP (R61). -/
theorem opcodeAt_code (u o : BitVec 4) (op : Opcode) (h : opcodeAt u o = .ok op) : opcodeCode op = (u, o) := by
  have all : ∀ u o : BitVec 4, (match opcodeAt u o with
      | .ok op => decide (opcodeCode op = (u, o))
      | .error _ => true) = true := by decide
  have := all u o
  rw [h] at this
  exact of_decide_eq_true this

end Sys2Proof
end

