-- ==== Sys2Proof/Laws/Micro.lean ====
section
/-! SUPPORT. How a list of micro-steps runs: straight-line parts, and properties that every micro-step keeps. -/

namespace Sys2Proof.Machine

/-- What a micro-step leaves that is no sample and no report: those always go on. -/
def advanceOp (op : MicroOp) (s : State) : State :=
  match microOp op s with
  | .advance t => t
  | .spin t _ => t
  | .finish t => t

/-- A micro-step that always goes on to the next one. -/
def isStraight : MicroOp → Bool
  | .detect _ | .waitRelease _ | .reportKey => false
  | .pinWrite _ _ _ | .pinWriteRsl | .pinWriteDl _ _ | .delay _ | .latch _ _ | .latchText | .latchDigit
  | .setR _ | .setK _ | .setC _ | .setI _ | .storeKpConfig | .storeDispConfig | .kpReady | .dispReady => true

theorem microOp_straight {op : MicroOp} (h : isStraight op = true) (s : State) :
    microOp op s = .advance (advanceOp op s) := by
  cases op <;> first | rfl | simp [isStraight] at h

/-- The state after a straight-line list of micro-steps. -/
def runStraight (ops : List MicroOp) (s : State) : State := ops.foldl (fun t op => advanceOp op t) s

@[simp] theorem runStraight_nil (s : State) : runStraight [] s = s := rfl
@[simp] theorem runStraight_cons (op : MicroOp) (ops : List MicroOp) (s : State) :
    runStraight (op :: ops) s = runStraight ops (advanceOp op s) := rfl
theorem runStraight_append (a b : List MicroOp) (s : State) :
    runStraight (a ++ b) s = runStraight b (runStraight a s) := by simp [runStraight, List.foldl_append]

/-- A straight-line beginning of a program runs to its end. -/
theorem runOps_straight_append (w : Word) (ops rest : List MicroOp) (s : State) (h : ∀ op ∈ ops, isStraight op = true) :
    runOps w (ops ++ rest) s = runOps w rest (runStraight ops s) := by
  induction ops generalizing s with
  | nil => rfl
  | cons op ops ih =>
    have hop := microOp_straight (h op (by simp)) s
    simp only [List.cons_append, runOps, hop, runStraight_cons]
    exact ih _ fun o ho => h o (by simp [ho])

/-- A straight-line program completes. -/
theorem runOps_straight (w : Word) (ops : List MicroOp) (s : State) (h : ∀ op ∈ ops, isStraight op = true) :
    runOps w ops s = complete (runStraight ops s) := by
  have := runOps_straight_append w ops [] s h
  simpa [runOps] using this

/-- What a micro-step leaves, however it ends. -/
def resultState : MicroResult → State
  | .advance t => t
  | .spin t _ => t
  | .finish t => t

/-- A property that every micro-step of a program keeps, and that does not look at SEQ or the payload in
progress, holds after the program. -/
theorem runOps_keeps {P : State → Prop} (w : Word) (ops : List MicroOp) (s : State) (hs : P s)
    (hop : ∀ op ∈ ops, ∀ t, P t → P (resultState (microOp op t)))
    (hseq : ∀ t q p, P t → P { t with seq := q, payload := p }) : P (runOps w ops s) := by
  induction ops generalizing s with
  | nil => exact hseq s .idle .none hs
  | cons op ops ih =>
    have h1 := hop op (by simp) s hs
    unfold runOps
    split
    · rename_i t heq
      rw [heq] at h1
      exact ih t h1 fun o ho => hop o (by simp [ho])
    · rename_i t op' heq
      rw [heq] at h1
      exact hseq t _ t.payload h1
    · rename_i t heq
      rw [heq] at h1
      exact hseq t .idle .none h1

/-- The two answers of `runCommand`: a raised fault, or the run of the command's micro-steps. -/
theorem runCommand_cases (w : Word) (p : Payload) (check : Option FaultCode) (ops : List MicroOp) (s : State) :
    (∃ code, check = some code ∧ runCommand w p check ops s = .next (raiseFault s code (some w))) ∨
    (check = none ∧ runCommand w p check ops s = .next (runOps w ops { s with payload := p })) := by
  cases check with
  | none => exact .inr ⟨rfl, rfl⟩
  | some code => exact .inl ⟨code, rfl, rfl⟩

/-- Every meaning is its checks and its micro-steps. -/
theorem exec_eq_runCommand (i : Instr) (s : State) :
    exec i s = runCommand (encode i) (payloadOf i) (checkOf i s) (programOf i s.params) s := by
  cases i <;> rfl

end Sys2Proof.Machine
end

