-- ==== Sys2Proof/Laws/Transfer.lean ====
section
/-! SUPPORT. What one transfer does (R103, R106), and how transfers compose. -/

namespace Sys2Proof.Machine

theorem transferOps_straight : ∀ op ∈ transferOps, isStraight op = true := by decide

theorem xferOps_straight (rs : Level) (b : Byte) : ∀ op ∈ xferOps rs b, isStraight op = true := by
  intro op h
  rcases List.mem_cons.mp h with rfl | h
  · rfl
  · exact transferOps_straight op h

/-- The pins in use are those of `s`. -/
def SamePins (s t : State) : Prop := t.dispCfg = s.dispCfg ∧ t.params = s.params

theorem SamePins.dataPin {s t : State} (h : SamePins s t) (j : Fin 4) : dataPin t j = dataPin s j := by
  simp only [Machine.dataPin, dispTables, h.1]

theorem SamePins.ctrlPin {s t : State} (h : SamePins s t) (j : Fin 3) : ctrlPin t j = ctrlPin s j := by
  simp only [Machine.ctrlPin, dispTables, h.1]

theorem SamePins.busOutBit {s t : State} (h : SamePins s t) (p : Port) (reg : Reg) (n : Pin) :
    BusOutBit t p reg n ↔ BusOutBit s p reg n := by
  simp only [BusOutBit, h.2, h.dataPin, h.ctrlPin]

theorem SamePins.distinct {s t : State} (h : SamePins s t) : DispPinsDistinct t ↔ DispPinsDistinct s := by
  simp only [DispPinsDistinct, h.2, h.dataPin, h.ctrlPin]

theorem SamePins.xferEvents {s t : State} (h : SamePins s t) (rs : Level) (b : Byte) :
    xferEvents t rs b = xferEvents s rs b := by
  simp only [Machine.xferEvents, h.dataPin, h.ctrlPin]

theorem SamePins.sendEvents {s t : State} (h : SamePins s t) (l : List (Level × Byte)) :
    sendEvents t l = sendEvents s l := by
  simp only [Machine.sendEvents, h.xferEvents]

theorem SamePins.busLeftAt {s t : State} (h : SamePins s t) (u : State) (rs : Level) (b : Byte) :
    BusLeftAt t u rs b ↔ BusLeftAt s u rs b := by
  simp only [BusLeftAt, h.dataPin, h.ctrlPin]

/-- `t` is `s` after display micro-steps that sent these bytes, the command not yet completed: `DisplaySent`
without its completion, and with the payload in progress kept. -/
structure Sent (s t : State) (sent : List (Level × Byte)) : Prop where
  payload : t.payload = s.payload
  keypad : KeypadKept s t
  records : RecordsKept s t
  config : t.dispCfg = s.dispCfg ∧ t.dispState = s.dispState
  nothing : sent = [] → t.dl = s.dl ∧ t.rsl = s.rsl ∧ t.dd = s.dd ∧ t.dc = s.dc
  latch : ∀ rs b, sent.getLast? = some (rs, b) → t.dl = b ∧ t.rsl = rs
  bus : ∀ rs b, sent.getLast? = some (rs, b) → DispPinsDistinct s → BusLeftAt s t rs b
  otherBits : ∀ p reg n, ¬ BusOutBit s p reg n → portBit t p reg n = portBit s p reg n

theorem Sent.samePins {s t : State} {l : List (Level × Byte)} (h : Sent s t l) : SamePins s t :=
  ⟨h.config.1, h.records.2.2.1⟩

theorem KeypadKept.trans {s t u : State} (a : KeypadKept s t) (b : KeypadKept t u) : KeypadKept s u := by
  obtain ⟨a1, a2, a3, a4, a5, a6, a7, a8, a9, a10, a11⟩ := a
  obtain ⟨b1, b2, b3, b4, b5, b6, b7, b8, b9, b10, b11⟩ := b
  exact ⟨b1.trans a1, b2.trans a2, b3.trans a3, b4.trans a4, b5.trans a5, b6.trans a6, b7.trans a7, b8.trans a8,
    b9.trans a9, b10.trans a10, b11.trans a11⟩

theorem DisplayKept.trans {s t u : State} (a : DisplayKept s t) (b : DisplayKept t u) : DisplayKept s u := by
  obtain ⟨a1, a2, a3, a4, a5, a6, a7⟩ := a
  obtain ⟨b1, b2, b3, b4, b5, b6, b7⟩ := b
  exact ⟨b1.trans a1, b2.trans a2, b3.trans a3, b4.trans a4, b5.trans a5, b6.trans a6, b7.trans a7⟩

theorem RecordsKept.trans {s t u : State} (a : RecordsKept s t) (b : RecordsKept t u) : RecordsKept s u := by
  obtain ⟨a1, a2, a3, a4, a5⟩ := a
  obtain ⟨b1, b2, b3, b4, b5⟩ := b
  exact ⟨b1.trans a1, b2.trans a2, b3.trans a3, b4.trans a4, b5.trans a5⟩

/-- Sending `a` and then `b` is sending `a ++ b`. -/
theorem Sent.append {s t u : State} {a b : List (Level × Byte)} (h1 : Sent s t a) (h2 : Sent t u b) :
    Sent s u (a ++ b) := by
  have hp := h1.samePins
  have hq := h2.samePins
  refine ⟨h2.payload.trans h1.payload, h1.keypad.trans h2.keypad, h1.records.trans h2.records,
    ⟨h2.config.1.trans h1.config.1, h2.config.2.trans h1.config.2⟩, ?_, ?_, ?_, ?_⟩
  · intro h
    obtain ⟨rfl, rfl⟩ := List.append_eq_nil_iff.mp h
    have x := h1.nothing rfl
    have y := h2.nothing rfl
    exact ⟨y.1.trans x.1, y.2.1.trans x.2.1, y.2.2.1.trans x.2.2.1, y.2.2.2.trans x.2.2.2⟩
  · intro rs x hx
    cases b with
    | nil =>
      rw [List.append_nil] at hx
      have y := h2.nothing rfl
      have z := h1.latch rs x hx
      exact ⟨y.1.trans z.1, y.2.1.trans z.2⟩
    | cons c cs => exact h2.latch rs x (by simpa [List.getLast?_append] using hx)
  · intro rs x hx hd
    cases b with
    | nil =>
      rw [List.append_nil] at hx
      have y := h2.nothing rfl
      have z := h1.bus rs x hx hd
      have hb : ∀ p reg n, portBit u p reg n = portBit t p reg n := fun p reg n =>
        portBit_congr p reg n h2.keypad.1 h2.keypad.2.1 y.2.2.1 y.2.2.2 hq.2
      simpa only [BusLeftAt, hb] using z
    | cons c cs =>
      exact (hp.busLeftAt u rs x).mp (h2.bus rs x (by simpa [List.getLast?_append] using hx) (hp.distinct.mpr hd))
  · intro p reg n h
    exact (h2.otherBits p reg n (fun hh => h ((hp.busOutBit p reg n).mp hh))).trans (h1.otherBits p reg n h)

/-- A change of the trace or of the loop register `i` alone sends nothing. -/
theorem Sent.of_trace_i (s : State) (l : List Event) (n : Nat) : Sent s { s with trace := l, i := n } [] :=
  ⟨rfl, ⟨rfl, rfl, rfl, rfl, rfl, rfl, rfl, rfl, rfl, rfl, rfl⟩, ⟨rfl, rfl, rfl, rfl, rfl⟩, ⟨rfl, rfl⟩,
    fun _ => ⟨rfl, rfl, rfl, rfl⟩, by simp, by simp, fun _ _ _ _ => rfl⟩

/-- A delay sends nothing. -/
theorem sent_delay (s : State) (kind : DelayKind) : Sent s (delay s kind) [] := Sent.of_trace_i s _ s.i

/-- The state after a transfer whose latch is written. -/
theorem runStraight_transfer (s : State) : runStraight transferOps s =
    delay (pinWrite (delay (pinWrite (pinWrite (pinWrite (pinWrite (pinWrite
      (delay (pinWrite (delay (pinWrite (pinWrite (pinWrite (pinWrite (pinWrite
        (pinWrite (pinWrite s .dc .out (ctrlPin s 0) s.rsl) .dc .out (ctrlPin s 1) false)
      .dd .out (dataPin s 0) (s.dl.getLsbD 4)) .dd .out (dataPin s 1) (s.dl.getLsbD 5))
      .dd .out (dataPin s 2) (s.dl.getLsbD 6)) .dd .out (dataPin s 3) (s.dl.getLsbD 7))
      .dc .out (ctrlPin s 2) true) .edge) .dc .out (ctrlPin s 2) false) .edge)
      .dd .out (dataPin s 0) (s.dl.getLsbD 0)) .dd .out (dataPin s 1) (s.dl.getLsbD 1))
      .dd .out (dataPin s 2) (s.dl.getLsbD 2)) .dd .out (dataPin s 3) (s.dl.getLsbD 3))
      .dc .out (ctrlPin s 2) true) .edge) .dc .out (ctrlPin s 2) false) .edge := by
  simp [transferOps, upperNibbleOps, lowerNibbleOps, pulseOps, advanceOp, microOp, pinAt]

theorem runStraight_transfer_trace (s : State) :
    (runStraight transferOps s).trace = s.trace ++ xferEvents s s.rsl s.dl := by
  rw [runStraight_transfer]
  simp [xferEvents]

theorem runStraight_transfer_i (s : State) : (runStraight transferOps s).i = s.i := by
  rw [runStraight_transfer]; simp

/-- One transfer sends its latched byte. -/
theorem sent_transfer (s : State) (t : State) (h : t = { s with dl := t.dl, rsl := t.rsl }) :
    Sent s (runStraight transferOps t) [(t.rsl, t.dl)] := by
  have hpay : t.payload = s.payload := by rw [h]
  have hdc : t.dispCfg = s.dispCfg := by rw [h]
  have hds : t.dispState = s.dispState := by rw [h]
  have hpar : t.params = s.params := by rw [h]
  have hp : SamePins s t := ⟨hdc, hpar⟩
  have hk : KeypadKept s t := by rw [h]; exact ⟨rfl, rfl, rfl, rfl, rfl, rfl, rfl, rfl, rfl, rfl, rfl⟩
  have hr : RecordsKept s t := by rw [h]; exact ⟨rfl, rfl, rfl, rfl, rfl⟩
  have hb : ∀ p reg n, portBit t p reg n = portBit s p reg n := by rw [h]; intro p reg n; rfl
  rw [runStraight_transfer]
  refine ⟨by simpa using hpay, ?_, ?_, by simpa using ⟨hdc, hds⟩, by simp, ?_, ?_, ?_⟩
  · refine KeypadKept.trans hk ?_
    simp [KeypadKept]
  · refine RecordsKept.trans hr ?_
    simp [RecordsKept]
  · intro rs b hx
    simp at hx
    obtain ⟨rfl, rfl⟩ := hx
    simp
  · intro rs b hx hd
    simp only [List.getLast?_singleton, Option.some.injEq, Prod.mk.injEq] at hx
    obtain ⟨rfl, rfl⟩ := hx
    obtain ⟨hdd, hcc, hsh⟩ := hd
    have e : ∀ a b : Fin 4, (dataPin s a = dataPin s b) = (a = b) := fun a b => propext ⟨hdd a b, fun x => by rw [x]⟩
    have f : ∀ a b : Fin 3, (ctrlPin s a = ctrlPin s b) = (a = b) := fun a b => propext ⟨hcc a b, fun x => by rw [x]⟩
    cases hs : s.params.sharedDisp with
    | false =>
      refine ⟨?_, ?_, ?_, ?_⟩
      · simp [portBit_pinWrite, hpar, hs, portHome, hp.dataPin, hp.ctrlPin, f]
      · simp [portBit_pinWrite, hpar, hs, portHome, hp.dataPin, hp.ctrlPin, f]
      · simp [portBit_pinWrite, hpar, hs, portHome, hp.dataPin, hp.ctrlPin]
      · intro j
        fin_cases j <;> simp [portBit_pinWrite, hpar, hs, portHome, hp.dataPin, hp.ctrlPin, e]
    | true =>
      have g : ∀ (a : Fin 4) (b : Fin 3), (dataPin s a = ctrlPin s b) = False := fun a b => by simpa using hsh hs a b
      have g' : ∀ (a : Fin 4) (b : Fin 3), (ctrlPin s b = dataPin s a) = False := fun a b => by
        simpa using fun x => hsh hs a b x.symm
      refine ⟨?_, ?_, ?_, ?_⟩
      · simp [portBit_pinWrite, hpar, hs, portHome, hp.dataPin, hp.ctrlPin, f, g']
      · simp [portBit_pinWrite, hpar, hs, portHome, hp.dataPin, hp.ctrlPin, f, g']
      · simp [portBit_pinWrite, hpar, hs, portHome, hp.dataPin, hp.ctrlPin]
      · intro j
        fin_cases j <;> simp [portBit_pinWrite, hpar, hs, portHome, hp.dataPin, hp.ctrlPin, e, g]
  · intro p reg n hn
    have hno : ∀ q loc, ((q = .dd ∧ ∃ j, loc = dataPin s j) ∨ (q = .dc ∧ ∃ j, loc = ctrlPin s j)) →
        ¬ (portHome s.params.sharedDisp p = portHome s.params.sharedDisp q ∧ reg = .out ∧ n = loc) := by
      rintro q loc hq ⟨h1, h2, h3⟩
      rcases hq with ⟨rfl, j, rfl⟩ | ⟨rfl, j, rfl⟩
      · exact hn ⟨h2, .inl ⟨h1, j, h3⟩⟩
      · exact hn ⟨h2, .inr ⟨h1, j, h3⟩⟩
    have hd : ∀ j, ¬ (portHome s.params.sharedDisp p = portHome s.params.sharedDisp .dd ∧ reg = .out ∧ n = dataPin s j) :=
      fun j => hno .dd _ (.inl ⟨rfl, j, rfl⟩)
    have hc : ∀ j, ¬ (portHome s.params.sharedDisp p = portHome s.params.sharedDisp .dc ∧ reg = .out ∧ n = ctrlPin s j) :=
      fun j => hno .dc _ (.inr ⟨rfl, j, rfl⟩)
    simp only [portBit_pinWrite, portBit_delay, delay_params, pinWrite_params, hpar, hp.dataPin, hp.ctrlPin, hd, hc, if_false, hb]

theorem runStraight_xfer (s : State) (rs : Level) (b : Byte) :
    runStraight (xferOps rs b) s = runStraight transferOps (setLatch s rs b) := by
  unfold xferOps
  rw [runStraight_cons]
  rfl

/-- `XFER(rs, b)` (R103): what it does to the whole state. -/
theorem sent_xfer (s : State) (rs : Level) (b : Byte) : Sent s (runStraight (xferOps rs b) s) [(rs, b)] := by
  rw [runStraight_xfer]
  exact sent_transfer s (setLatch s rs b) rfl

theorem runStraight_xfer_trace (s : State) (rs : Level) (b : Byte) :
    (runStraight (xferOps rs b) s).trace = s.trace ++ xferEvents s rs b := by
  rw [runStraight_xfer, runStraight_transfer_trace]
  rfl

theorem runStraight_xfer_i (s : State) (rs : Level) (b : Byte) : (runStraight (xferOps rs b) s).i = s.i := by
  rw [runStraight_xfer, runStraight_transfer_i]
  rfl

/-- A completed command that sent these bytes. -/
theorem Sent.complete {s t : State} {p : Payload} {l : List (Level × Byte)} (h : Sent { s with payload := p } t l) :
    DisplaySent s (complete t) l :=
  ⟨⟨rfl, rfl⟩, h.keypad, h.records, h.config, h.nothing, h.latch, h.bus, h.otherBits⟩

end Sys2Proof.Machine
end

