-- ==== Sys2Proof/Laws/Frame.lean ====
section
/-! SUPPORT. What a micro-step, a program and a command leave unchanged. -/

namespace Sys2Proof.Machine

/-- A write of a pin of the port keeps a port's registers within their width (R15, R44). -/
theorem fitsWidth_writePortBit {w : Nat} {p : PortRegs} (reg : Reg) {i : Pin} (v : Level) (h : FitsWidth w p) (hi : i < w) :
    FitsWidth w (writePortBit p reg i v) := by
  obtain ⟨h1, h2, h3⟩ := h
  cases reg
  · exact ⟨setBit_lt v h1 hi, h2, h3⟩
  · exact ⟨h1, setBit_lt v h2 hi, h3⟩
  · exact ⟨h1, h2, setBit_lt v h3 hi⟩

/-- So does a pin write of the machine. -/
theorem portsFit_pinWrite {s : State} (p : Port) (reg : Reg) {i : Pin} (v : Level) (h : PortsFit s)
    (hi : i < s.params.portWidth) : PortsFit (pinWrite s p reg i v) := by
  obtain ⟨⟨a, b, c, d⟩, g⟩ := h
  unfold PortsFit pinWrite emit putPort getPort
  cases portHome s.params.sharedDisp p
  · exact ⟨⟨fitsWidth_writePortBit reg v a hi, b, c, d⟩, g⟩
  · exact ⟨⟨a, fitsWidth_writePortBit reg v b hi, c, d⟩, g⟩
  · exact ⟨⟨a, b, fitsWidth_writePortBit reg v c hi, d⟩, g⟩
  · exact ⟨⟨a, b, c, fitsWidth_writePortBit reg v d hi⟩, g⟩

theorem RecordsKept.refl (s : State) : RecordsKept s s := ⟨rfl, rfl, rfl, rfl, rfl⟩
theorem KeypadKept.refl (s : State) : KeypadKept s s := ⟨rfl, rfl, rfl, rfl, rfl, rfl, rfl, rfl, rfl, rfl, rfl⟩
theorem DisplayKept.refl (s : State) : DisplayKept s s := ⟨rfl, rfl, rfl, rfl, rfl, rfl, rfl⟩

/-- A micro-step of the display, the latch or a delay. -/
def isDisplayOp : MicroOp → Bool
  | .pinWrite (.data _) _ _ | .pinWrite (.ctrl _) _ _ | .pinWriteRsl | .pinWriteDl _ _ | .delay _ | .latch _ _
  | .latchText | .latchDigit | .setI _ | .storeDispConfig | .dispReady => true
  | .pinWrite .rowK _ _ | .pinWrite .rowR _ _ | .pinWrite .colC _ _ | .setR _ | .setK _ | .setC _ | .storeKpConfig
  | .detect _ | .waitRelease _ | .reportKey | .kpReady => false

/-- A micro-step of the keypad. -/
def isKeypadOp : MicroOp → Bool
  | .pinWrite .rowK _ _ | .pinWrite .rowR _ _ | .pinWrite .colC _ _ | .setR _ | .setK _ | .setC _ | .storeKpConfig
  | .detect _ | .waitRelease _ | .reportKey | .kpReady => true
  | .pinWrite (.data _) _ _ | .pinWrite (.ctrl _) _ _ | .pinWriteRsl | .pinWriteDl _ _ | .delay _ | .latch _ _
  | .latchText | .latchDigit | .setI _ | .storeDispConfig | .dispReady => false

/-- A step of detection changes PRESSED, TRACE and the environment alone. -/
theorem resultState_detectFirst (s : State) (c : Fin 6) :
    resultState (detectFirst s c) = { afterSample s c with pressed := (resultState (detectFirst s c)).pressed } := by
  unfold detectFirst
  split
  · rfl
  · split <;> rfl

theorem resultState_detectAgain (s : State) (c : Fin 6) :
    resultState (detectAgain s c) = { afterSample s c with pressed := (resultState (detectAgain s c)).pressed } := by
  unfold detectAgain
  split <;> rfl

/-- No micro-step touches FAULT, REFUSED, the parameters or the host's fields. -/
theorem microOp_records (op : MicroOp) (s : State) : RecordsKept s (resultState (microOp op s)) := by
  cases op with
  | detect c => simp only [microOp]; rw [resultState_detectFirst]; exact ⟨rfl, rfl, rfl, rfl, rfl⟩
  | waitRelease c => simp only [microOp]; rw [resultState_detectAgain]; exact ⟨rfl, rfl, rfl, rfl, rfl⟩
  | reportKey => simp only [microOp]; split <;> exact ⟨rfl, rfl, rfl, rfl, rfl⟩
  | storeKpConfig => simp only [microOp, resultState, storeKp]; split <;> exact ⟨rfl, rfl, rfl, rfl, rfl⟩
  | storeDispConfig => simp only [microOp, resultState, storeDisp]; split <;> exact ⟨rfl, rfl, rfl, rfl, rfl⟩
  | _ => simp [microOp, resultState, RecordsKept]

/-- A micro-step only appends to the trace (R34), at most one event. -/
theorem microOp_trace (op : MicroOp) (s : State) : s.trace <+: (resultState (microOp op s)).trace := by
  cases op with
  | detect c => simp only [microOp]; rw [resultState_detectFirst]; exact List.prefix_append _ _
  | waitRelease c => simp only [microOp]; rw [resultState_detectAgain]; exact List.prefix_append _ _
  | reportKey => simp only [microOp]; split <;> simp [resultState]
  | storeKpConfig => simp only [microOp, resultState, storeKp]; split <;> exact List.prefix_refl _
  | storeDispConfig => simp only [microOp, resultState, storeDisp]; split <;> exact List.prefix_refl _
  | _ => simp [microOp, resultState]

/-- A display micro-step leaves the keypad alone (R4, R20). -/
theorem microOp_display_frame {op : MicroOp} (h : isDisplayOp op = true) (s : State) :
    KeypadKept s (resultState (microOp op s)) := by
  cases op with
  | pinWrite loc reg v =>
    cases loc <;> first
      | cases (h : false = true)
      | simp [microOp, resultState, pinAt, KeypadKept]
  | pinWriteRsl => simp [microOp, resultState, KeypadKept]
  | pinWriteDl j bit => simp [microOp, resultState, KeypadKept]
  | storeDispConfig =>
    simp only [microOp, resultState, storeDisp]
    split <;> exact ⟨rfl, rfl, rfl, rfl, rfl, rfl, rfl, rfl, rfl, rfl, rfl⟩
  | _ =>
    first
      | cases (h : false = true)
      | exact ⟨rfl, rfl, rfl, rfl, rfl, rfl, rfl, rfl, rfl, rfl, rfl⟩

/-- A keypad micro-step leaves the display alone (R4, R20). -/
theorem microOp_keypad_frame {op : MicroOp} (h : isKeypadOp op = true) (s : State) :
    DisplayKept s (resultState (microOp op s)) := by
  cases op with
  | pinWrite loc reg v =>
    cases loc <;> first
      | cases (h : false = true)
      | simp [microOp, resultState, pinAt, DisplayKept]
  | detect c => simp only [microOp]; rw [resultState_detectFirst]; exact ⟨rfl, rfl, rfl, rfl, rfl, rfl, rfl⟩
  | waitRelease c => simp only [microOp]; rw [resultState_detectAgain]; exact ⟨rfl, rfl, rfl, rfl, rfl, rfl, rfl⟩
  | reportKey => simp only [microOp]; split <;> exact ⟨rfl, rfl, rfl, rfl, rfl, rfl, rfl⟩
  | storeKpConfig => simp only [microOp, resultState, storeKp]; split <;> exact ⟨rfl, rfl, rfl, rfl, rfl, rfl, rfl⟩
  | _ => first | cases (h : false = true) | exact ⟨rfl, rfl, rfl, rfl, rfl, rfl, rfl⟩

theorem runOps_records (w : Word) (ops : List MicroOp) (s : State) : RecordsKept s (runOps w ops s) :=
  runOps_keeps (P := RecordsKept s) w ops s (.refl s) (fun op _ t h => h.trans (microOp_records op t))
    fun _ _ _ h => h

theorem runOps_trace (w : Word) (ops : List MicroOp) (s : State) : s.trace <+: (runOps w ops s).trace :=
  runOps_keeps (P := fun t => s.trace <+: t.trace) w ops s (List.prefix_refl _)
    (fun op _ t h => h.trans (microOp_trace op t)) fun _ _ _ h => h

theorem runOps_display_frame (w : Word) (ops : List MicroOp) (s : State) (h : ∀ op ∈ ops, isDisplayOp op = true) :
    KeypadKept s (runOps w ops s) :=
  runOps_keeps (P := KeypadKept s) w ops s (.refl s) (fun op ho t ht => ht.trans (microOp_display_frame (h op ho) t))
    fun _ _ _ h => h

theorem runOps_keypad_frame (w : Word) (ops : List MicroOp) (s : State) (h : ∀ op ∈ ops, isKeypadOp op = true) :
    DisplayKept s (runOps w ops s) :=
  runOps_keeps (P := DisplayKept s) w ops s (.refl s) (fun op ho t ht => ht.trans (microOp_keypad_frame (h op ho) t))
    fun _ _ _ h => h

/-- The two next states a command can answer: a raised fault, or the run of its micro-steps. -/
theorem exec_cases {i : Instr} {s t : State} (h : exec i s = .next t) :
    (∃ code, checkOf i s = some code ∧ t = raiseFault s code (some (encode i))) ∨
    (checkOf i s = none ∧ t = runOps (encode i) (programOf i s.params) { s with payload := payloadOf i }) := by
  rw [exec_eq_runCommand] at h
  rcases runCommand_cases (encode i) (payloadOf i) (checkOf i s) (programOf i s.params) s with ⟨code, h1, h2⟩ | ⟨h1, h2⟩
  · rw [h2] at h
    exact .inl ⟨code, h1, by cases h; rfl⟩
  · rw [h2] at h
    exact .inr ⟨h1, by cases h; rfl⟩

/-- Every command answers a next state. -/
theorem exec_next (i : Instr) (s : State) : ∃ t, exec i s = .next t := by
  rw [exec_eq_runCommand]
  rcases runCommand_cases (encode i) (payloadOf i) (checkOf i s) (programOf i s.params) s with ⟨code, _, h2⟩ | ⟨_, h2⟩
  · exact ⟨_, h2⟩
  · exact ⟨_, h2⟩

theorem kpInitOps_keypad : ∀ op ∈ kpInitOps, isKeypadOp op = true := by decide
theorem kpReadOps_keypad : ∀ op ∈ kpReadOps, isKeypadOp op = true := by decide
theorem kpDetectOps_keypad (col : Byte) : ∀ op ∈ kpDetectOps col, isKeypadOp op = true := by
  unfold kpDetectOps
  split <;> simp [isKeypadOp]

theorem transferOps_display : ∀ op ∈ transferOps, isDisplayOp op = true := by decide

theorem xferOps_display (rs : Level) (b : Byte) : ∀ op ∈ xferOps rs b, isDisplayOp op = true := by
  intro op h
  rcases List.mem_cons.mp h with rfl | h
  · rfl
  · exact transferOps_display op h

theorem positionOps_display (p : Params) (row col : Nat) : ∀ op ∈ positionOps p row col, isDisplayOp op = true := by
  unfold positionOps
  split
  · exact xferOps_display _ _
  · simp

theorem printStringOps_display (p : Params) (text : List Byte) :
    ∀ op ∈ printStringOps p text, isDisplayOp op = true := by
  intro op h
  obtain ⟨n, _, h⟩ := List.mem_flatMap.mp h
  unfold printCharAtOps at h
  simp only [List.mem_cons, List.mem_append] at h
  rcases h with rfl | h | rfl | h
  · rfl
  · split at h
    · exact positionOps_display _ _ _ op h
    · simp at h
  · rfl
  · exact transferOps_display op h

theorem printNumberOps_display (v : Int) : ∀ op ∈ printNumberOps v, isDisplayOp op = true := by
  intro op h
  obtain ⟨n, _, h⟩ := List.mem_flatMap.mp h
  simp only [List.mem_cons] at h
  rcases h with rfl | rfl | h
  · rfl
  · rfl
  · exact transferOps_display op h

theorem dispClearOps_display (p : Params) : ∀ op ∈ dispClearOps p, isDisplayOp op = true := by
  intro op h
  simp only [dispClearOps, List.mem_append, List.mem_cons, List.not_mem_nil, or_false] at h
  rcases h with h | rfl | h | rfl
  · exact xferOps_display _ _ op h
  · rfl
  · exact xferOps_display _ _ op h
  · rfl

theorem bootOps_display (p : Params) : ∀ op ∈ bootOps p, isDisplayOp op = true := by
  intro op h
  obtain ⟨m, _, h⟩ := List.mem_flatMap.mp h
  simp only [List.mem_append, List.mem_cons, List.not_mem_nil, or_false] at h
  rcases h with h | rfl
  · exact xferOps_display _ _ op h
  · rfl

theorem dispInitOps_display (p : Params) : ∀ op ∈ dispInitOps p, isDisplayOp op = true := by
  intro op h
  simp only [dispInitOps, dispDirOps, List.mem_append, List.mem_cons, List.mem_map, List.not_mem_nil, or_false] at h
  rcases h with rfl | (⟨j, _, rfl⟩ | ⟨j, _, rfl⟩) | rfl | h | rfl
  · rfl
  · rfl
  · rfl
  · rfl
  · exact bootOps_display p op h
  · rfl

/-- The micro-steps of a command belong to its unit (R4). -/
theorem programOf_unit (i : Instr) (p : Params) :
    ∀ op ∈ programOf i p, (if isKeypad i then isKeypadOp op else isDisplayOp op) = true := by
  cases i with
  | kpInit cfg => exact kpInitOps_keypad
  | kpRead => exact kpReadOps_keypad
  | kpDetect col => exact kpDetectOps_keypad col
  | dispInit cfg => exact dispInitOps_display p
  | dispSendCommand code => exact xferOps_display _ _
  | dispPrintChar code => exact xferOps_display _ _
  | dispPrintCharTo row col code =>
    exact fun op h => (List.mem_append.mp h).elim (positionOps_display _ _ _ op) (xferOps_display _ _ op)
  | dispPrintString text => exact printStringOps_display _ _
  | dispPrintStringTo row col text =>
    exact fun op h => (List.mem_append.mp h).elim (positionOps_display _ _ _ op) (printStringOps_display _ _ op)
  | dispMoveCursor row col => exact positionOps_display _ _ _
  | dispClear => exact dispClearOps_display _
  | dispReturnHome => exact xferOps_display _ _
  | dispPrintNumber v => exact printNumberOps_display _
  | dispPrintNumberTo row col v =>
    exact fun op h => (List.mem_append.mp h).elim (positionOps_display _ _ _ op) (printNumberOps_display _ op)

end Sys2Proof.Machine
end

