-- ==== Sys2Proof/Laws/Init.lean ====
section
/-! SUPPORT. What KP_INIT (R82) and DISP_INIT (R114) do to the ports and the configuration store. -/

namespace Sys2Proof.Machine

/-- Writes of single port bits, in order. -/
def writeAll (ws : List (Port × Reg × Pin × Level)) (s : State) : State :=
  ws.foldl (fun t x => pinWrite t x.1 x.2.1 x.2.2.1 x.2.2.2) s

@[simp] theorem writeAll_nil (s : State) : writeAll [] s = s := rfl
@[simp] theorem writeAll_cons (x : Port × Reg × Pin × Level) (ws : List (Port × Reg × Pin × Level)) (s : State) :
    writeAll (x :: ws) s = writeAll ws (pinWrite s x.1 x.2.1 x.2.2.1 x.2.2.2) := rfl
theorem writeAll_append (a b : List (Port × Reg × Pin × Level)) (s : State) :
    writeAll (a ++ b) s = writeAll b (writeAll a s) := by simp [writeAll, List.foldl_append]

/-- Port writes change the ports and TRACE alone. -/
theorem writeAll_frame (ws : List (Port × Reg × Pin × Level)) (s : State) :
    writeAll ws s =
      { s with
        kr := (writeAll ws s).kr, kc := (writeAll ws s).kc, dd := (writeAll ws s).dd, dc := (writeAll ws s).dc
        trace := s.trace ++ ws.map fun x => .w x.1 x.2.1 x.2.2.1 x.2.2.2 } := by
  induction ws generalizing s with
  | nil => simp
  | cons x ws ih =>
    rw [writeAll_cons, ih]
    simp only [pinWrite_kpCfg, pinWrite_dispCfg, pinWrite_kpState, pinWrite_dispState, pinWrite_keyout, pinWrite_pressed,
      pinWrite_dl, pinWrite_rsl, pinWrite_seq, pinWrite_r, pinWrite_k, pinWrite_c, pinWrite_i, pinWrite_payload,
      pinWrite_fault, pinWrite_refused, pinWrite_params, pinWrite_host, pinWrite_hostLog, pinWrite_env,
      pinWrite_drawCount, pinWrite_trace, List.map_cons, List.append_assoc, List.cons_append, List.nil_append]

/-- A bit no write of the list names is as before. -/
theorem writeAll_other (ws : List (Port × Reg × Pin × Level)) (s : State) (p : Port) (reg : Reg) (n : Pin)
    (h : ∀ x ∈ ws, ¬ (portHome s.params.sharedDisp p = portHome s.params.sharedDisp x.1 ∧ reg = x.2.1 ∧ n = x.2.2.1)) :
    portBit (writeAll ws s) p reg n = portBit s p reg n := by
  induction ws generalizing s with
  | nil => rfl
  | cons x ws ih =>
    rw [writeAll_cons, ih _ fun y hy => by rw [pinWrite_params]; exact h y (by simp [hy]), portBit_pinWrite,
      if_neg (h x (by simp))]

/-- A bit that some write of the list names, and that every write of the list naming it sets to `v`, is `v`. -/
theorem writeAll_bit (ws : List (Port × Reg × Pin × Level)) (s : State) (p : Port) (reg : Reg) (n : Pin) (v : Level)
    (hm : ∃ x ∈ ws, portHome s.params.sharedDisp p = portHome s.params.sharedDisp x.1 ∧ reg = x.2.1 ∧ n = x.2.2.1)
    (hv : ∀ x ∈ ws, portHome s.params.sharedDisp p = portHome s.params.sharedDisp x.1 → reg = x.2.1 → n = x.2.2.1 →
      x.2.2.2 = v) :
    portBit (writeAll ws s) p reg n = v := by
  induction ws generalizing s with
  | nil => simp at hm
  | cons x ws ih =>
    rw [writeAll_cons]
    by_cases h : ∃ y ∈ ws, portHome s.params.sharedDisp p = portHome s.params.sharedDisp y.1 ∧ reg = y.2.1 ∧ n = y.2.2.1
    · exact ih _ (by rw [pinWrite_params]; exact h) fun y hy => by rw [pinWrite_params]; exact hv y (by simp [hy])
    · rw [writeAll_other _ _ _ _ _ fun y hy hh => h ⟨y, hy, by rw [pinWrite_params] at hh; exact hh⟩, portBit_pinWrite]
      obtain ⟨y, hy, hh⟩ := hm
      rcases List.mem_cons.mp hy with rfl | hy
      · rw [if_pos hh]
        exact hv y (by simp) hh.1 hh.2.1 hh.2.2
      · exact absurd ⟨y, hy, hh⟩ h

/-- The port writes of KP_INIT (R82). -/
def kpInitWrites (t : KpConfig) : List (Port × Reg × Pin × Level) :=
  ((List.finRange 6).flatMap fun c => [(.kc, .dir, t.colPins[c], false), (.kc, .pull, t.colPins[c], true)]) ++
  ((List.finRange 4).flatMap fun k => [(.kr, .dir, t.rowPins[k], true), (.kr, .out, t.rowPins[k], true)])

theorem kpInitWrites_events (t : KpConfig) :
    (kpInitWrites t).map (fun x => Event.w x.1 x.2.1 x.2.2.1 x.2.2.2) = kpInitEvents t := by
  simp [kpInitWrites, kpInitEvents, List.map_flatMap]

/-- The loop registers of KP_INIT. -/
def withKC (s : State) (k : Fin 4) (c : Fin 6) : State := { s with k := k, c := c }

theorem runStraight_initColumn (k : Fin 4) (c c' : Fin 6) (ops : List MicroOp) (t : KpConfig) (s : State)
    (h : s.kpCfg = some t) :
    runStraight (initColumnOps c ++ ops) (withKC s k c') =
      runStraight ops (withKC (writeAll [(.kc, .dir, t.colPins[c], false), (.kc, .pull, t.colPins[c], true)] s) k c) := by
  have hp : colPin s c = t.colPins[c] := by simp only [colPin, kpTables, h, Option.getD_some]
  simp only [writeAll_cons, writeAll_nil, ← hp]
  rfl

theorem runStraight_initRow (k k' : Fin 4) (c : Fin 6) (ops : List MicroOp) (t : KpConfig) (s : State)
    (h : s.kpCfg = some t) :
    runStraight (initRowOps k ++ ops) (withKC s k' c) =
      runStraight ops (withKC (writeAll [(.kr, .dir, t.rowPins[k], true), (.kr, .out, t.rowPins[k], true)] s) k c) := by
  have hp : rowPin s k = t.rowPins[k] := by simp only [rowPin, kpTables, h, Option.getD_some]
  simp only [writeAll_cons, writeAll_nil, ← hp]
  rfl

theorem runStraight_initColumns (cs : List (Fin 6)) (k : Fin 4) (c' : Fin 6) (ops : List MicroOp) (t : KpConfig)
    (s : State) (h : s.kpCfg = some t) :
    ∃ c, runStraight (cs.flatMap initColumnOps ++ ops) (withKC s k c') =
      runStraight ops (withKC (writeAll
        (cs.flatMap fun c => [(.kc, .dir, t.colPins[c], false), (.kc, .pull, t.colPins[c], true)]) s) k c) := by
  induction cs generalizing s c' with
  | nil => exact ⟨c', rfl⟩
  | cons c cs ih =>
    obtain ⟨d, hd⟩ := ih c (writeAll [(.kc, .dir, t.colPins[c], false), (.kc, .pull, t.colPins[c], true)] s)
      (by rw [writeAll_frame]; exact h)
    refine ⟨d, ?_⟩
    rw [List.flatMap_cons, List.append_assoc, runStraight_initColumn k c c' _ t s h, hd, List.flatMap_cons, writeAll_append]

theorem runStraight_initRows (ks : List (Fin 4)) (k' : Fin 4) (c : Fin 6) (ops : List MicroOp) (t : KpConfig)
    (s : State) (h : s.kpCfg = some t) :
    ∃ k, runStraight (ks.flatMap initRowOps ++ ops) (withKC s k' c) =
      runStraight ops (withKC (writeAll
        (ks.flatMap fun k => [(.kr, .dir, t.rowPins[k], true), (.kr, .out, t.rowPins[k], true)]) s) k c) := by
  induction ks generalizing s k' with
  | nil => exact ⟨k', rfl⟩
  | cons k ks ih =>
    obtain ⟨d, hd⟩ := ih k (writeAll [(.kr, .dir, t.rowPins[k], true), (.kr, .out, t.rowPins[k], true)] s)
      (by rw [writeAll_frame]; exact h)
    refine ⟨d, ?_⟩
    rw [List.flatMap_cons, List.append_assoc, runStraight_initRow k k' c _ t s h, hd, List.flatMap_cons, writeAll_append]

/-- KP_INIT stores the tables, makes its 20 port writes, and sets READY (R82). -/
theorem runStraight_kpInit (s : State) (cfg : KpCfg) (h : s.payload = .kpcfg cfg) :
    ∃ k c, runStraight kpInitOps s =
      { withKC (writeAll (kpInitWrites (kpConfigOf cfg)) { s with kpCfg := some (kpConfigOf cfg) }) k c with
        kpState := .ready } := by
  have h0 : advanceOp .storeKpConfig s = withKC { s with kpCfg := some (kpConfigOf cfg) } s.k s.c := by
    simp only [advanceOp, microOp, storeKp, h]
    rfl
  obtain ⟨c, hc⟩ := runStraight_initColumns (List.finRange 6) s.k s.c ((List.finRange 4).flatMap initRowOps ++ [.kpReady])
    (kpConfigOf cfg) { s with kpCfg := some (kpConfigOf cfg) } rfl
  obtain ⟨k, hk⟩ := runStraight_initRows (List.finRange 4) s.k c [.kpReady] (kpConfigOf cfg)
    (writeAll ((List.finRange 6).flatMap fun c =>
      [(.kc, .dir, (kpConfigOf cfg).colPins[c], false), (.kc, .pull, (kpConfigOf cfg).colPins[c], true)])
      { s with kpCfg := some (kpConfigOf cfg) }) (by rw [writeAll_frame])
  refine ⟨k, c, ?_⟩
  rw [kpInitOps, runStraight_cons, h0, List.append_assoc, hc, hk, kpInitWrites, writeAll_append]
  rfl

/-- The DIR writes of DISP_INIT (R114). -/
def dispInitWrites (t : DispConfig) : List (Port × Reg × Pin × Level) :=
  ((List.finRange 4).map fun j => (.dd, .dir, t.dataPins[j], true)) ++
  ((List.finRange 3).map fun j => (.dc, .dir, t.ctrlPins[j], true))

/-- DISP_INIT stores the tables, makes its 7 DIR writes, waits, and boots the display (R114). -/
theorem runStraight_dispInit (s : State) (cfg : DispCfg) (p : Params) (h : s.payload = .dispcfg cfg) :
    runStraight (dispInitOps p) s =
      { runStraight (bootOps p)
          (delay (writeAll (dispInitWrites (dispConfigOf cfg)) { s with dispCfg := some (dispConfigOf cfg) }) .power) with
        dispState := .ready } := by
  have h0 : advanceOp .storeDispConfig s = { s with dispCfg := some (dispConfigOf cfg) } := by
    simp only [advanceOp, microOp, storeDisp, h]
  have h1 : ∀ u : State, u.dispCfg = some (dispConfigOf cfg) →
      runStraight dispDirOps u = writeAll (dispInitWrites (dispConfigOf cfg)) u := by
    intro u hu
    have hd : ∀ j, dataPin u j = (dispConfigOf cfg).dataPins[j] := fun j => by
      simp only [dataPin, dispTables, hu, Option.getD_some]
    have hc : ∀ j, ctrlPin u j = (dispConfigOf cfg).ctrlPins[j] := fun j => by
      simp only [ctrlPin, dispTables, hu, Option.getD_some]
    simp only [dispDirOps, dispInitWrites, List.finRange_succ, List.finRange_zero, List.map_cons, List.map_nil,
      List.cons_append, List.nil_append, runStraight_cons, runStraight_nil, writeAll_cons, writeAll_nil, advanceOp,
      microOp, pinAt, dataPin_pinWrite, ctrlPin_pinWrite, hd, hc]
  rw [dispInitOps, runStraight_cons, h0, runStraight_append, h1 _ rfl, runStraight_cons, runStraight_append]
  rfl

/-- The bootstrap sends its commands with a CMD delay after each (R114, R116). -/
theorem sent_boot (p : Params) (l : List (Fin 5)) (u : State) :
    Sent u (runStraight (l.flatMap fun m => xferOps false p.bootCmds[m] ++ [.delay .cmd]) u)
        (l.map fun m => (false, p.bootCmds[m])) ∧
      (runStraight (l.flatMap fun m => xferOps false p.bootCmds[m] ++ [.delay .cmd]) u).trace =
        u.trace ++ l.flatMap (fun m => xferEvents u false p.bootCmds[m] ++ [.d .cmd]) ∧
      (runStraight (l.flatMap fun m => xferOps false p.bootCmds[m] ++ [.delay .cmd]) u).i = u.i := by
  induction l generalizing u with
  | nil =>
    simp only [List.flatMap_nil, runStraight_nil, List.map_nil, List.append_nil]
    exact ⟨Sent.of_trace_i u u.trace u.i, trivial, trivial⟩
  | cons m l ih =>
    have h1 := sent_xfer u false p.bootCmds[m]
    have t1 := runStraight_xfer_trace u false p.bootCmds[m]
    have i1 := runStraight_xfer_i u false p.bootCmds[m]
    have e : ∀ v : State, runStraight [.delay .cmd] v = delay v .cmd := fun _ => rfl
    rw [List.flatMap_cons, runStraight_append, runStraight_append, e]
    generalize runStraight (xferOps false p.bootCmds[m]) u = v at *
    have h2 : Sent u (delay v .cmd) [(false, p.bootCmds[m])] := by simpa using h1.append (sent_delay v .cmd)
    obtain ⟨a, b, c⟩ := ih (delay v .cmd)
    refine ⟨?_, ?_, c.trans i1⟩
    · rw [List.map_cons]
      exact h2.append a
    · rw [b, delay_trace, t1]
      simp only [h2.samePins.xferEvents, List.flatMap_cons, List.append_assoc]

end Sys2Proof.Machine
end

