-- ==== Sys2Proof/Laws/Keypad.lean ====
section
/-! SUPPORT. What a scan does: SelectRow (R77), a column's sample (R88, R89), the columns of a row and the rows
of KP_READ (R91). -/

namespace Sys2Proof.Machine

/-- The state after a sample of column `c` of KP_READ that reads open. -/
def openSample (s : State) (c : Fin 6) : State := { afterSample s c with c := c, pressed := some false }

/-- The state after `SelectRow(r)` of KP_READ (R77). -/
def selectRow (s : State) (r : Fin 4) : State := runStraight (.setR r :: selectRowOps) s

/-- The loop registers of a scan. -/
def withRK (s : State) (r k : Fin 4) : State := { s with r := r, k := k }

theorem runStraight_setK (r k n : Fin 4) (ops : List MicroOp) (s : State) :
    runStraight (.setK n :: .pinWrite .rowK .out true :: ops) (withRK s r k) =
      runStraight ops (withRK (pinWrite s .kr .out (rowPin s n) true) r n) := rfl

theorem selectRow_eq (s : State) (r : Fin 4) :
    selectRow s r =
      withRK (pinWrite (pinWrite (pinWrite (pinWrite (pinWrite s .kr .out (rowPin s 0) true) .kr .out (rowPin s 1) true)
          .kr .out (rowPin s 2) true) .kr .out (rowPin s 3) true) .kr .out (rowPin s r) false) r 3 := by
  have h0 : selectRow s r = runStraight selectRowOps (withRK s r s.k) := rfl
  have h1 : ∀ u : State, runStraight [.pinWrite .rowR .out false] (withRK u r 3) =
      withRK (pinWrite u .kr .out (rowPin u r) false) r 3 := fun _ => rfl
  rw [h0, selectRowOps, runStraight_setK, runStraight_setK, runStraight_setK, runStraight_setK, h1]
  simp only [rowPin_pinWrite]

/-- `SelectRow(r)` changes the port KR, the loop registers and TRACE alone. -/
theorem selectRow_frame (s : State) (r : Fin 4) :
    selectRow s r =
      { s with kr := (selectRow s r).kr, r := r, k := 3, trace := s.trace ++ selectEvents s r } := by
  rw [selectRow_eq]
  simp only [withRK, pinWrite, emit, putPort, portHome, getPort, rowPin, kpTables, selectEvents, List.append_assoc,
    List.cons_append, List.nil_append]

@[simp] theorem rowPin_selectRow (s : State) (r k : Fin 4) : rowPin (selectRow s r) k = rowPin s k := by
  rw [selectRow_frame]; rfl
@[simp] theorem colPin_selectRow (s : State) (r : Fin 4) (c : Fin 6) : colPin (selectRow s r) c = colPin s c := by
  rw [selectRow_frame]; rfl

/-- What `SelectRow(r)` does to the bits of KR (R77). -/
theorem portBit_selectRow (s : State) (r : Fin 4) (reg : Reg) (n : Pin) :
    portBit (selectRow s r) .kr reg n =
      if reg = .out ∧ n = rowPin s r then false
      else if reg = .out ∧ (n = rowPin s 3 ∨ n = rowPin s 2 ∨ n = rowPin s 1 ∨ n = rowPin s 0) then true
      else portBit s .kr reg n := by
  have h : portBit (selectRow s r) .kr reg n = portBit (pinWrite (pinWrite (pinWrite (pinWrite (pinWrite s .kr .out (rowPin s 0) true) .kr .out (rowPin s 1) true)
          .kr .out (rowPin s 2) true) .kr .out (rowPin s 3) true) .kr .out (rowPin s r) false) .kr reg n := by
    rw [selectRow_eq]; exact portBit_congr .kr reg n rfl rfl rfl rfl rfl
  rw [h]
  simp only [portBit_pinWrite, true_and]
  by_cases ho : reg = .out
  · subst ho
    simp only [true_and]
    split_ifs <;> first | rfl | tauto
  · simp [ho]

/-- After `SelectRow(r)` row `r` alone is low among the rows. -/
theorem portBit_selectRow_row (s : State) (r k : Fin 4) (h : RowPinsDistinct s) :
    portBit (selectRow s r) .kr .out (rowPin s k) = decide (k ≠ r) := by
  rw [portBit_selectRow]
  by_cases hk : k = r
  · simp [hk]
  · have hn : rowPin s k ≠ rowPin s r := fun e => hk (h k r e)
    have hm : rowPin s k = rowPin s 3 ∨ rowPin s k = rowPin s 2 ∨ rowPin s k = rowPin s 1 ∨ rowPin s k = rowPin s 0 := by
      fin_cases k <;> simp
    simp [hk, hn, hm]

/-- A run that reaches `SelectRow(r)` goes on after it. -/
theorem runOps_selectRow (w : Word) (r : Fin 4) (rest : List MicroOp) (s : State) :
    runOps w (.setR r :: (selectRowOps ++ rest)) s = runOps w rest (selectRow s r) :=
  runOps_straight_append w (.setR r :: selectRowOps) rest s (by
    intro op h
    rcases List.mem_cons.mp h with rfl | h
    · rfl
    · exact (by decide : ∀ op ∈ selectRowOps, isStraight op = true) op h)

/-- The loop register `c` plays no part in a sample. -/
theorem drawSample_setC (s : State) (n c : Fin 6) : drawSample { s with c := n } c = drawSample s c := rfl

/-- What a sample that reads open and one that reads closed do to a scan (R88, R89, R91). -/
theorem runOps_column_open (w : Word) (c : Fin 6) (rest : List MicroOp) (s : State) (h : sampleValue s c = true) :
    runOps w (readColumnOps c ++ rest) s = runOps w rest (openSample s c) := by
  have h' : sampleValue { s with c := c } c = true := h
  simp only [readColumnOps, List.cons_append, List.nil_append, runOps, microOp, detectFirst, h', readsClosed]
  cases s.params.detectMode <;> rfl

theorem runOps_column_single (w : Word) (c : Fin 6) (rest : List MicroOp) (s : State)
    (hm : s.params.detectMode = .singleSample) (h : sampleValue s c = false) :
    runOps w (readColumnOps c ++ rest) s =
      complete (writeKeyout { afterSample s c with c := c, pressed := some true } (keySymbol s s.r c)) := by
  have h' : sampleValue { s with c := c } c = false := h
  simp only [readColumnOps, List.cons_append, List.nil_append, runOps, microOp, detectFirst, h', hm, readsClosed]
  rfl

theorem runOps_column_blocking (w : Word) (c : Fin 6) (rest : List MicroOp) (s : State)
    (hm : s.params.detectMode = .blockingRelease) (h : sampleValue s c = false) :
    runOps w (readColumnOps c ++ rest) s =
      { afterSample s c with c := c, seq := .run w (.at (.waitRelease c :: .reportKey :: rest)) } := by
  have h' : sampleValue { s with c := c } c = false := h
  simp only [readColumnOps, List.cons_append, List.nil_append, runOps, microOp, detectFirst, h', hm, readsClosed]
  rfl

/-- Every sample of these columns reads open, one after another. -/
def AllOpen (s : State) : List (Fin 6) → Prop
  | [] => True
  | c :: cs => sampleValue s c = true ∧ AllOpen (openSample s c) cs

theorem runOps_columns_open (w : Word) (cs : List (Fin 6)) (rest : List MicroOp) (s : State) (h : AllOpen s cs) :
    runOps w (cs.flatMap readColumnOps ++ rest) s = runOps w rest (cs.foldl openSample s) := by
  induction cs generalizing s with
  | nil => rfl
  | cons c cs ih =>
    rw [List.flatMap_cons, List.append_assoc, runOps_column_open w c _ s h.1]
    exact ih _ h.2

/-- Either every sample of the columns reads open, or there is a first one that reads closed. -/
theorem allOpen_or_first (s : State) (cs : List (Fin 6)) :
    AllOpen s cs ∨ ∃ pre c post, cs = pre ++ c :: post ∧ AllOpen s pre ∧ sampleValue (pre.foldl openSample s) c = false := by
  induction cs generalizing s with
  | nil => exact .inl trivial
  | cons c cs ih =>
    cases h : sampleValue s c with
    | false => exact .inr ⟨[], c, cs, rfl, trivial, h⟩
    | true =>
      rcases ih (openSample s c) with h1 | ⟨pre, d, post, e, h1, h2⟩
      · exact .inl ⟨h, h1⟩
      · exact .inr ⟨c :: pre, d, post, by rw [e]; rfl, ⟨h, h1⟩, h2⟩

/-- The samples of columns change PRESSED, `c`, TRACE and the environment alone. -/
theorem openSamples_frame (cs : List (Fin 6)) (s : State) :
    cs.foldl openSample s =
      { s with
        c := (cs.foldl openSample s).c
        pressed := if cs = [] then s.pressed else some false
        env := (cs.foldl openSample s).env
        drawCount := (cs.foldl openSample s).drawCount
        trace := (cs.foldl openSample s).trace } := by
  induction cs generalizing s with
  | nil => rfl
  | cons c cs ih =>
    rw [List.foldl_cons, ih]
    simp only [openSample, afterSample, emit, reduceCtorEq, if_false]
    split <;> rfl

theorem openSamples_trace (cs : List (Fin 6)) (s : State) (h : AllOpen s cs) :
    (cs.foldl openSample s).trace = s.trace ++ cs.map fun c => .s .kc (colPin s c) true := by
  induction cs generalizing s with
  | nil => simp
  | cons c cs ih =>
    rw [List.foldl_cons, ih _ h.2]
    have e : (openSample s c).trace = s.trace ++ [.s .kc (colPin s c) true] := by
      rw [← h.1]; rfl
    rw [e]
    simp [colPin, kpTables, openSample, afterSample, emit]

/-- One row of a scan whose samples all read open. -/
def openRow (s : State) (r : Fin 4) : State := (List.finRange 6).foldl openSample (selectRow s r)

theorem runOps_row_open (w : Word) (r : Fin 4) (rest : List MicroOp) (s : State)
    (h : AllOpen (selectRow s r) (List.finRange 6)) :
    runOps w (readRowOps r ++ rest) s = runOps w rest (openRow s r) := by
  rw [readRowOps, List.cons_append, List.append_assoc, runOps_selectRow, runOps_columns_open _ _ _ _ h]
  rfl

theorem openRow_pressed (s : State) (r : Fin 4) : (openRow s r).pressed = some false := by
  rw [openRow, openSamples_frame]
  rfl

theorem openRow_trace (s : State) (r : Fin 4) (h : AllOpen (selectRow s r) (List.finRange 6)) :
    (openRow s r).trace = s.trace ++ (selectEvents s r ++ openEvents s 6) := by
  rw [openRow, openSamples_trace _ _ h, selectRow_frame]
  simp only [List.append_assoc]
  rfl

/-- Every sample of these rows reads open. -/
def AllRowsOpen (s : State) : List (Fin 4) → Prop
  | [] => True
  | r :: rs => AllOpen (selectRow s r) (List.finRange 6) ∧ AllRowsOpen (openRow s r) rs

theorem runOps_rows_open (w : Word) (rs : List (Fin 4)) (rest : List MicroOp) (s : State) (h : AllRowsOpen s rs) :
    runOps w (rs.flatMap readRowOps ++ rest) s = runOps w rest (rs.foldl openRow s) := by
  induction rs generalizing s with
  | nil => rfl
  | cons r rs ih =>
    rw [List.flatMap_cons, List.append_assoc, runOps_row_open w r _ s h.1]
    exact ih _ h.2

/-- What a scan keeps: all but KR's OUT bits at the row pins, the loop registers, PRESSED, the environment and
TRACE. -/
structure ScanKept (s t : State) : Prop where
  same : t = { s with
    kr := t.kr, r := t.r, k := t.k, c := t.c, pressed := t.pressed, env := t.env, drawCount := t.drawCount, trace := t.trace }
  bits : ∀ (reg : Reg) (n : Pin), (reg ≠ .out ∨ ∀ k : Fin 4, n ≠ rowPin s k) → portBit t .kr reg n = portBit s .kr reg n

theorem ScanKept.refl (s : State) : ScanKept s s := ⟨rfl, fun _ _ _ => rfl⟩

theorem ScanKept.rowPin {s t : State} (h : ScanKept s t) (k : Fin 4) : rowPin t k = rowPin s k := by
  rw [h.same]; rfl
theorem ScanKept.colPin {s t : State} (h : ScanKept s t) (c : Fin 6) : colPin t c = colPin s c := by
  rw [h.same]; rfl
theorem ScanKept.keySymbol {s t : State} (h : ScanKept s t) (r : Fin 4) (c : Fin 6) : keySymbol t r c = keySymbol s r c := by
  rw [h.same]; rfl
theorem ScanKept.selectEvents {s t : State} (h : ScanKept s t) (r : Fin 4) : selectEvents t r = selectEvents s r := by
  simp only [Machine.selectEvents, h.rowPin]
theorem ScanKept.openEvents {s t : State} (h : ScanKept s t) (n : Nat) : openEvents t n = openEvents s n := by
  simp only [Machine.openEvents, h.colPin]

theorem ScanKept.trans {s t u : State} (a : ScanKept s t) (b : ScanKept t u) : ScanKept s u := by
  refine ⟨?_, fun reg n h => (b.bits reg n (h.imp_right fun h k => by rw [a.rowPin]; exact h k)).trans (a.bits reg n h)⟩
  have hb := b.same
  rw [a.same] at hb
  exact hb

theorem ScanKept.display {s t : State} (h : ScanKept s t) : DisplayKept s t := by
  rw [h.same]; exact ⟨rfl, rfl, rfl, rfl, rfl, rfl, rfl⟩
theorem ScanKept.records {s t : State} (h : ScanKept s t) : RecordsKept s t := by
  rw [h.same]; exact ⟨rfl, rfl, rfl, rfl, rfl⟩

theorem scanKept_selectRow (s : State) (r : Fin 4) : ScanKept s (selectRow s r) := by
  refine ⟨by rw [selectRow_frame], fun reg n h => ?_⟩
  rw [portBit_selectRow]
  rcases h with h | h
  · simp [h]
  · simp [h]

theorem scanKept_openSamples (cs : List (Fin 6)) (s : State) : ScanKept s (cs.foldl openSample s) := by
  induction cs generalizing s with
  | nil => exact .refl s
  | cons c cs ih =>
    have h : ScanKept s (openSample s c) := ⟨rfl, fun _ _ _ => rfl⟩
    exact h.trans (ih (openSample s c))

theorem scanKept_openRow (s : State) (r : Fin 4) : ScanKept s (openRow s r) :=
  (scanKept_selectRow s r).trans (scanKept_openSamples _ _)

theorem scanKept_openRows (rs : List (Fin 4)) (s : State) : ScanKept s (rs.foldl openRow s) := by
  induction rs generalizing s with
  | nil => exact .refl s
  | cons r rs ih => exact (scanKept_openRow s r).trans (ih _)

theorem openRows_trace (rs : List (Fin 4)) (s : State) (h : AllRowsOpen s rs) :
    (rs.foldl openRow s).trace = s.trace ++ rs.flatMap fun r => selectEvents s r ++ openEvents s 6 := by
  induction rs generalizing s with
  | nil => simp
  | cons r rs ih =>
    have hk := scanKept_openRow s r
    rw [List.foldl_cons, ih _ h.2, openRow_trace s r h.1]
    simp only [hk.selectEvents, hk.openEvents, List.flatMap_cons, List.append_assoc]

/-- The last row of a scan. -/
theorem openRows_last (s : State) :
    (List.finRange 4).foldl openRow s = openRow (((List.finRange 4).take 3).foldl openRow s) 3 := by
  have h : List.finRange 4 = (List.finRange 4).take 3 ++ [3] := by decide
  conv_lhs => rw [h, List.foldl_append]
  rw [List.foldl_cons, List.foldl_nil]

/-- Either every sample of the scan reads open, or there is a first one that reads closed. -/
theorem allRowsOpen_or_first (s : State) (rs : List (Fin 4)) :
    AllRowsOpen s rs ∨ ∃ pre r post, rs = pre ++ r :: post ∧ AllRowsOpen s pre ∧
      ¬ AllOpen (selectRow (pre.foldl openRow s) r) (List.finRange 6) := by
  induction rs generalizing s with
  | nil => exact .inl trivial
  | cons r rs ih =>
    by_cases h : AllOpen (selectRow s r) (List.finRange 6)
    · rcases ih (openRow s r) with h1 | ⟨pre, d, post, e, h1, h2⟩
      · exact .inl ⟨h, h1⟩
      · exact .inr ⟨r :: pre, d, post, by rw [e]; rfl, ⟨h, h1⟩, h2⟩
    · exact .inr ⟨[], r, rs, rfl, trivial, h⟩

/-- The state of a scan just before the first sample of key (r, c), every sample before it open. -/
def beforeKey (s : State) (r : Fin 4) (c : Fin 6) : State :=
  ((List.finRange 6).take c.val).foldl openSample (selectRow (((List.finRange 4).take r.val).foldl openRow s) r)

/-- Every sample of a scan before that of key (r, c) reads open. -/
def OpenBefore (s : State) (r : Fin 4) (c : Fin 6) : Prop :=
  AllRowsOpen s ((List.finRange 4).take r.val) ∧
  AllOpen (selectRow (((List.finRange 4).take r.val).foldl openRow s) r) ((List.finRange 6).take c.val)

/-- What is left of KP_READ after the sample of key (r, c). -/
def kpReadAfter (r : Fin 4) (c : Fin 6) : List MicroOp :=
  ((List.finRange 6).drop (c.val + 1)).flatMap readColumnOps ++ ((List.finRange 4).drop (r.val + 1)).flatMap readRowOps

theorem kpReadOps_split (r : Fin 4) (c : Fin 6) :
    kpReadOps = ((List.finRange 4).take r.val).flatMap readRowOps ++ (.setR r :: (selectRowOps ++
      (((List.finRange 6).take c.val).flatMap readColumnOps ++ (readColumnOps c ++ kpReadAfter r c)))) := by
  fin_cases r <;> fin_cases c <;> rfl

theorem runOps_beforeKey (w : Word) (s : State) (r : Fin 4) (c : Fin 6) (h : OpenBefore s r c) :
    runOps w kpReadOps s = runOps w (readColumnOps c ++ kpReadAfter r c) (beforeKey s r c) := by
  rw [kpReadOps_split r c, runOps_rows_open _ _ _ _ h.1, runOps_selectRow, runOps_columns_open _ _ _ _ h.2]
  rfl

theorem scanKept_beforeKey (s : State) (r : Fin 4) (c : Fin 6) : ScanKept s (beforeKey s r c) :=
  (scanKept_openRows _ s).trans ((scanKept_selectRow _ r).trans (scanKept_openSamples _ _))

theorem beforeKey_r (s : State) (r : Fin 4) (c : Fin 6) : (beforeKey s r c).r = r := by
  rw [beforeKey, openSamples_frame, selectRow_frame]

theorem beforeKey_trace (s : State) (r : Fin 4) (c : Fin 6) (h : OpenBefore s r c) :
    (beforeKey s r c).trace = s.trace ++ eventsBefore s r c := by
  have hk := scanKept_openRows ((List.finRange 4).take r.val) s
  rw [beforeKey, openSamples_trace _ _ h.2, selectRow_frame]
  simp only [openRows_trace _ _ h.1, hk.selectEvents]
  simp only [eventsBefore, openRowsEvents, openEvents, List.append_assoc]
  congr 4
  funext d
  rw [← hk.colPin]
  rfl

/-- With distinct row pins the row being scanned alone is low. -/
theorem beforeKey_rows (s : State) (r : Fin 4) (c : Fin 6) (h : RowPinsDistinct s) (k : Fin 4) :
    portBit (beforeKey s r c) .kr .out (rowPin s k) = decide (k ≠ r) := by
  have hk := scanKept_openRows ((List.finRange 4).take r.val) s
  have hd : RowPinsDistinct (((List.finRange 4).take r.val).foldl openRow s) := fun a b e => by
    rw [hk.rowPin, hk.rowPin] at e; exact h a b e
  have e := portBit_selectRow_row _ r k hd
  rw [hk.rowPin] at e
  rw [beforeKey, openSamples_frame]
  exact e

/-- A script of open samples, one for each column. -/
theorem allOpen_draws (cs : List (Fin 6)) (s : State) (more : List Level)
    (h : s.env = .draws (List.replicate cs.length true ++ more)) :
    AllOpen s cs ∧ (cs.foldl openSample s).env = .draws more ∧ (cs.foldl openSample s).drawCount = s.drawCount := by
  induction cs generalizing s with
  | nil => exact ⟨trivial, h, rfl⟩
  | cons c cs ih =>
    rw [List.length_cons, List.replicate_succ, List.cons_append] at h
    have hd : drawSample s c = (true, .draws (List.replicate cs.length true ++ more), s.drawCount) := by
      unfold drawSample; rw [h]
    have he : (openSample s c).env = .draws (List.replicate cs.length true ++ more) := by
      show (drawSample s c).2.1 = _
      rw [hd]
    have hn : (openSample s c).drawCount = s.drawCount := by
      show (drawSample s c).2.2 = _
      rw [hd]
    have hv : sampleValue s c = true := by unfold sampleValue; rw [hd]
    obtain ⟨h1, h2, h3⟩ := ih (openSample s c) he
    exact ⟨⟨hv, h1⟩, h2, h3.trans hn⟩

/-- A script of open samples, one for each column of each row. -/
theorem allRowsOpen_draws (rs : List (Fin 4)) (s : State) (more : List Level)
    (h : s.env = .draws (List.replicate (6 * rs.length) true ++ more)) :
    AllRowsOpen s rs ∧ (rs.foldl openRow s).env = .draws more ∧ (rs.foldl openRow s).drawCount = s.drawCount := by
  induction rs generalizing s with
  | nil => exact ⟨trivial, h, rfl⟩
  | cons r rs ih =>
    have e : 6 * (r :: rs).length = 6 + 6 * rs.length := by simp; omega
    rw [e, List.replicate_add, List.append_assoc] at h
    have hs : (selectRow s r).env = .draws (List.replicate (List.finRange 6).length true ++ (List.replicate (6 * rs.length) true ++ more)) := by
      rw [selectRow_frame, List.length_finRange]; exact h
    obtain ⟨h1, h2, h3⟩ := allOpen_draws (List.finRange 6) (selectRow s r) _ hs
    obtain ⟨k1, k2, k3⟩ := ih (openRow s r) h2
    refine ⟨⟨h1, k1⟩, k2, k3.trans (h3.trans ?_)⟩
    rw [selectRow_frame]

/-- A script of open samples up to key (r, c). -/
theorem openBefore_draws (s : State) (r : Fin 4) (c : Fin 6) (more : List Level)
    (h : s.env = .draws (List.replicate (6 * r.val + c.val) true ++ more)) :
    OpenBefore s r c ∧ (beforeKey s r c).env = .draws more ∧ (beforeKey s r c).drawCount = s.drawCount := by
  have lr : ((List.finRange 4).take r.val).length = r.val := by simp
  have lc : ((List.finRange 6).take c.val).length = c.val := by simp
  rw [List.replicate_add, List.append_assoc] at h
  obtain ⟨h1, h2, h3⟩ := allRowsOpen_draws ((List.finRange 4).take r.val) s _ (by rw [lr]; exact h)
  have hs : (selectRow (((List.finRange 4).take r.val).foldl openRow s) r).env =
      .draws (List.replicate ((List.finRange 6).take c.val).length true ++ more) := by
    rw [lc, selectRow_frame]; exact h2
  obtain ⟨k1, k2, k3⟩ := allOpen_draws _ _ _ hs
  refine ⟨⟨h1, k1⟩, k2, k3.trans (Eq.trans ?_ h3)⟩
  rw [selectRow_frame]

theorem finRange_split {n : Nat} {pre post : List (Fin n)} {r : Fin n} (h : List.finRange n = pre ++ r :: post) :
    pre = (List.finRange n).take r.val := by
  have hl : pre.length < (List.finRange n).length := by rw [h]; simp
  have hr : (List.finRange n)[pre.length] = r := by simp [h]
  have e : pre.length = r.val := by rw [← hr]; simp
  rw [← e, h]
  simp

/-- Every scan either reads 24 open samples, or has a first closed one, that of some key (r, c). -/
theorem allRowsOpen_or_key (s : State) :
    AllRowsOpen s (List.finRange 4) ∨
      ∃ (r : Fin 4) (c : Fin 6), OpenBefore s r c ∧ sampleValue (beforeKey s r c) c = false := by
  rcases allRowsOpen_or_first s (List.finRange 4) with h | ⟨pre, r, post, e, h1, h2⟩
  · exact .inl h
  · obtain rfl := finRange_split e
    rcases allOpen_or_first (selectRow (((List.finRange 4).take r.val).foldl openRow s) r) (List.finRange 6) with
      h | ⟨pre, c, post, e, k1, k2⟩
    · exact absurd h h2
    · obtain rfl := finRange_split e
      exact .inr ⟨r, c, ⟨h1, k1⟩, k2⟩

/-- Row `r` alone is active, on a keypad that is set up, under ENV_IDEAL with CLOSED constant. -/
structure IdealRow (s : State) (closed : List Key) (r : Fin 4) : Prop where
  setUp : KpSetUp s
  env : s.env = .ideal [] closed
  only : ∀ k : Fin 4, rowActive s k = decide (k = r)

theorem KpSetUp.scanKept {s t : State} (h : KpSetUp s) (k : ScanKept s t)
    (hd : ∀ r : Fin 4, portBit t .kr .dir (rowPin s r) = portBit s .kr .dir (rowPin s r)) : KpSetUp t := by
  obtain ⟨h1, h2, h3, h4⟩ := h
  have hc : ∀ reg n, portBit t .kc reg n = portBit s .kc reg n := fun reg n => by rw [k.same]; rfl
  refine ⟨fun a b e => ?_, fun a b e => ?_, fun c => ?_, fun r => ?_⟩
  · rw [k.rowPin, k.rowPin] at e; exact h1 a b e
  · rw [k.colPin, k.colPin] at e; exact h2 a b e
  · rw [k.colPin, hc, hc]; exact h3 c
  · rw [k.rowPin, hd]; exact h4 r

theorem idealRow_selectRow {s : State} {closed : List Key} (h : KpSetUp s) (he : s.env = .ideal [] closed) (r : Fin 4) :
    IdealRow (selectRow s r) closed r := by
  have k := scanKept_selectRow s r
  have hu := h.scanKept k fun q => k.bits .dir _ (.inl (by decide))
  refine ⟨hu, by rw [selectRow_frame]; exact he, fun q => ?_⟩
  have h4 := hu.2.2.2 q
  unfold rowActive
  rw [h4, rowPin_selectRow, portBit_selectRow_row s r q h.1]
  simp

/-- What a sample of an ideal environment reads while row `r` is scanned (R84). -/
theorem IdealRow.sample {s : State} {closed : List Key} {r : Fin 4} (h : IdealRow s closed r) (c : Fin 6) :
    sampleValue s c = !decide ((⟨r, c⟩ : Key) ∈ closed) ∧
    drawSample s c = (sampleValue s c, .ideal [] closed, s.drawCount) := by
  obtain ⟨hd, hp⟩ := h.setUp.2.2.1 c
  have hi : idealLevel s closed c = some (!decide ((⟨r, c⟩ : Key) ∈ closed)) := by
    unfold idealLevel
    rw [hd, hp]
    have : (closed.any fun key => key.c == c && rowActive s key.r) = decide ((⟨r, c⟩ : Key) ∈ closed) := by
      rw [Bool.eq_iff_iff]
      simp only [List.any_eq_true, Bool.and_eq_true, beq_iff_eq, h.only, decide_eq_true_eq]
      constructor
      · rintro ⟨key, hk, h1, h2⟩
        cases key
        subst h1 h2
        exact hk
      · exact fun hk => ⟨_, hk, rfl, rfl⟩
    simp [this]
  have hv : drawSample s c = (!decide ((⟨r, c⟩ : Key) ∈ closed), .ideal [] closed, s.drawCount) := by
    unfold drawSample
    rw [h.env]
    simp [hi]
  exact ⟨by unfold sampleValue; rw [hv], by unfold sampleValue; rw [hv]⟩

theorem IdealRow.openSample {s : State} {closed : List Key} {r : Fin 4} (h : IdealRow s closed r) (c : Fin 6) :
    IdealRow (openSample s c) closed r := by
  refine ⟨h.setUp, ?_, h.only⟩
  show (drawSample s c).2.1 = _
  rw [(h.sample c).2]

theorem allOpen_ideal {closed : List Key} {r : Fin 4} (cs : List (Fin 6)) (s : State) (h : IdealRow s closed r)
    (hc : ∀ c ∈ cs, (⟨r, c⟩ : Key) ∉ closed) : AllOpen s cs ∧ IdealRow (cs.foldl Machine.openSample s) closed r := by
  induction cs generalizing s with
  | nil => exact ⟨trivial, h⟩
  | cons c cs ih =>
    obtain ⟨h1, h2⟩ := ih (Machine.openSample s c) (h.openSample c) fun d hd => hc d (by simp [hd])
    refine ⟨⟨?_, h1⟩, h2⟩
    rw [(h.sample c).1]
    simp [hc c (by simp)]

theorem allRowsOpen_ideal {closed : List Key} (rs : List (Fin 4)) (s : State) (hs : KpSetUp s)
    (he : s.env = .ideal [] closed) (hc : ∀ r ∈ rs, ∀ c : Fin 6, (⟨r, c⟩ : Key) ∉ closed) :
    AllRowsOpen s rs ∧ KpSetUp (rs.foldl openRow s) ∧ (rs.foldl openRow s).env = .ideal [] closed := by
  induction rs generalizing s with
  | nil => exact ⟨trivial, hs, he⟩
  | cons r rs ih =>
    obtain ⟨h1, h2⟩ := allOpen_ideal (List.finRange 6) (selectRow s r) (idealRow_selectRow hs he r) fun c _ =>
      hc r (by simp) c
    obtain ⟨k1, k2⟩ := ih (openRow s r) h2.setUp h2.env fun q hq => hc q (by simp [hq])
    exact ⟨⟨h1, k1⟩, k2⟩

theorem mem_take_finRange {n m : Nat} {a : Fin n} (h : a ∈ (List.finRange n).take m) : a.val < m := by
  obtain ⟨i, hi, e⟩ := List.mem_iff_getElem.mp h
  rw [List.getElem_take, List.getElem_finRange] at e
  rw [← e]
  rw [List.length_take] at hi
  exact lt_of_lt_of_le hi (min_le_left _ _)

/-- Under ENV_IDEAL with CLOSED constant the first closed sample of a scan is that of the least closed key (R93). -/
theorem firstClosed_ideal {s : State} {closed : List Key} {key : Key} (hs : KpSetUp s)
    (he : s.env = .ideal [] closed) (hf : FirstClosed closed key) :
    OpenBefore s key.r key.c ∧ IdealRow (beforeKey s key.r key.c) closed key.r ∧
      sampleValue (beforeKey s key.r key.c) key.c = false := by
  obtain ⟨hm, hl⟩ := hf
  obtain ⟨h1, h2, h3⟩ := allRowsOpen_ideal ((List.finRange 4).take key.r.val) s hs he fun r hr c hk => by
    have := hl _ hk
    have := mem_take_finRange hr
    simp only at *
    omega
  obtain ⟨k1, k2⟩ := allOpen_ideal ((List.finRange 6).take key.c.val) _ (idealRow_selectRow h2 h3 key.r) fun c hc hk => by
    have := hl _ hk
    have := mem_take_finRange hc
    simp only at *
    omega
  refine ⟨⟨h1, k1⟩, k2, ?_⟩
  refine (IdealRow.sample k2 key.c).1.trans ?_
  simp [hm]

end Sys2Proof.Machine
end

