-- ==== Sys2Proof/Laws/PerInstr.lean ====
section
/-! SUPPORT. Laws stated per instruction: an encoded command matches its row of spec/opcode_table.json. -/

namespace Sys2Proof.Laws

open Sys2Proof

/-- The `mask` of the row of spec/opcode_table.json: the bits the table fixes. -/
def tableMask : Opcode → Word
  | .kpInit => 0xFFFFFFFF
  | .kpRead => 0xFFFFFFFF
  | .kpDetect => 0xFFFF00FF
  | .dispInit => 0xFFFFFFFF
  | .dispSendCommand => 0xFFFFFF00
  | .dispPrintChar => 0xFFFFFF00
  | .dispPrintCharTo => 0xFF000000
  | .dispPrintString => 0xFFFFFFFF
  | .dispPrintStringTo => 0xFF0000FF
  | .dispMoveCursor => 0xFF0000FF
  | .dispClear => 0xFFFFFFFF
  | .dispReturnHome => 0xFFFFFFFF
  | .dispPrintNumber => 0xFFFFFFFF
  | .dispPrintNumberTo => 0xFF0000FF

/-- The `match` of the row of spec/opcode_table.json: the values of those bits. -/
def tableMatch : Opcode → Word
  | .kpInit => 0x10000000
  | .kpRead => 0x11000000
  | .kpDetect => 0x12000000
  | .dispInit => 0x20000000
  | .dispSendCommand => 0x21000000
  | .dispPrintChar => 0x22000000
  | .dispPrintCharTo => 0x23000000
  | .dispPrintString => 0x24000000
  | .dispPrintStringTo => 0x25000000
  | .dispMoveCursor => 0x26000000
  | .dispClear => 0x27000000
  | .dispReturnHome => 0x28000000
  | .dispPrintNumber => 0x29000000
  | .dispPrintNumberTo => 0x2A000000

/-- The bits of the word outside the operand fields are those of its row in the opcode table. -/
def TableMatch.Statement (i : Instr) : Prop := encode i &&& tableMask (opcodeOf i) = tableMatch (opcodeOf i)

/-- A mask that keeps or drops whole fields acts on each field. -/
theorem packWord_and (u o u' o' : BitVec 4) (row col data row' col' data' : Byte) :
    packWord u o row col data &&& packWord u' o' row' col' data' =
      packWord (u &&& u') (o &&& o') (row &&& row') (col &&& col') (data &&& data') := by
  refine BitVec.eq_of_getLsbD_eq fun j _ => ?_
  simp only [BitVec.getLsbD_and, getLsbD_packWord]
  split_ifs <;> rfl

/-- An operand field under a mask of zeros. -/
theorem and_none (x : Byte) : x &&& 0x00 = 0x00 := by simp

/-- Masking the word of a row with `0xFFrrccdd`, each of `rr`, `cc`, `dd` all ones where the row has no such
operand and zero where it has. -/
theorem wordOf_and (op : Opcode) (row col data mr mc md : Byte) :
    wordOf op row col data &&& packWord 0xF 0xF mr mc md =
      packWord (opcodeCode op).1 (opcodeCode op).2 (row &&& mr) (col &&& mc) (data &&& md) := by
  have h : ∀ x : BitVec 4, x &&& 0xF = x := by decide
  rw [wordOf, packWord_and, h, h]

theorem TableMatch.kpInit (cfg : KpCfg) : Statement (.kpInit cfg) := by
  show wordOf .kpInit 0 0 0 &&& 0xFFFFFFFF = 0x10000000
  decide

theorem TableMatch.kpRead : Statement .kpRead := by
  show wordOf .kpRead 0 0 0 &&& 0xFFFFFFFF = 0x11000000
  decide

theorem TableMatch.kpDetect (col : Byte) : Statement (.kpDetect col) := by
  have h := wordOf_and .kpDetect 0 col 0 0xFF 0x00 0xFF
  rw [show packWord 0xF 0xF 0xFF 0x00 0xFF = 0xFFFF00FF by decide] at h
  refine h.trans ?_
  simp only [opcodeCode, opcodeOf, tableMatch, and_none]
  decide

theorem TableMatch.dispInit (cfg : DispCfg) : Statement (.dispInit cfg) := by
  show wordOf .dispInit 0 0 0 &&& 0xFFFFFFFF = 0x20000000
  decide

theorem TableMatch.dispSendCommand (code : Byte) : Statement (.dispSendCommand code) := by
  have h := wordOf_and .dispSendCommand 0 0 code 0xFF 0xFF 0x00
  rw [show packWord 0xF 0xF 0xFF 0xFF 0x00 = 0xFFFFFF00 by decide] at h
  refine h.trans ?_
  simp only [opcodeCode, opcodeOf, tableMatch, and_none]
  decide

theorem TableMatch.dispPrintChar (code : Byte) : Statement (.dispPrintChar code) := by
  have h := wordOf_and .dispPrintChar 0 0 code 0xFF 0xFF 0x00
  rw [show packWord 0xF 0xF 0xFF 0xFF 0x00 = 0xFFFFFF00 by decide] at h
  refine h.trans ?_
  simp only [opcodeCode, opcodeOf, tableMatch, and_none]
  decide

theorem TableMatch.dispPrintCharTo (row : Byte) (col : Byte) (code : Byte) : Statement (.dispPrintCharTo row col code) := by
  have h := wordOf_and .dispPrintCharTo row col code 0x00 0x00 0x00
  rw [show packWord 0xF 0xF 0x00 0x00 0x00 = 0xFF000000 by decide] at h
  refine h.trans ?_
  simp only [opcodeCode, opcodeOf, tableMatch, and_none]
  decide

theorem TableMatch.dispPrintString (text : List Byte) : Statement (.dispPrintString text) := by
  show wordOf .dispPrintString 0 0 0 &&& 0xFFFFFFFF = 0x24000000
  decide

theorem TableMatch.dispPrintStringTo (row : Byte) (col : Byte) (text : List Byte) : Statement (.dispPrintStringTo row col text) := by
  have h := wordOf_and .dispPrintStringTo row col 0 0x00 0x00 0xFF
  rw [show packWord 0xF 0xF 0x00 0x00 0xFF = 0xFF0000FF by decide] at h
  refine h.trans ?_
  simp only [opcodeCode, opcodeOf, tableMatch, and_none]
  decide

theorem TableMatch.dispMoveCursor (row : Byte) (col : Byte) : Statement (.dispMoveCursor row col) := by
  have h := wordOf_and .dispMoveCursor row col 0 0x00 0x00 0xFF
  rw [show packWord 0xF 0xF 0x00 0x00 0xFF = 0xFF0000FF by decide] at h
  refine h.trans ?_
  simp only [opcodeCode, opcodeOf, tableMatch, and_none]
  decide

theorem TableMatch.dispClear : Statement .dispClear := by
  show wordOf .dispClear 0 0 0 &&& 0xFFFFFFFF = 0x27000000
  decide

theorem TableMatch.dispReturnHome : Statement .dispReturnHome := by
  show wordOf .dispReturnHome 0 0 0 &&& 0xFFFFFFFF = 0x28000000
  decide

theorem TableMatch.dispPrintNumber (v : Int) : Statement (.dispPrintNumber v) := by
  show wordOf .dispPrintNumber 0 0 0 &&& 0xFFFFFFFF = 0x29000000
  decide

theorem TableMatch.dispPrintNumberTo (row : Byte) (col : Byte) (v : Int) : Statement (.dispPrintNumberTo row col v) := by
  have h := wordOf_and .dispPrintNumberTo row col 0 0x00 0x00 0xFF
  rw [show packWord 0xF 0xF 0x00 0x00 0xFF = 0xFF0000FF by decide] at h
  refine h.trans ?_
  simp only [opcodeCode, opcodeOf, tableMatch, and_none]
  decide

end Sys2Proof.Laws
end

