-- ==== Sys2Proof/Laws/Sequencer.lean ====
section
/-! SUPPORT. What one step does where SEQ stands, and runs of steps through the wait loop (R88, R96). -/

namespace Sys2Proof.Machine

theorem run_next (M : Host.Core) (n : Nat) (s t : M.State) (h : M.step s = .next t) : M.run (n + 1) s = M.run n t := by
  simp [Host.Core.run, h]

/-- The host's list does not begin with a platform reset. -/
def NoReset (s : State) : Prop := ∀ l more, s.host ≠ .reset l :: more

theorem step_noReset {s : State} (h : NoReset s) : step s = healthyStep s := by
  unfold step machineStep
  split
  · rename_i l rest e
    exact absurd e (h l rest)
  · rfl

/-- A step of a healthy KDB with a command in progress runs what is left of it. -/
theorem step_inProgress {s : State} {w : Word} {ops : List MicroOp} (h : s.seq = .run w (.at ops))
    (hf : s.fault = none) (hr : s.refused = none) (hh : NoReset s) : step s = .next (runOps w ops s) := by
  rw [step_noReset hh]
  simp [healthyStep, hf, hr, runStep, h, resume]

theorem step_idle {s : State} (h : s.seq = .idle) (hf : s.fault = none) (hr : s.refused = none) (hh : NoReset s) :
    step s = idleStep s := by
  rw [step_noReset hh]
  simp [healthyStep, hf, hr, runStep, h]

/-- A closed sample of the wait loop changes TRACE and the environment alone (R96). -/
theorem runOps_wait_closed (w : Word) (c : Fin 6) (more : List MicroOp) (s : State) (h : sampleValue s c = false) :
    runOps w (.waitRelease c :: more) s = { afterSample s c with seq := .run w (.at (.waitRelease c :: more)) } := by
  simp only [runOps, microOp, detectAgain, h, readsClosed]
  rfl

/-- An open sample of the wait loop ends it with PRESSED 1 (R88). -/
theorem runOps_wait_open (w : Word) (c : Fin 6) (more : List MicroOp) (s : State) (h : sampleValue s c = true) :
    runOps w (.waitRelease c :: more) s = runOps w more { afterSample s c with pressed := some true } := by
  simp only [runOps, microOp, detectAgain, h, readsClosed]
  rfl

/-- KP_READ returns with the key's symbol in KEYOUT once PRESSED holds 1 (R91). -/
theorem runOps_report (w : Word) (more : List MicroOp) (s : State) (h : s.pressed = some true) :
    runOps w (.reportKey :: more) s = complete (writeKeyout s (keySymbol s s.r s.c)) := by
  simp [runOps, microOp, isPressed, h]

/-- A key held in the wait loop for `h` more samples: `h + 1` steps run on to the sample that reads open. -/
theorem run_wait (w : Word) (c : Fin 6) (more : List MicroOp) (rest : List Level) (h : Nat) (u : State)
    (hq : u.seq = .run w (.at (.waitRelease c :: more))) (hf : u.fault = none) (hr : u.refused = none)
    (hh : u.host = []) (he : u.env = .draws (List.replicate h false ++ true :: rest)) :
    Host.Core.run core (h + 1) u = Host.Outcome.next (runOps w more { u with
      trace := u.trace ++ List.replicate h (.s .kc (colPin u c) false) ++ [.s .kc (colPin u c) true]
      env := .draws rest, pressed := some true }) := by
  induction h generalizing u with
  | zero =>
    have hv : drawSample u c = (true, .draws rest, u.drawCount) := by unfold drawSample; rw [he]; rfl
    have hvs : sampleValue u c = true := by unfold sampleValue; rw [hv]
    have hs : step u = _ := step_inProgress hq hf hr (by simp [NoReset, hh])
    rw [runOps_wait_open w c more u hvs] at hs
    rw [run_next core 0 u _ hs]
    show Host.Outcome.next _ = _
    simp only [afterSample, emit, hv, hvs, List.replicate_zero, List.append_nil]
    rfl
  | succ h ih =>
    have hv : drawSample u c = (false, .draws (List.replicate h false ++ true :: rest), u.drawCount) := by
      unfold drawSample; rw [he]; rfl
    have hvs : sampleValue u c = false := by unfold sampleValue; rw [hv]
    have hs : step u = _ := step_inProgress hq hf hr (by simp [NoReset, hh])
    rw [runOps_wait_closed w c more u hvs] at hs
    have e := ih { afterSample u c with seq := .run w (.at (.waitRelease c :: more)) } rfl hf hr hh
      (by show (drawSample u c).2.1 = _; rw [hv])
    rw [run_next core (h + 1) u _ hs]
    refine e.trans ?_
    simp only [afterSample, emit, hv, hvs, ← hq, colPin, kpTables, List.replicate_succ, List.append_assoc,
      List.cons_append, List.nil_append]
    rfl

/-- A key held for good: `n` steps in the wait loop append `n` closed samples. -/
theorem run_wait_forever (w : Word) (c : Fin 6) (more : List MicroOp) (P : State → Prop)
    (hP : ∀ t, P t → sampleValue t c = false ∧ P { afterSample t c with seq := .run w (.at (.waitRelease c :: more)) })
    (n : Nat) (u : State) (hu : P u) (hq : u.seq = .run w (.at (.waitRelease c :: more))) (hf : u.fault = none)
    (hr : u.refused = none) (hh : u.host = []) :
    ∃ t : State, Host.Core.run core n u = Host.Outcome.next t ∧
      t = { u with
        trace := u.trace ++ List.replicate n (.s .kc (colPin u c) false), env := t.env, drawCount := t.drawCount } := by
  induction n generalizing u with
  | zero => exact ⟨u, rfl, by simp⟩
  | succ n ih =>
    obtain ⟨hv, hP'⟩ := hP u hu
    have hs : step u = _ := step_inProgress hq hf hr (by simp [NoReset, hh])
    rw [runOps_wait_closed w c more u hv] at hs
    obtain ⟨t, h1, h2⟩ := ih _ hP' rfl hf hr hh
    refine ⟨t, (run_next core n u _ hs).trans h1, ?_⟩
    refine h2.trans ?_
    simp only [afterSample, emit, hv, ← hq, colPin, kpTables, List.replicate_succ, List.append_assoc, List.cons_append,
      List.nil_append]

/-- Everything a step that answers a next state can do. -/
inductive StepCase (s t : State) : Prop where
  | reset (l : Option Byte) (rest : List HostAction) (host : s.host = .reset l :: rest)
      (after : t = platformReset { s with host := rest } l)
  | waits (idle : AcceptsCommand s) (host : s.host = []) (after : t = s)
  | command (w : Word) (p : Payload) (rest : List HostAction) (i : Instr) (idle : AcceptsCommand s)
      (host : s.host = .issue w p :: rest) (ok : decode w p = .ok i)
      (after : exec i (issue { s with host := rest } w p) = .next t)
  | illegal (w : Word) (p : Payload) (rest : List HostAction) (e : Illegal) (idle : AcceptsCommand s)
      (host : s.host = .issue w p :: rest) (bad : decode w p = .error e) (after : t = refuse { s with host := rest } e)
  | cut (w : Word) (p : Payload) (n : Nat) (l : Option Byte) (rest : List HostAction) (idle : AcceptsCommand s)
      (host : s.host = .issueThenReset w p n l :: rest) (after : t = issueThenReset { s with host := rest } w p n l)
  | readKeyout (rest : List HostAction) (idle : AcceptsCommand s) (host : s.host = .readKeyout :: rest)
      (after : t = hostReadKeyout { s with host := rest })
  | writeKeyout (v : Byte) (rest : List HostAction) (idle : AcceptsCommand s) (host : s.host = .writeKeyout v :: rest)
      (after : t = hostWriteKeyout { s with host := rest } v)
  | readPressed (rest : List HostAction) (idle : AcceptsCommand s) (host : s.host = .readPressed :: rest)
      (after : t = hostReadPressed { s with host := rest })
  | entry (w : Word) (i : Instr) (fault : s.fault = none) (refused : s.refused = none) (seq : s.seq = .run w .entry)
      (ok : decode w s.payload = .ok i) (after : exec i (issue s w s.payload) = .next t)
  | entryIllegal (w : Word) (e : Illegal) (fault : s.fault = none) (refused : s.refused = none)
      (seq : s.seq = .run w .entry) (bad : decode w s.payload = .error e) (after : t = refuse s e)
  | resumes (w : Word) (ops : List MicroOp) (fault : s.fault = none) (refused : s.refused = none)
      (seq : s.seq = .run w (.at ops)) (after : t = runOps w ops s)

theorem step_cases {s t : State} (h : step s = .next t) : StepCase s t := by
  unfold step machineStep at h
  split at h
  · rename_i l rest e
    cases h
    exact .reset l rest e rfl
  unfold healthyStep at h
  split at h
  · cases h
  rename_i hf
  split at h
  · cases h
  rename_i hr
  unfold runStep at h
  split at h
  · rename_i hq
    have ha : AcceptsCommand s := ⟨hq, hf, hr⟩
    unfold idleStep at h
    split at h
    · rename_i hh
      cases h
      exact .waits ha hh rfl
    rename_i a rest hh
    cases a with
    | issue w p =>
      have h' : startCommand { s with host := rest } w p = .next t := h
      unfold startCommand at h'
      split at h'
      · rename_i e hd
        cases h'
        exact .illegal w p rest e ha hh hd rfl
      · rename_i i hd
        exact .command w p rest i ha hh hd h'
    | issueThenReset w p n l => cases h; exact .cut w p n l rest ha hh rfl
    | readKeyout => cases h; exact .readKeyout rest ha hh rfl
    | writeKeyout v => cases h; exact .writeKeyout v rest ha hh rfl
    | readPressed => cases h; exact .readPressed rest ha hh rfl
    | reset l => cases h; exact .reset l rest hh rfl
    | readDisplay => cases h
  · rename_i w pos hq
    cases pos with
    | entry =>
      have h' : startCommand s w s.payload = .next t := h
      unfold startCommand at h'
      split at h'
      · rename_i e hd
        cases h'
        exact .entryIllegal w e hf hr hq hd rfl
      · rename_i i hd
        exact .entry w i hf hr hq hd h'
    | _ ops =>
      cases h
      exact .resumes w ops hf hr hq rfl

/-- No command touches the parameters or the host's fields. -/
theorem exec_params {i : Instr} {s t : State} (h : exec i s = .next t) :
    t.refused = s.refused ∧ t.params = s.params ∧ t.host = s.host ∧ t.hostLog = s.hostLog := by
  rcases exec_cases h with ⟨code, _, rfl⟩ | ⟨_, rfl⟩
  · exact ⟨rfl, rfl, rfl, rfl⟩
  · exact (runOps_records (encode i) (programOf i s.params) { s with payload := payloadOf i }).2

/-- A command only appends to TRACE (R34). -/
theorem exec_trace {i : Instr} {s t : State} (h : exec i s = .next t) : s.trace <+: t.trace := by
  rcases exec_cases h with ⟨code, _, rfl⟩ | ⟨_, rfl⟩
  · exact List.prefix_refl _
  · exact runOps_trace (encode i) (programOf i s.params) { s with payload := payloadOf i }

/-- Micro-steps keep the parameters and the host's fields. -/
theorem microStep_host (s : State) :
    (microStep s).params = s.params ∧ (microStep s).host = s.host ∧ (microStep s).hostLog = s.hostLog := by
  have hs : ∀ (w : Word) (ops : List MicroOp) (t : State), RecordsKept s t →
      (settle w ops t).params = s.params ∧ (settle w ops t).host = s.host ∧ (settle w ops t).hostLog = s.hostLog := by
    intro w ops t h
    unfold settle
    split <;> exact h.2.2
  unfold microStep
  split
  · rename_i w op more _ _ _
    have hr := microOp_records op s
    split <;> rename_i hh <;> rw [hh] at hr
    · exact hs _ _ _ hr
    · exact hr.2.2
    · exact hr.2.2
  · exact ⟨rfl, rfl, rfl⟩

theorem microSteps_host (n : Nat) (s : State) :
    (microSteps n s).params = s.params ∧ (microSteps n s).host = s.host ∧ (microSteps n s).hostLog = s.hostLog := by
  induction n generalizing s with
  | zero => exact ⟨rfl, rfl, rfl⟩
  | succ n ih =>
    obtain ⟨a1, a2, a3⟩ := ih (microStep s)
    obtain ⟨b1, b2, b3⟩ := microStep_host s
    exact ⟨a1.trans b1, a2.trans b2, a3.trans b3⟩

theorem loadCommand_host (s : State) (w : Word) (p : Payload) :
    (loadCommand s w p).params = s.params ∧ (loadCommand s w p).host = s.host ∧ (loadCommand s w p).hostLog = s.hostLog := by
  unfold loadCommand
  split
  · exact ⟨rfl, rfl, rfl⟩
  · split
    · exact ⟨rfl, rfl, rfl⟩
    · unfold settle
      split <;> exact ⟨rfl, rfl, rfl⟩

/-- A reset in mid-command leaves what a reset before it leaves, but for the environment (R178, R180). -/
theorem issueThenReset_eq (s : State) (w : Word) (p : Payload) (n : Nat) (l : Option Byte) :
    issueThenReset s w p n l =
      { platformReset s l with
        env := (issueThenReset s w p n l).env, drawCount := (issueThenReset s w p n l).drawCount } := by
  obtain ⟨a1, a2, a3⟩ := microSteps_host n (loadCommand s w p)
  obtain ⟨b1, b2, b3⟩ := loadCommand_host s w p
  simp only [issueThenReset, platformReset, a1.trans b1, a2.trans b2, a3.trans b3]

end Sys2Proof.Machine
end

