-- ==== Sys2Proof/Laws/Text.lean ====
section
/-! SUPPORT. What Position (R120), PrintString (R129) and PrintNumber (R135) send. -/

namespace Sys2Proof.Machine

/-- Operand fields are zero-extended (R58). -/
@[simp] theorem zext_eq (b : Byte) : zext b = b.toNat := rfl

/-- A program that sends these bytes, its payload in progress `pl`, whatever state it starts in. -/
def Sends (p : Params) (pl : Payload) (ops : List MicroOp) (sent : List (Level × Byte)) : Prop :=
  (∀ op ∈ ops, isStraight op = true) ∧
  ∀ s : State, s.params = p → s.payload = pl →
    Sent s (runStraight ops s) sent ∧ (runStraight ops s).trace = s.trace ++ sendEvents s sent

theorem Sends.nil (p : Params) (pl : Payload) : Sends p pl [] [] :=
  ⟨by simp, fun s _ _ => ⟨Sent.of_trace_i s s.trace s.i, by simp [sendEvents]⟩⟩

theorem Sends.append {p : Params} {pl : Payload} {a b : List MicroOp} {x y : List (Level × Byte)}
    (h1 : Sends p pl a x) (h2 : Sends p pl b y) : Sends p pl (a ++ b) (x ++ y) := by
  refine ⟨fun op h => (List.mem_append.mp h).elim (h1.1 op) (h2.1 op), fun s hs hp => ?_⟩
  obtain ⟨s1, t1⟩ := h1.2 s hs hp
  obtain ⟨s2, t2⟩ := h2.2 (runStraight a s) (s1.samePins.2.trans hs) (s1.payload.trans hp)
  rw [runStraight_append]
  refine ⟨s1.append s2, ?_⟩
  rw [t2, t1, s1.samePins.sendEvents]
  simp [sendEvents]

theorem sends_xfer (p : Params) (pl : Payload) (rs : Level) (b : Byte) : Sends p pl (xferOps rs b) [(rs, b)] :=
  ⟨xferOps_straight rs b, fun s _ _ => ⟨sent_xfer s rs b, by simp [sendEvents, runStraight_xfer_trace]⟩⟩

theorem sends_setI (p : Params) (pl : Payload) (n : Nat) : Sends p pl [.setI n] [] :=
  ⟨by simp [isStraight], fun s _ _ => ⟨Sent.of_trace_i s s.trace n, by simp [sendEvents, advanceOp, microOp]⟩⟩

theorem sends_position (p : Params) (pl : Payload) (row col : Nat) :
    Sends p pl (positionOps p row col) (positionBytes p row col) := by
  unfold positionOps positionBytes
  by_cases h1 : row < 4
  · by_cases h2 : col < p.dispCols
    · simpa [h1, h2] using sends_xfer p pl false (addressByte p ⟨row, h1⟩ col)
    · simpa [h1, h2] using Sends.nil p pl
  · simpa [h1] using Sends.nil p pl

theorem sendEvents_setI (s : State) (n : Nat) (l : List (Level × Byte)) :
    sendEvents { s with i := n } l = sendEvents s l := rfl

theorem sendEvents_setPayload (s : State) (pl : Payload) (l : List (Level × Byte)) :
    sendEvents { s with payload := pl } l = sendEvents s l := rfl

/-- A transfer that first latches a byte of the payload at the loop register `i`. -/
theorem sent_transfer_at (s : State) (b : Byte) :
    Sent s (runStraight transferOps (setLatch s true b)) [(true, b)] ∧
    (runStraight transferOps (setLatch s true b)).trace = s.trace ++ sendEvents s [(true, b)] := by
  refine ⟨sent_transfer s (setLatch s true b) rfl, ?_⟩
  rw [runStraight_transfer_trace]
  simp only [sendEvents, List.flatMap_singleton]
  rfl

/-- Setting `i`, then a part that keeps it, then the latching of TEXT[i]. -/
theorem printCharAt_sends (p : Params) (text : List Byte) (n : Nat) :
    Sends p (.text text) (printCharAtOps p n)
      ((if n < p.wrapCol then [] else positionBytes p p.wrapRow (n - p.wrapCol)) ++ [(true, text.getD n 0)]) := by
  have key : ∀ (ops : List MicroOp) (l : List (Level × Byte)), Sends p (.text text) ops l →
      (∀ s : State, (runStraight ops s).i = s.i) →
      Sends p (.text text) (.setI n :: (ops ++ .latchText :: transferOps)) (l ++ [(true, text.getD n 0)]) := by
    intro ops l h hi
    refine ⟨?_, fun s hs hp => ?_⟩
    · intro op ho
      simp only [List.mem_cons, List.mem_append] at ho
      rcases ho with rfl | ho | rfl | ho
      · rfl
      · exact h.1 op ho
      · rfl
      · exact transferOps_straight op ho
    · obtain ⟨a1, a2⟩ := h.2 { s with i := n } hs hp
      have hi' : (runStraight ops { s with i := n }).i = n := hi _
      have hpl : (runStraight ops { s with i := n }).payload = .text text := a1.payload.trans hp
      have e : runStraight (.setI n :: (ops ++ .latchText :: transferOps)) s =
          runStraight transferOps (setLatch (runStraight ops { s with i := n }) true (text.getD n 0)) := by
        rw [runStraight_cons, runStraight_append, runStraight_cons]
        simp only [advanceOp, microOp]
        rw [hpl, hi']
        rfl
      rw [e]
      obtain ⟨b1, b2⟩ := sent_transfer_at (runStraight ops { s with i := n }) (text.getD n 0)
      have c1 : Sent s (runStraight ops { s with i := n }) l := by
        have := (Sent.of_trace_i s s.trace n).append a1
        simpa using this
      refine ⟨c1.append b1, ?_⟩
      rw [b2, a2, c1.samePins.sendEvents, sendEvents_setI]
      simp [sendEvents]
  unfold printCharAtOps
  by_cases h : n < p.wrapCol
  · have h' : ¬ p.wrapCol ≤ n := by omega
    simpa [h, h'] using key [] [] (Sends.nil p _) fun _ => rfl
  · have h' : p.wrapCol ≤ n := by omega
    simp only [h, h', if_true, if_false]
    refine key _ _ (sends_position p _ _ _) fun s => ?_
    unfold positionOps
    split
    · exact runStraight_xfer_i s false _
    · rfl

theorem sends_flatMap (p : Params) (pl : Payload) (f : Nat → List MicroOp) (g : Nat → List (Level × Byte))
    (l : List Nat) (h : ∀ n ∈ l, Sends p pl (f n) (g n)) : Sends p pl (l.flatMap f) (l.flatMap g) := by
  induction l with
  | nil => exact Sends.nil p pl
  | cons n l ih =>
    simp only [List.flatMap_cons]
    exact (h n (by simp)).append (ih fun m hm => h m (by simp [hm]))

/-- The bytes of a string from index `n` on, as the characters before its first 0x00. -/
theorem stringBytesFrom_eq (p : Params) (text : List Byte) (n : Nat) :
    stringBytesFrom p n text = (List.range (textLen text)).flatMap fun j =>
      (if n + j < p.wrapCol then [] else positionBytes p p.wrapRow (n + j - p.wrapCol)) ++ [(true, text.getD j 0)] := by
  induction text generalizing n with
  | nil => rfl
  | cons b bs ih =>
    by_cases h : b = 0
    · simp [stringBytesFrom, textLen, h]
    · simp only [stringBytesFrom, textLen, h, if_false, List.range_succ_eq_map, List.flatMap_cons, List.flatMap_map, ih]
      simp [Nat.add_assoc, Nat.add_comm 1]

theorem sends_printString (p : Params) (text : List Byte) :
    Sends p (.text text) (printStringOps p text) (stringBytesFrom p 0 text) := by
  rw [stringBytesFrom_eq]
  unfold printStringOps
  refine sends_flatMap p _ _ _ _ fun n _ => ?_
  simpa using printCharAt_sends p text n

theorem sends_digit (p : Params) (v : Int) (n : Nat) :
    Sends p (.value v) (.setI n :: .latchDigit :: transferOps) [(true, (dec v).getD n 0)] := by
  refine ⟨?_, fun s hs hp => ?_⟩
  · intro op ho
    simp only [List.mem_cons] at ho
    rcases ho with rfl | rfl | ho
    · rfl
    · rfl
    · exact transferOps_straight op ho
  · have e : runStraight (.setI n :: .latchDigit :: transferOps) s =
        runStraight transferOps (setLatch { s with i := n } true ((dec v).getD n 0)) := by
      rw [runStraight_cons, runStraight_cons]
      simp only [advanceOp, microOp]
      rw [hp]
      rfl
    rw [e]
    obtain ⟨b1, b2⟩ := sent_transfer_at { s with i := n } ((dec v).getD n 0)
    have c := (Sent.of_trace_i s s.trace n).append b1
    refine ⟨by simpa using c, ?_⟩
    rw [b2, sendEvents_setI]

theorem sends_printNumber (p : Params) (v : Int) : Sends p (.value v) (printNumberOps v) (numberBytes v) := by
  have h := sends_flatMap p (.value v) (fun n => .setI n :: .latchDigit :: transferOps)
    (fun n => [(true, (dec v).getD n 0)]) (List.range (dec v).length) fun n _ => sends_digit p v n
  have e : (List.range (dec v).length).flatMap (fun n => [(true, (dec v).getD n 0)]) = numberBytes v := by
    unfold numberBytes
    rw [← List.map_eq_flatMap]
    refine List.ext_getElem (by simp) fun k _ h2 => ?_
    rw [List.length_map] at h2
    simp [h2]
  rw [← e]
  exact h

/-- A command whose micro-steps send these bytes completes having sent them. -/
theorem runCommand_sends (w : Word) (pl : Payload) (ops : List MicroOp) (sent : List (Level × Byte)) (s : State)
    (h : Sends s.params pl ops sent) :
    ∃ t, runCommand w pl none ops s = .next t ∧ t.trace = s.trace ++ sendEvents s sent ∧ DisplaySent s t sent := by
  obtain ⟨h1, h2⟩ := h.2 { s with payload := pl } rfl rfl
  refine ⟨complete (runStraight ops { s with payload := pl }), ?_, ?_, h1.complete⟩
  · simp only [runCommand, runOps_straight w ops _ h.1]
  · rw [complete_trace, h2, sendEvents_setPayload]

end Sys2Proof.Machine
end

