-- ==== Sys2Proof/Tests/Slice0.lean ====
section
/-! SUPPORT. Tests with expected results from spec/95_test_vectors.md and from the rules themselves, and a
witness for every statement of Certificates/Slice0 that has hypotheses. -/

namespace Sys2Proof.Tests

open Sys2Proof Sys2Proof.Machine

/-! ## Helpers -/

/-- EX-KP of 40_keypad.md. -/
def exKp : KpCfg := { rowPins := #v[0, 1, 2, 3], colPins := #v[0, 1, 2, 3, 4, 5], keyMap := (List.range 24).map (0x41 + ·) }

/-- EX-DISP of 41_display_transfer.md. -/
def exDisp : DispCfg := { dataPins := #v[4, 5, 6, 7], ctrlPins := #v[0, 1, 2] }

/-- Default parameters with this detection mode. -/
def paramsIn (mode : DetectMode) : Params := { Params.default with detectMode := mode }

/-- Both units as KP_INIT with EX-KP and DISP_INIT with EX-DISP leave them (V-KP-0, V-CTL-1), this environment. -/
def ready (mode : DetectMode) (env : Env) : State :=
  { State.reset with
    params := paramsIn mode, env := env
    kpCfg := some (kpConfigOf exKp), kpState := .ready
    kr := { dir := 0x0F, out := 0x0F, pull := 0 }, kc := { dir := 0, out := 0, pull := 0x3F }
    dispCfg := some (dispConfigOf exDisp), dispState := .ready
    dd := { dir := 0xF0, out := 0x10, pull := 0 }, dc := { dir := 0x07, out := 0, pull := 0 }
    dl := 0x01 }

/-- The keypad in SINGLE_SAMPLE mode under ENV_IDEAL with CLOSED constant. -/
def single (closed : List Key) : State := ready .singleSample (.ideal [] closed)

/-- The keypad in BLOCKING_RELEASE mode under SCRIPT. -/
def script (vs : List Level) : State := ready .blockingRelease (.draws vs)

/-- A DEV with these unknown parts, one line, TARGET = CGRAM. -/
def unknownDev : Dev :=
  { ddram := Vector.replicate 128 0x7E, ac := 0x33, increment := true, shift := false, displayOn := false, cursorOn := false,
    blinkOn := false, eightBit := false, twoLine := false, largeFont := false, target := .cgram }

/-- Nothing about samples. -/
def quiet : State := script []

/-- Reset with this on the host's list. -/
def resetWith (h : List HostAction) : State := { State.reset with host := h }

/-- The next state, if there is one. -/
def after (o : Host.Outcome State Fault Refusal) : Option State :=
  match o with
  | .next s => some s
  | .fault _ => none
  | .refused _ => none

/-- The events a command adds to an empty trace. -/
def traceAfter (i : Instr) (s : State) : Option (List Event) := (after (exec i s)).map (·.trace)

/-- The bytes the display receives along a command (R144). -/
def bytesAfter (i : Instr) (s : State) : Option (List (Option (Level × Byte))) :=
  (after (exec i s)).map fun t => traceBytes (busNow s) t.trace

/-- KEYOUT, PRESSED, the number of samples and the OUT register of KR after a command. -/
def keyAfter (i : Instr) (s : State) : Option (Option Byte × Option Level × Nat × PortReg) :=
  (after (exec i s)).map fun t =>
    (t.keyout, t.pressed, (t.trace.filter fun e => match e with | .s _ _ _ => true | _ => false).length, t.kr.out)

/-- The fault a command raises, if it does and changes nothing else. -/
def faultOf (i : Instr) (s : State) : Option FaultRecord :=
  match after (exec i s) with
  | some t => if t = { s with fault := t.fault } then t.fault else none
  | none => none

/-- Command bytes and character bytes as the display receives them. -/
def cmd (b : Byte) : Option (Level × Byte) := some (false, b)
def chr (b : Byte) : Option (Level × Byte) := some (true, b)

/-! ## Well-formedness -/

/-- R64: a VALUE is a signed 32-bit integer; its bounds are well formed, one more is not. -/
theorem test_wellFormed_printNumber :
    (Instr.dispPrintNumber 2147483648).wellFormed = false ∧ (Instr.dispPrintNumber (-2147483649)).wellFormed = false ∧
    (Instr.dispPrintNumber 2147483647).wellFormed = true ∧ (Instr.dispPrintNumber (-2147483648)).wellFormed = true := by decide

theorem test_wellFormed_printNumberTo :
    (Instr.dispPrintNumberTo 0 0 2147483648).wellFormed = false ∧
    (Instr.dispPrintNumberTo 0 0 (-2147483649)).wellFormed = false ∧
    (Instr.dispPrintNumberTo 255 255 0).wellFormed = true := by decide

/-! ## Decoding: words written from R57 and R61, the vectors E1 to E30 -/

theorem test_decode_kpInit : decode 0b0001_0000_00000000_00000000_00000000 (.kpcfg exKp) = .ok (.kpInit exKp) := by rfl
theorem test_decode_kpRead : decode 0b0001_0001_00000000_00000000_00000000 .none = .ok .kpRead := by rfl
theorem test_decode_kpDetect : decode 0b0001_0010_00000000_00000011_00000000 .none = .ok (.kpDetect 3) := by rfl
theorem test_decode_dispInit : decode 0b0010_0000_00000000_00000000_00000000 (.dispcfg exDisp) = .ok (.dispInit exDisp) := by rfl
theorem test_decode_sendCommand : decode 0b0010_0001_00000000_00000000_00101000 .none = .ok (.dispSendCommand 0x28) := by rfl
theorem test_decode_printChar : decode 0b0010_0010_00000000_00000000_01000001 .none = .ok (.dispPrintChar 0x41) := by rfl
theorem test_decode_printCharTo : decode 0b0010_0011_00000001_00000101_00110111 .none = .ok (.dispPrintCharTo 1 5 0x37) := by rfl
theorem test_decode_printString :
    decode 0b0010_0100_00000000_00000000_00000000 (.text [0x48, 0x49]) = .ok (.dispPrintString [0x48, 0x49]) := by rfl
theorem test_decode_printStringTo :
    decode 0b0010_0101_00000010_00000011_00000000 (.text [0x48, 0x49]) = .ok (.dispPrintStringTo 2 3 [0x48, 0x49]) := by rfl
theorem test_decode_moveCursor : decode 0b0010_0110_00000011_00010011_00000000 .none = .ok (.dispMoveCursor 3 19) := by rfl
theorem test_decode_clear : decode 0b0010_0111_00000000_00000000_00000000 .none = .ok .dispClear := by rfl
theorem test_decode_returnHome : decode 0b0010_1000_00000000_00000000_00000000 .none = .ok .dispReturnHome := by rfl
theorem test_decode_printNumber : decode 0b0010_1001_00000000_00000000_00000000 (.value (-7)) = .ok (.dispPrintNumber (-7)) := by rfl
theorem test_decode_printNumberTo :
    decode 0b0010_1010_00000000_00001010_00000000 (.value 42) = .ok (.dispPrintNumberTo 0 10 42) := by rfl

/-- E15 to E26 and E29: the refused words. -/
theorem test_decode_refused :
    decode 0x00000000 .none = .error .illegalUnit ∧ decode 0x30000000 .none = .error .illegalUnit ∧
    decode 0xF2000000 .none = .error .illegalUnit ∧ decode 0x13000000 .none = .error .illegalOp ∧
    decode 0x2B000000 .none = .error .illegalOp ∧ decode 0x11000001 .none = .error .nonzeroUnusedField ∧
    decode 0x12010300 .none = .error .nonzeroUnusedField ∧ decode 0x27000100 .none = .error .nonzeroUnusedField ∧
    decode 0x26010041 .none = .error .nonzeroUnusedField ∧ decode 0x24000000 (.value 5) = .error .payloadKind ∧
    decode 0x29000000 (.foreign 3 2) = .error .payloadKind ∧ decode 0x10000000 .none = .error .payloadKind ∧
    decode 0x260014FF .none = .error .nonzeroUnusedField :=
  ⟨rfl, rfl, rfl, rfl, rfl, rfl, rfl, rfl, rfl, rfl, rfl, rfl, rfl⟩

/-- R73, PROG-2 and PROG-3: the written form of commands. -/
theorem test_asmText :
    asmText .dispClear = "DISP_CLEAR" ∧ asmText (.dispMoveCursor 2 4) = "DISP_MOVE_CURSOR 2, 4" ∧
    asmText (.dispPrintStringTo 0 0 [0x48, 0x49]) = "DISP_PRINT_STRING_TO 0, 0, \"HI\"" ∧
    asmText (.dispInit exDisp) = "DISP_INIT data=(4,5,6,7), ctrl=(0,1,2)" := by decide

/-! ## Keypad -/

/-- V-KP-0: the 20 events of KP_INIT with EX-KP from reset. -/
theorem test_kpInit_trace :
    traceAfter (.kpInit exKp) State.reset = some
      [.w .kc .dir 0 false, .w .kc .pull 0 true, .w .kc .dir 1 false, .w .kc .pull 1 true, .w .kc .dir 2 false,
       .w .kc .pull 2 true, .w .kc .dir 3 false, .w .kc .pull 3 true, .w .kc .dir 4 false, .w .kc .pull 4 true,
       .w .kc .dir 5 false, .w .kc .pull 5 true, .w .kr .dir 0 true, .w .kr .out 0 true, .w .kr .dir 1 true,
       .w .kr .out 1 true, .w .kr .dir 2 true, .w .kr .out 2 true, .w .kr .dir 3 true, .w .kr .out 3 true] := by decide +kernel

/-- V-KP-0, F2, F3: what KP_INIT leaves, and its faults. -/
theorem test_kpInit_state :
    ((after (exec (.kpInit exKp) State.reset)).map fun t => (t.kr, t.kc, t.kpState, t.keyout, t.pressed)) =
      some (⟨0x0F, 0x0F, 0⟩, ⟨0, 0, 0x3F⟩, .ready, none, none) ∧
    faultOf (.kpInit exKp) quiet = some ⟨.kpDoubleInit, some 0x10000000⟩ ∧
    faultOf (.kpInit { exKp with colPins := #v[0, 1, 2, 3, 4, 4] }) State.reset = some ⟨.kpConfigInvalid, some 0x10000000⟩ ∧
    faultOf (.kpInit { exKp with keyMap := List.replicate 24 0x100 }) State.reset = some ⟨.kpConfigInvalid, some 0x10000000⟩ := by
  refine ⟨?_, ?_, ?_, ?_⟩ <;> decide +kernel

/-- V-KP-2a, V-KP-2f, V-KP-3: the first match in row-major order, the last key, and no key. -/
theorem test_kpRead_single :
    keyAfter .kpRead (single [⟨2, 0⟩, ⟨1, 5⟩, ⟨1, 4⟩]) = some (some 0x4B, some true, 11, 0x0D) ∧
    keyAfter .kpRead (single [⟨3, 5⟩]) = some (some 0x58, some true, 24, 0x07) ∧
    keyAfter .kpRead { single [] with keyout := some 0x3F } = some (some 0x3F, some false, 24, 0x07) := by decide +kernel

/-- V-KP-4a: a key held for ever leaves KP_READ in the wait loop, one closed sample a step, no fault. -/
theorem test_kpRead_hangs :
    ((after (Host.Core.run core 2 { ready .blockingRelease (.ideal [] [⟨0, 2⟩]) with host := [.issue 0x11000000 .none] })).map
      fun t : State => (t.trace.drop 5, decide (t.seq = .idle), t.fault, t.keyout)) =
      some ([.s .kc 0 true, .s .kc 1 true, .s .kc 2 false, .s .kc 2 false], false, none, none) := by decide +kernel

/-- V-KP-4e, V-KP-4f: KP_DETECT samples one column and drives no row. -/
theorem test_kpDetect :
    keyAfter (.kpDetect 1) (ready .blockingRelease (.ideal [] [⟨0, 1⟩])) = some (none, some false, 1, 0x0F) ∧
    keyAfter (.kpDetect 1) { single [⟨3, 1⟩] with kr := ⟨0x0F, 0x07, 0⟩ } = some (none, some true, 1, 0x07) := by decide +kernel

/-- V-KP-4h, V-KP-4i, F1: the faults of the keypad commands and their order. -/
theorem test_keypad_faults :
    faultOf (.kpDetect 9) State.reset = some ⟨.kpNotInit, some 0x12000900⟩ ∧
    faultOf (.kpDetect 6) quiet = some ⟨.kpArgRange, some 0x12000600⟩ ∧
    faultOf .kpRead State.reset = some ⟨.kpNotInit, some 0x11000000⟩ := by decide +kernel

/-! ## Display -/

/-- V-CTL-1: DISP_INIT with EX-DISP has 103 events, 77 of them writes, its first eight, and its bytes. -/
theorem test_dispInit :
    ((traceAfter (.dispInit exDisp) State.reset).map fun l => (l.length, l.take 8)) =
      some (103, [.w .dd .dir 4 true, .w .dd .dir 5 true, .w .dd .dir 6 true, .w .dd .dir 7 true, .w .dc .dir 0 true,
        .w .dc .dir 1 true, .w .dc .dir 2 true, .d .power]) ∧
    ((after (exec (.dispInit exDisp) State.reset)).map fun t => receivedBytes none t) =
      some [cmd 0x02, cmd 0x28, cmd 0x0E, cmd 0x06, cmd 0x01] := by decide +kernel

/-- V-CTL-1, F6, F7, V-XF-3: the state after DISP_INIT, its faults, and DD and DC as one port. -/
theorem test_dispInit_state :
    ((after (exec (.dispInit exDisp) State.reset)).map fun t => (t.dd, t.dc, t.dispState, t.dl, t.rsl)) =
      some (⟨0xF0, 0x10, 0⟩, ⟨0x07, 0, 0⟩, .ready, 0x01, false) ∧
    faultOf (.dispInit exDisp) quiet = some ⟨.dispDoubleInit, some 0x20000000⟩ ∧
    faultOf (.dispInit { exDisp with ctrlPins := #v[0, 1, 1] }) State.reset = some ⟨.dispConfigInvalid, some 0x20000000⟩ ∧
    ((after (exec (.dispInit exDisp) { State.reset with params := { Params.default with sharedDisp := true } })).map
      fun t => (t.dd, t.dc, receivedBytes none t)) =
      some (⟨0xF7, 0x10, 0⟩, ⟨0, 0, 0⟩, [cmd 0x02, cmd 0x28, cmd 0x0E, cmd 0x06, cmd 0x01]) := by
  refine ⟨?_, ?_, ?_, ?_⟩ <;> decide +kernel

/-- V-XF-2: the full trace of XFER(1, 0xA5). -/
theorem test_printChar_trace :
    traceAfter (.dispPrintChar 0xA5) quiet = some
      [.w .dc .out 0 true, .w .dc .out 1 false, .w .dd .out 4 false, .w .dd .out 5 true, .w .dd .out 6 false,
       .w .dd .out 7 true, .w .dc .out 2 true, .d .edge, .w .dc .out 2 false, .d .edge, .w .dd .out 4 true,
       .w .dd .out 5 false, .w .dd .out 6 true, .w .dd .out 7 false, .w .dc .out 2 true, .d .edge, .w .dc .out 2 false,
       .d .edge] := by decide +kernel

/-- V-XF-2, F13: the state after it, and the fault before DISP_INIT. -/
theorem test_printChar_state :
    ((after (exec (.dispPrintChar 0xA5) quiet)).map fun t => (t.dl, t.rsl, t.dd.out, t.dc.out)) =
      some (0xA5, true, 0x50, 0x01) ∧
    faultOf (.dispPrintChar 0x41) State.reset = some ⟨.dispNotInit, some 0x22000041⟩ := by decide +kernel

/-- V-XF-1: command bytes as the display receives them. -/
theorem test_sendCommand :
    bytesAfter (.dispSendCommand 0x28) quiet = some [cmd 0x28] ∧ bytesAfter (.dispSendCommand 0x00) quiet = some [cmd 0x00] ∧
    bytesAfter (.dispSendCommand 0xD4) quiet = some [cmd 0xD4] := by decide +kernel

/-- E7, V-POS-2: the character is printed also where the position is out of range. -/
theorem test_printCharTo :
    bytesAfter (.dispPrintCharTo 1 5 0x37) quiet = some [cmd 0xC5, chr 0x37] ∧
    bytesAfter (.dispPrintCharTo 4 0 0x41) quiet = some [chr 0x41] := by decide +kernel

/-- V-TXT-7: a string ends at its first 0x00; V-TXT-6: an empty one sends nothing. -/
theorem test_printString :
    bytesAfter (.dispPrintString [0x41, 0x42, 0x00, 0x43, 0x44]) quiet = some [chr 0x41, chr 0x42] ∧
    bytesAfter (.dispPrintString []) quiet = some [] := by decide +kernel

/-- R129 with WRAP_COL 2 and DISP_COLS 3 (R6): characters 2 to 4 positioned on row 1, character 5 not (R132). -/
theorem test_printString_wrap :
    bytesAfter (.dispPrintString [0x41, 0x42, 0x43, 0x44, 0x45, 0x46])
        { quiet with params := { Params.default with wrapCol := 2, dispCols := 3 } } =
      some [chr 0x41, chr 0x42, cmd 0xC0, chr 0x43, cmd 0xC1, chr 0x44, cmd 0xC2, chr 0x45, chr 0x46] := by decide +kernel

/-- E9, V-TXT-9. -/
theorem test_printStringTo :
    bytesAfter (.dispPrintStringTo 2 3 [0x48, 0x49]) quiet = some [cmd 0x97, chr 0x48, chr 0x49] ∧
    bytesAfter (.dispPrintStringTo 4 0 [0x48, 0x49]) quiet = some [chr 0x48, chr 0x49] := by decide +kernel

/-- E10, V-POS-1, V-POS-2. -/
theorem test_moveCursor :
    bytesAfter (.dispMoveCursor 3 19) quiet = some [cmd 0xD7] ∧ bytesAfter (.dispMoveCursor 2 4) quiet = some [cmd 0x94] ∧
    traceAfter (.dispMoveCursor 0 20) quiet = some [] ∧ traceAfter (.dispMoveCursor 4 0) quiet = some [] ∧
    faultOf (.dispMoveCursor 9 9) State.reset = some ⟨.dispNotInit, some 0x26090900⟩ := by decide +kernel

/-- V-CTL-2: DISP_CLEAR has 38 events, a LONG delay after each of its two commands. -/
theorem test_clear :
    bytesAfter .dispClear quiet = some [cmd 0x01, cmd 0x02] ∧
    ((traceAfter .dispClear quiet).map fun l => (l.length, l[18]?, l[37]?)) = some (38, some (.d .long), some (.d .long)) := by
  decide +kernel

theorem test_returnHome :
    bytesAfter .dispReturnHome quiet = some [cmd 0x02] ∧
    ((traceAfter .dispReturnHome quiet).map fun l => l.length) = some 18 := by decide +kernel

/-- V-NUM. -/
theorem test_printNumber :
    bytesAfter (.dispPrintNumber (-305)) quiet = some [chr 0x2D, chr 0x33, chr 0x30, chr 0x35] ∧
    bytesAfter (.dispPrintNumber 0) quiet = some [chr 0x30] := by decide +kernel

theorem test_printNumberTo :
    bytesAfter (.dispPrintNumberTo 0 10 42) quiet = some [cmd 0x8A, chr 0x34, chr 0x32] ∧
    bytesAfter (.dispPrintNumberTo 0 20 5) quiet = some [chr 0x35] := by decide +kernel

/-- PROG-2, R147, R148: DEV after the bootstrap, DISP_MOVE_CURSOR 2, 4 and a character shows it at (2, 0). -/
theorem test_dev :
    ((devRun { ddram := Vector.replicate 128 0, ac := 5, increment := false, shift := true, displayOn := false,
               cursorOn := false, blinkOn := true, eightBit := true, twoLine := false, largeFont := true, target := .cgram }
        [cmd 0x02, cmd 0x28, cmd 0x0E, cmd 0x06, cmd 0x01, cmd 0x94, chr 0x2A]).map fun d => (d.ddram[0x14], d.ac)) =
      some (0x2A, 0x15) ∧ visibleAt 0x14 = some (2, 0) := by decide +kernel

/-! ## Steps -/

/-- F11, F12: a refused word, and the step after a fault. -/
theorem test_step_stops :
    ((after (step (resetWith [.issue 0x2B000000 .none]))).map fun t => (t.refused, t.trace)) = some (some .illegalOp, []) ∧
    after (step { quiet with fault := some ⟨.kpNotInit, none⟩, host := [.issue 0x11000000 .none] }) = none := by decide +kernel

/-- R178, R180: a reset after five micro-steps of KP_INIT, and one of a faulted KDB. -/
theorem test_step_reset :
    ((after (step (resetWith [.issueThenReset 0x10000000 (.kpcfg exKp) 5 (some 0x3F)]))).map
      fun t => (t.keyout, t.kpCfg, t.kpState, t.trace, t.kc)) = some (some 0x3F, none, .uninit, [], ⟨0, 0, 0⟩) ∧
    ((after (step { quiet with fault := some ⟨.kpNotInit, none⟩, host := [.reset none] })).map
      fun t => (t.fault, t.kpState)) = some (none, .uninit) := by decide +kernel

/-- R5, R22: the same configuration on ports of 6 and of 5 pins, and pin 9 on ports of 16. -/
theorem test_portWidth :
    (kpValid 6 exKp, kpValid 5 exKp, dispValid 7 false exDisp, dispValid 16 false { exDisp with dataPins := #v[4, 5, 6, 9] }) =
      (true, false, false, true) ∧
    ((after (exec (.dispInit { exDisp with dataPins := #v[4, 5, 6, 9] })
      { State.reset with params := { Params.default with portWidth := 16 } })).map fun t => (t.dd.dir, t.dd.out, t.fault)) =
      some (0x270, 0x10, none) := by decide +kernel

/-- R145, R147: DEV from power-on, a data byte on a one-line display, and one outside the two lines. -/
theorem test_dev_data :
    ((devRun (devPowerOn unknownDev) [some (false, 0x80), some (false, 0x04), some (true, 0x41)]).map
      fun d => (d.target, d.ac, d.ddram[0])) = some (.ddram, 0x7F, 0x41) ∧
    ((devRun unknownDev [some (false, 0x28), some (false, 0xA8), some (false, 0x06), some (true, 0x42)]).map
      fun d => (d.ac, d.ddram[0x28])) = some (0x29, 0x42) ∧
    (devRun unknownDev [some (false, 0x40), some (true, 0x42)]).isNone = true := by decide +kernel

/-- R184: the bytes 0x02, 0x28 received aligned, and shifted by the nibble 0xF left over from a reset in mid-transfer. -/
theorem test_phase :
    PhaseDraw true (some ⟨some false, some true, some true, some true, some true⟩)
      (some ⟨some false, some true, some true, some true, some true⟩) ∧
    pairNibbles none ([(false, 0x02), (false, 0x28)].flatMap sentNibbles) = [some (false, 0x02), some (false, 0x28)] ∧
    pairNibbles (some ⟨some false, some true, some true, some true, some true⟩)
      ([(false, 0x02), (false, 0x28)].flatMap sentNibbles) = [some (false, 0xF0), some (false, 0x22)] :=
  ⟨.inr ⟨_, rfl, .inr rfl⟩, by decide +kernel, by decide +kernel⟩

/-- R112, R184: in DISP_INIT the first transfer's middle lasts from EN's first rise, its 17th micro-step, over the first
falling edge, its 19th, to the second, its 27th. -/
theorem test_inMidTransfer :
    ([16, 17, 19, 24, 26, 27].map fun n =>
      inMidTransfer (microSteps n (loadCommand State.reset 0x20000000 (.dispcfg exDisp)))) =
      [false, true, true, true, true, false] := by decide +kernel

/-- A table word placed where step takes its next command runs from reset (log 16). -/
theorem test_withFetchWord :
    ((after (step (State.reset.withFetchWord 32 0x21000028))).map fun t => t.fault) =
      some (some ⟨.dispNotInit, some 0x21000028⟩) := by decide +kernel

/-! ## Witnesses: for each statement of Certificates/Slice0 with hypotheses, states and operands that meet them.
Each clause has its own, at a boundary of its range where it has one. -/

theorem quiet_kpSetUp : KpSetUp quiet := by
  refine ⟨?_, ?_, ?_, ?_⟩
  · unfold RowPinsDistinct; decide +kernel
  · unfold ColPinsDistinct; decide +kernel
  · decide +kernel
  · decide +kernel

theorem quiet_dispSetUp : DispSetUp quiet := by
  refine ⟨⟨?_, ?_, ?_⟩, ?_, ?_, ?_, ?_⟩ <;> decide +kernel

theorem quiet_rows : RowsExclusive quiet := by
  unfold RowsExclusive
  decide +kernel

theorem quiet_fit : PortsFit quiet := by
  unfold PortsFit FitsWidth
  decide +kernel

theorem quiet_pins : PinsInRange quiet := ⟨fun _ => by decide +kernel, fun _ => by decide +kernel⟩

/-- The invariant holds with both units READY, whatever the host does next. -/
theorem quiet_inv (h : List HostAction) : Inv { quiet with host := h } :=
  ⟨quiet_fit, quiet_pins, fun _ => quiet_kpSetUp, fun _ => quiet_rows, fun _ => quiet_dispSetUp, .inl rfl⟩

/-- A KP_DETECT of column 0 in its wait loop, this on the host's list. -/
def waiting (vs : List Level) : State :=
  { script vs with seq := .run (encode (.kpDetect 0)) (.at [.waitRelease 0]) }

theorem witness_ResetPinsAreInputs :
    (∀ cfg, Instr.kpRead ≠ .kpInit cfg) ∧ (∀ cfg, Instr.kpRead ≠ .dispInit cfg) ∧
    (∀ cfg, Instr.dispClear ≠ .kpInit cfg) ∧ (∀ cfg, Instr.dispClear ≠ .dispInit cfg) := by
  refine ⟨?_, ?_, ?_, ?_⟩ <;> intro cfg <;> exact Instr.noConfusion

/-- A command from an idle KDB, and a wait loop that goes on. -/
theorem witness_StepKeepsInvariant :
    (Inv { quiet with host := [.issue 0x21000028 .none] } ∧
      ∃ t, step { quiet with host := [.issue 0x21000028 .none] } = .next t) ∧
    (Inv (waiting [false]) ∧ ∃ t, step (waiting [false]) = .next t) :=
  ⟨⟨quiet_inv _, _, rfl⟩,
   ⟨quiet_fit, quiet_pins, fun _ => quiet_kpSetUp, fun _ => quiet_rows, fun _ => quiet_dispSetUp, .inr (.inr ⟨_, _, _, rfl, rfl, .inr ⟨⟨_, rfl⟩, rfl⟩⟩)⟩,
   _, rfl⟩

theorem witness_StepRunsDecodedCommand :
    (AcceptsCommand (resetWith [.issue 0x2A000A00 (.value 42)]) ∧
      (resetWith [.issue 0x2A000A00 (.value 42)]).host = .issue 0x2A000A00 (.value 42) :: [] ∧
      decode 0x2A000A00 (.value 42) = .ok (.dispPrintNumberTo 0 10 42)) ∧
    decodeTableWord 32 0x2A000A00 = some (.dispPrintNumberTo 0 10 0) :=
  ⟨⟨⟨rfl, rfl, rfl⟩, rfl, rfl⟩, rfl⟩

theorem witness_IllegalWordIsRefused :
    (AcceptsCommand (resetWith [.issue 0x13000000 .none]) ∧
      (resetWith [.issue 0x13000000 .none]).host = .issue 0x13000000 .none :: [] ∧
      decode 0x13000000 .none = .error .illegalOp) ∧
    ((refuse quiet .illegalOp).fault = none ∧ (refuse quiet .illegalOp).refused = some .illegalOp ∧
      ∀ l more, (refuse quiet .illegalOp).host ≠ .reset l :: more) :=
  ⟨⟨⟨rfl, rfl, rfl⟩, rfl, rfl⟩, rfl, rfl, fun _ _ => (List.cons_ne_nil _ _).symm⟩

theorem witness_FaultStopsUntilReset :
    ((raiseFault quiet .kpNotInit none).fault = some ⟨.kpNotInit, none⟩ ∧
      ∀ l more, (raiseFault quiet .kpNotInit none).host ≠ .reset l :: more) ∧
    ∃ t, step { raiseFault quiet .kpNotInit none with host := [.reset none] } = .next t :=
  ⟨⟨rfl, fun _ _ => (List.cons_ne_nil _ _).symm⟩, _, rfl⟩

theorem witness_ResetFromAnyState :
    ({ waiting [] with host := [.reset (some 0xFF)] } : State).host = .reset (some 0xFF) :: [] ∧
    AcceptsCommand (resetWith [.issueThenReset 0x10000000 (.kpcfg exKp) 5 none]) ∧
    (resetWith [.issueThenReset 0x10000000 (.kpcfg exKp) 5 none]).host =
      .issueThenReset 0x10000000 (.kpcfg exKp) 5 none :: [] :=
  ⟨rfl, ⟨rfl, rfl, rfl⟩, rfl⟩

theorem witness_HostAccessBetweenCommands :
    (AcceptsCommand { quiet with host := [.readKeyout], keyout := some 0xFF } ∧
      ({ quiet with host := [.readKeyout], keyout := some 0xFF } : State).keyout = some 0xFF) ∧
    (AcceptsCommand { quiet with host := [.readKeyout] } ∧ ({ quiet with host := [.readKeyout] } : State).keyout = none) ∧
    AcceptsCommand { quiet with host := [.writeKeyout 0] } ∧
    (AcceptsCommand { quiet with host := [.readPressed], pressed := some false } ∧
      ({ quiet with host := [.readPressed], pressed := some false } : State).pressed = some false) ∧
    (AcceptsCommand { quiet with host := [.readPressed] } ∧ ({ quiet with host := [.readPressed] } : State).pressed = none) ∧
    AcceptsCommand { quiet with host := [.readDisplay] } ∧ (AcceptsCommand quiet ∧ quiet.host = []) :=
  ⟨⟨⟨rfl, rfl, rfl⟩, rfl⟩, ⟨⟨rfl, rfl, rfl⟩, rfl⟩, ⟨rfl, rfl, rfl⟩, ⟨⟨rfl, rfl, rfl⟩, rfl⟩, ⟨⟨rfl, rfl, rfl⟩, rfl⟩,
   ⟨rfl, rfl, rfl⟩, ⟨rfl, rfl, rfl⟩, rfl⟩

theorem witness_ParametersNeverChange : ∃ t, step { quiet with host := [.reset none] } = .next t := ⟨_, rfl⟩

theorem witness_TraceIsAppendOnly :
    (∀ l more, ({ quiet with host := [.issue 0x27000000 .none] } : State).host ≠ .reset l :: more) ∧
    (∀ w p n l more, ({ quiet with host := [.issue 0x27000000 .none] } : State).host ≠ .issueThenReset w p n l :: more) ∧
    ∃ t, step { quiet with host := [.issue 0x27000000 .none] } = .next t :=
  ⟨fun _ _ h => HostAction.noConfusion (List.cons.inj h).1, fun _ _ _ _ _ h => HostAction.noConfusion (List.cons.inj h).1, _, rfl⟩

/-- A second DISP_INIT, with both units READY. -/
theorem witness_ConfigurationIsImmutable :
    Inv { quiet with host := [.issue 0x20000000 (.dispcfg exDisp)] } ∧
    (∀ l more, ({ quiet with host := [.issue 0x20000000 (.dispcfg exDisp)] } : State).host ≠ .reset l :: more) ∧
    (∀ w p n l more,
      ({ quiet with host := [.issue 0x20000000 (.dispcfg exDisp)] } : State).host ≠ .issueThenReset w p n l :: more) ∧
    (∃ t, step { quiet with host := [.issue 0x20000000 (.dispcfg exDisp)] } = .next t) ∧
    quiet.kpState = .ready ∧ quiet.dispState = .ready :=
  ⟨quiet_inv _, fun _ _ h => HostAction.noConfusion (List.cons.inj h).1,
   fun _ _ _ _ _ h => HostAction.noConfusion (List.cons.inj h).1, ⟨_, rfl⟩, rfl, rfl⟩

theorem witness_DecodeOfEncode : (Instr.dispPrintNumberTo 255 255 (-2147483648)).wellFormed = true := by decide

theorem witness_OnlyEncodedWordsDecode : decode 0x23FFFFFF .none = .ok (.dispPrintCharTo 255 255 255) := by rfl

/-- The reserved values next to each used range, and one field and payload kind that does not fit. -/
theorem witness_ReservedEncodingsRefused :
    (0x30000000 / 2 ^ 28 ≠ 1 ∧ 0x30000000 / 2 ^ 28 ≠ 2) ∧
    (0x13000000 / 2 ^ 28 = 1 ∧ 3 ≤ 0x13000000 / 2 ^ 24 % 16) ∧ (0x2B000000 / 2 ^ 28 = 2 ∧ 0xB ≤ 0x2B000000 / 2 ^ 24 % 16) ∧
    (opcodeAt (fieldUnit 0x11000001) (fieldOp 0x11000001) = .ok .kpRead ∧ usesData .kpRead = false ∧ fieldData 0x11000001 ≠ 0) ∧
    (opcodeAt (fieldUnit 0x27000100) (fieldOp 0x27000100) = .ok .dispClear ∧ usesCol .dispClear = false ∧ fieldCol 0x27000100 ≠ 0) ∧
    (opcodeAt (fieldUnit 0x12010300) (fieldOp 0x12010300) = .ok .kpDetect ∧ usesRow .kpDetect = false ∧ fieldRow 0x12010300 ≠ 0) ∧
    payloadKindOf (.value 2147483648) ≠ some (opcodeKind (opcodeOf (.dispPrintNumber 0))) := by
  refine ⟨by decide, by decide, by decide, ⟨rfl, rfl, by decide⟩, ⟨rfl, rfl, by decide⟩, ⟨rfl, rfl, by decide⟩, by decide⟩

theorem witness_PseudoInstructionsExpand : (0x7F : Byte).toNat < 0x80 ∧ 0x80 ≤ (0x80 : Byte).toNat := by decide

theorem witness_KeypadFaults :
    State.reset.kpState = .uninit ∧ (quiet.kpState = .ready ∧ 6 ≤ (6 : Byte).toNat) ∧
    kpValid 8 { exKp with rowPins := #v[0, 1, 2, 8] } = false := by decide

theorem witness_DisplayFaults :
    (isKeypad .dispClear = false ∧ isDispInit .dispClear = false ∧ State.reset.dispState = .uninit) ∧
    quiet.dispState = .ready ∧ dispValid 8 false { exDisp with ctrlPins := #v[0, 1, 8] } = false ∧
    dispValid 8 true { exDisp with dataPins := #v[0, 5, 6, 7] } = false := by decide

theorem witness_KeypadConfigValidity : kpValid 8 exKp = true := by decide

/-- The overlap is valid on two ports (V-KP-0, R24), not on one. -/
theorem witness_DisplayConfigValidity :
    dispValid 8 true exDisp = true ∧ dispValid 8 false { exDisp with dataPins := #v[0, 1, 2, 3] } = true := by decide

theorem witness_KpInitResult : State.reset.kpState = .uninit ∧ kpValid State.reset.params.portWidth exKp = true := by decide

/-- Column 5 under a set-up keypad, with and without a closed key on an active row. -/
theorem witness_IdealColumnSample :
    (single [⟨3, 5⟩]).env = .ideal [] [⟨3, 5⟩] ∧ portBit (single [⟨3, 5⟩]) .kc .dir (colPin (single [⟨3, 5⟩]) 5) = false ∧
    portBit (single [⟨3, 5⟩]) .kc .pull (colPin (single [⟨3, 5⟩]) 5) = true := by decide +kernel

theorem witness_SampleChangesNoKdbState : (script [false]).env = .draws [false] := rfl

theorem witness_KpReadNoKey :
    (script (List.replicate 24 true)).kpState = .ready ∧
    (script (List.replicate 24 true)).env = .draws (List.replicate 24 true ++ []) := ⟨rfl, rfl⟩

/-- The first and the last key of the scan. -/
theorem witness_KpReadSingleSampleKey :
    (ready .singleSample (.draws [false])).kpState = .ready ∧ (ready .singleSample (.draws [false])).params.detectMode = .singleSample ∧
    (ready .singleSample (.draws [false])).env = .draws (List.replicate (6 * 0 + 0) true ++ false :: []) ∧
    (ready .singleSample (.draws (List.replicate 23 true ++ [false]))).env =
      .draws (List.replicate (6 * 3 + 5) true ++ false :: []) := ⟨rfl, rfl, rfl, rfl⟩

/-- The first key held for one sample, the last for two. -/
theorem witness_KpReadBlockingKey :
    quiet.kpState = .ready ∧ quiet.params.detectMode = .blockingRelease ∧ quiet.fault = none ∧ quiet.refused = none ∧
    quiet.host = [] ∧
    (script [false, true]).env = .draws (List.replicate (6 * 0 + 0) true ++ (List.replicate (0 + 1) false ++ true :: [])) ∧
    (script (List.replicate 23 true ++ [false, false, true])).env =
      .draws (List.replicate (6 * 3 + 5) true ++ (List.replicate (1 + 1) false ++ true :: [])) := ⟨rfl, rfl, rfl, rfl, rfl, rfl, rfl⟩

theorem witness_KpReadOutcomes : quiet.kpState = .ready := rfl

theorem witness_FirstMatchUnderIdealEnvironment :
    ((single [⟨2, 0⟩, ⟨1, 5⟩, ⟨1, 4⟩]).kpState = .ready ∧ KpSetUp (single [⟨2, 0⟩, ⟨1, 5⟩, ⟨1, 4⟩]) ∧
      (single [⟨2, 0⟩, ⟨1, 5⟩, ⟨1, 4⟩]).params.detectMode = .singleSample ∧
      (single [⟨2, 0⟩, ⟨1, 5⟩, ⟨1, 4⟩]).env = .ideal [] [⟨2, 0⟩, ⟨1, 5⟩, ⟨1, 4⟩] ∧
      FirstClosed [⟨2, 0⟩, ⟨1, 5⟩, ⟨1, 4⟩] ⟨1, 4⟩) ∧
    (KpSetUp (single []) ∧ (single []).env = .ideal [] []) := by
  refine ⟨⟨rfl, quiet_kpSetUp, rfl, rfl, ?_⟩, quiet_kpSetUp, rfl⟩
  unfold FirstClosed
  decide

theorem witness_HeldKeyHangsKpRead :
    (ready .blockingRelease (.ideal [] [⟨3, 5⟩])).kpState = .ready ∧ KpSetUp (ready .blockingRelease (.ideal [] [⟨3, 5⟩])) ∧
    (ready .blockingRelease (.ideal [] [⟨3, 5⟩])).params.detectMode = .blockingRelease ∧
    (ready .blockingRelease (.ideal [] [⟨3, 5⟩])).fault = none ∧ (ready .blockingRelease (.ideal [] [⟨3, 5⟩])).refused = none ∧
    (ready .blockingRelease (.ideal [] [⟨3, 5⟩])).host = [] ∧
    (ready .blockingRelease (.ideal [] [⟨3, 5⟩])).env = .ideal [] [⟨3, 5⟩] ∧ FirstClosed [⟨3, 5⟩] ⟨3, 5⟩ := by
  refine ⟨rfl, quiet_kpSetUp, rfl, rfl, rfl, rfl, rfl, ?_⟩
  unfold FirstClosed
  decide

/-- Columns 0 and 5. -/
theorem witness_KpDetectSingleSample :
    (single []).kpState = .ready ∧ (0 : Byte).toNat = (0 : Fin 6).val ∧ (5 : Byte).toNat = (5 : Fin 6).val ∧
    (single []).params.detectMode = .singleSample := by decide

theorem witness_KpDetectBlocking :
    ((script [true]).kpState = .ready ∧ (5 : Byte).toNat = (5 : Fin 6).val ∧
      (script [true]).params.detectMode = .blockingRelease ∧ sampleValue (script [true]) 5 = true) ∧
    ((script [false, true]).fault = none ∧ (script [false, true]).refused = none ∧ (script [false, true]).host = [] ∧
      (script [false, true]).env = .draws (List.replicate (0 + 1) false ++ true :: [])) :=
  ⟨⟨rfl, rfl, rfl, rfl⟩, rfl, rfl, rfl, rfl⟩

theorem witness_ClosedSampleKeepsWaiting :
    (waiting [false]).seq = .run (encode (.kpDetect 0)) (.at (.waitRelease 0 :: [])) ∧ (waiting [false]).fault = none ∧
    (waiting [false]).refused = none ∧ (∀ l later, (waiting [false]).host ≠ .reset l :: later) ∧
    sampleValue (waiting [false]) 0 = false := ⟨rfl, rfl, rfl, fun _ _ => (List.cons_ne_nil _ _).symm, rfl⟩

theorem witness_DispInitResult :
    State.reset.dispState = .uninit ∧ dispValid State.reset.params.portWidth State.reset.params.sharedDisp exDisp = true := by decide

theorem witness_DispSendCommandResult : quiet.dispState = .ready := rfl
theorem witness_DispPrintCharResult : quiet.dispState = .ready := rfl
theorem witness_DispClearResult : quiet.dispState = .ready := rfl
theorem witness_DispReturnHomeResult : quiet.dispState = .ready := rfl

/-- The last position in range, and the first rows and columns out of it. -/
theorem witness_DispMoveCursorResult :
    quiet.dispState = .ready ∧ ((3 : Byte).toNat < 4 ∧ (19 : Byte).toNat < quiet.params.dispCols) ∧
    4 ≤ (4 : Byte).toNat ∧ quiet.params.dispCols ≤ (20 : Byte).toNat := by decide

theorem witness_DispPrintCharToResult :
    quiet.dispState = .ready ∧ ((3 : Byte).toNat < 4 ∧ (19 : Byte).toNat < quiet.params.dispCols) ∧
    4 ≤ (4 : Byte).toNat ∧ quiet.params.dispCols ≤ (20 : Byte).toNat := by decide

theorem witness_DispPrintStringResult : quiet.dispState = .ready := rfl
theorem witness_DispPrintStringToResult : quiet.dispState = .ready := rfl
theorem witness_DispPrintNumberResult : quiet.dispState = .ready := rfl
theorem witness_DispPrintNumberToResult : quiet.dispState = .ready := rfl

theorem witness_DisplayReceivesTheBytesSent :
    (isKeypad .dispClear = false ∧ isDispInit .dispClear = false ∧ quiet.dispState = .ready ∧ DispSetUp quiet ∧
      ∃ t, exec .dispClear quiet = .next t) ∧
    (State.reset.dispState = .uninit ∧ dispValid State.reset.params.portWidth State.reset.params.sharedDisp exDisp = true ∧
      ∃ t, exec (.dispInit exDisp) State.reset = .next t) :=
  ⟨⟨rfl, rfl, rfl, quiet_dispSetUp, _, rfl⟩, rfl, by decide, _, rfl⟩

/-- The next state of the witness has distinct pins. -/
theorem witness_ReadWriteLineNeverHigh :
    isKeypad (.dispMoveCursor 4 0) = false ∧ exec (.dispMoveCursor 4 0) quiet = .next quiet ∧ DispPinsDistinct quiet :=
  ⟨rfl, rfl, quiet_dispSetUp.1⟩

/-- Strings of 20, 21, 40 and 41 characters. -/
theorem witness_PrintStringEventCount :
    quiet.dispState = .ready ∧ quiet.params.wrapCol = 20 ∧ quiet.params.wrapRow = 1 ∧ quiet.params.dispCols = 20 ∧
    (∃ t, exec (.dispPrintString (List.replicate 20 0x41)) quiet = .next t) ∧ textLen (List.replicate 20 0x41) = 20 ∧
    (∃ t, exec (.dispPrintString (List.replicate 21 0x41)) quiet = .next t) ∧ textLen (List.replicate 21 0x41) = 21 ∧
    (∃ t, exec (.dispPrintString (List.replicate 40 0x41)) quiet = .next t) ∧ textLen (List.replicate 40 0x41) = 40 ∧
    (∃ t, exec (.dispPrintString (List.replicate 41 0x41)) quiet = .next t) ∧ textLen (List.replicate 41 0x41) = 41 :=
  ⟨rfl, rfl, rfl, rfl, exec_next _ _, rfl, exec_next _ _, rfl, exec_next _ _, rfl, exec_next _ _, rfl⟩

theorem witness_TextLenIsFirstZero :
    0 < textLen [0x41, 0x00] ∧ textLen [0x41, 0x00] < [0x41, (0x00 : Byte)].length := by decide

theorem witness_ReferenceDisplayAfterInit :
    State.reset.dispState = .uninit ∧ dispValid State.reset.params.portWidth State.reset.params.sharedDisp exDisp = true ∧
    State.reset.params.bootCmds = Params.default.bootCmds ∧ ∃ t, exec (.dispInit exDisp) State.reset = .next t :=
  ⟨rfl, by decide, rfl, exec_next _ _⟩

/-- The bounds of a VALUE (R64). -/
theorem witness_DecCornerValues : inNumRange (-2147483648) = true ∧ inNumRange 2147483647 = true := by decide

theorem witness_KeypadCommandFrame :
    isKeypad (.kpInit exKp) = true ∧ (∃ t, exec (.kpInit exKp) State.reset = .next t) ∧ (∃ t, exec .kpRead (single []) = .next t) ∧
    (∃ t, exec (.kpDetect 5) (single []) = .next t) ∧ (∀ k : Fin 4, (7 : Pin) ≠ rowPin (single []) k) :=
  ⟨rfl, ⟨_, rfl⟩, ⟨_, rfl⟩, ⟨_, rfl⟩, by decide +kernel⟩

/-- Pin 3 of DC is no display pin under EX-DISP. -/
theorem witness_DisplayCommandFrame :
    isKeypad (.dispPrintChar 0x41) = false ∧ isDispInit (.dispPrintChar 0x41) = false ∧
    (∃ t, exec (.dispPrintChar 0x41) quiet = .next t) ∧ ¬ BusOutBit quiet .dc .out 3 := by
  refine ⟨rfl, rfl, ⟨_, rfl⟩, ?_⟩
  unfold BusOutBit
  decide +kernel

theorem witness_OnlyDetectionCanHang :
    (AcceptsCommand { single [] with host := [.issue 0x27000000 .none] } ∧
      { single [] with host := [.issue 0x27000000 .none] }.params.detectMode = .singleSample) ∧
    (single []).params.detectMode = .singleSample ∧ Instr.dispClear ≠ .kpRead ∧ ∀ col, Instr.dispClear ≠ .kpDetect col :=
  ⟨⟨⟨rfl, rfl, rfl⟩, rfl⟩, rfl, Instr.noConfusion, fun _ => Instr.noConfusion⟩

/-- A command that completes, and one that ends in the wait loop. -/
theorem witness_ExecIsMicroSteps :
    (Instr.wellFormed .kpRead = true ∧ quiet.fault = none ∧ quiet.refused = none) ∧
    (∃ t, exec (.kpDetect 0) (script [true]) = .next t ∧ t.fault = none) ∧
    ∃ t, exec (.kpDetect 0) (script [false]) = .next t ∧ t.fault = none :=
  ⟨⟨rfl, rfl, rfl⟩, ⟨_, rfl, rfl⟩, _, rfl, rfl⟩

/-- The last column that fits the bus byte. -/
theorem witness_AddressFormatterIsOr : (255 : Nat) < 256 ∧ addressByte Params.default 0 255 = 0xFF := by decide

/-- Two states that differ in the display: one before DISP_INIT. -/
theorem witness_KeypadIgnoresDisplay :
    isKeypad (.kpDetect 5) = true ∧
    SameKeypadPart (script [true]) { script [true] with dispCfg := none, dispState := .uninit, dl := 0xFF, dd := .zero } ∧
    ∃ t, exec (.kpDetect 5) (script [true]) = .next t :=
  ⟨rfl, ⟨⟨rfl, rfl, rfl, rfl, rfl, rfl, rfl, rfl, rfl, rfl, rfl⟩, rfl⟩, _, rfl⟩

/-- Two states that differ in the keypad and the keys: one before KP_INIT. -/
theorem witness_DisplayIgnoresKeypad :
    isKeypad .dispReturnHome = false ∧
    SameDisplayPart quiet { quiet with kpCfg := none, kpState := .uninit, keyout := some 0xFF, env := .draws [true] } ∧
    ∃ t, exec .dispReturnHome quiet = .next t :=
  ⟨rfl, ⟨⟨rfl, rfl, rfl, rfl, rfl, rfl, rfl⟩, rfl⟩, _, rfl⟩

end Sys2Proof.Tests
end

section
/-! PROOFS. The scope statements (00_scope.md): what a step runs, what it never changes, the frames of the two units'
commands, the micro-step machine, and the independence of the two units. -/

namespace Sys2Proof.Machine

/-! ## Decoding an encoded command (R57 to R62) -/

theorem opcodeAt_opcodeCode (op : Opcode) : opcodeAt (opcodeCode op).1 (opcodeCode op).2 = .ok op := by
  cases op <;> rfl

/-- Every command's word is one of its own row of R61, zero in the fields the row does not use (R59). -/
theorem encode_eq_wordOf (i : Instr) : ∃ row col data : Byte, encode i = wordOf (opcodeOf i) row col data ∧
    (usesRow (opcodeOf i) = true ∨ row = 0) ∧ (usesCol (opcodeOf i) = true ∨ col = 0) ∧
    (usesData (opcodeOf i) = true ∨ data = 0) := by
  cases i <;>
    exact ⟨_, _, _, rfl, by simp [opcodeOf, usesRow], by simp [opcodeOf, usesCol], by simp [opcodeOf, usesData]⟩

theorem opcodeAt_encode (i : Instr) : opcodeAt (fieldUnit (encode i)) (fieldOp (encode i)) = .ok (opcodeOf i) := by
  obtain ⟨row, col, data, h, _⟩ := encode_eq_wordOf i
  rw [h, wordOf, fieldUnit_packWord, fieldOp_packWord]
  exact opcodeAt_opcodeCode _

theorem unusedNonzero_encode (i : Instr) : unusedNonzero (opcodeOf i) (encode i) = false := by
  obtain ⟨row, col, data, h, hrow, hcol, hdata⟩ := encode_eq_wordOf i
  simp only [unusedNonzero, h, wordOf, fieldRow_packWord, fieldCol_packWord, fieldData_packWord, Bool.or_eq_false_iff,
    Bool.and_eq_false_iff, Bool.not_eq_eq_eq_not, Bool.not_false, bne_eq_false_iff_eq]
  exact ⟨⟨hrow, hcol⟩, hdata⟩

/-- A well-formed command's payload is of the kind its row asks for (R60, R64). -/
theorem payloadKindOf_payloadOf {i : Instr} (h : i.wellFormed = true) :
    payloadKindOf (payloadOf i) = some (opcodeKind (opcodeOf i)) := by
  cases i with
  | dispPrintNumber v => exact if_pos h
  | dispPrintNumberTo row col v => exact if_pos h
  | _ => rfl

theorem buildInstr_encode (i : Instr) : buildInstr (opcodeOf i) (encode i) (payloadOf i) = some i := by
  cases i <;> simp [buildInstr, opcodeOf, payloadOf, encode, wordOf]

/-- Decoding gives a well-formed command back from its word and payload. -/
theorem decode_encode {i : Instr} (h : i.wellFormed = true) : decode (encode i) (payloadOf i) = .ok i := by
  simp [decode, opcodeAt_encode, unusedNonzero_encode, payloadKindOf_payloadOf h, buildInstr_encode]

/-! ## The step that takes an issued command -/

theorem startCommand_ok {w : Word} {p : Payload} {i : Instr} (h : decode w p = .ok i) (s : State) :
    startCommand s w p = exec i (issue s w p) := by
  simp [startCommand, h]

theorem step_issue {s : State} {w : Word} {p : Payload} {rest : List HostAction} (ha : AcceptsCommand s)
    (hh : s.host = .issue w p :: rest) : step s = startCommand { s with host := rest } w p := by
  obtain ⟨hq, hf, hr⟩ := ha
  rw [step_idle hq hf hr (by simp [NoReset, hh])]
  simp [idleStep, hh, hostAct]

theorem decode_of_decodeTableWord {nbits w : Nat} {i : Instr} (h : decodeTableWord nbits w = some i) :
    decode (tableWord nbits w) (tablePayload (tableWord nbits w)) = .ok i := by
  unfold decodeTableWord at h
  split at h
  · rename_i j hj
    cases h
    exact hj
  · cases h

/-- Settles O5: the idle step takes the issued command off the host's list and starts it; a placed word is an issued
command on a KDB made idle and healthy. -/
theorem stepRunsDecodedCommand : Obligations.StepRunsDecodedCommand := by
  refine ⟨fun s w p rest i ha hh hd => ?_, fun s nbits w i hd => ?_⟩
  · rw [step_issue ha hh, startCommand_ok hd]
    rfl
  · have hidle : AcceptsCommand (s.withFetchWord nbits w) := ⟨rfl, rfl, rfl⟩
    rw [step_issue hidle rfl, startCommand_ok (decode_of_decodeTableWord hd)]
    rfl

/-! ## The parameters -/

/-- Settles O11: by the cases of a step; commands and micro-steps write no parameter, and a reset keeps them. -/
theorem parametersNeverChange : Obligations.ParametersNeverChange := by
  intro s t h
  cases step_cases h with
  | reset l rest _ after => rw [after]; rfl
  | waits _ _ after => rw [after]
  | command w p rest i _ _ _ after => exact (exec_params after).2.1
  | illegal w p rest e _ _ _ after => rw [after]; rfl
  | cut w p n l rest _ _ after => rw [after, issueThenReset_eq]; rfl
  | readKeyout rest _ _ after => rw [after, hostReadKeyout]; split <;> rfl
  | writeKeyout v rest _ _ after => rw [after]; rfl
  | readPressed rest _ _ after => rw [after, hostReadPressed]; split <;> rfl
  | entry w i _ _ _ _ after => exact (exec_params after).2.1
  | entryIllegal w e _ _ _ _ after => rw [after]; rfl
  | resumes w ops _ _ _ after => rw [after]; exact (runOps_records w ops s).2.2.1

/-! ## Changes of the state that commute with micro-steps -/

/-- A micro-step's answer with its state changed by `f`. -/
def MicroResult.map (f : State → State) : MicroResult → MicroResult
  | .advance t => .advance (f t)
  | .spin t op => .spin (f t) op
  | .finish t => .finish (f t)

/-- A change `f` that commutes with the micro-steps of a program commutes with its run; `g` is what is left of `f`
where SEQ is written. -/
theorem runOps_map {f g : State → State} (w : Word) (ops : List MicroOp)
    (hop : ∀ op ∈ ops, ∀ t, microOp op (f t) = (microOp op t).map f)
    (hdone : ∀ t, complete (f t) = g (complete t))
    (hspin : ∀ t q, { f t with seq := q } = g { t with seq := q }) (s : State) :
    runOps w ops (f s) = g (runOps w ops s) := by
  induction ops generalizing s with
  | nil => exact hdone s
  | cons op ops ih =>
    rw [runOps, runOps, hop op (by simp) s]
    cases microOp op s with
    | advance t => exact ih (fun o ho => hop o (by simp [ho])) t
    | spin t op' => exact hspin t _
    | finish t => exact hdone t

/-- A change that leaves the detection mode and the sample as they are commutes with the first sample of detection. -/
theorem detectFirst_map {f : State → State} (s : State) (c : Fin 6) (hmode : (f s).params = s.params)
    (hv : sampleValue (f s) c = sampleValue s c) (ha : afterSample (f s) c = f (afterSample s c))
    (hp : ∀ t v, setPressed (f t) v = f (setPressed t v)) : detectFirst (f s) c = (detectFirst s c).map f := by
  unfold detectFirst
  rw [hmode, hv, ha]
  cases s.params.detectMode with
  | singleSample => exact congrArg MicroResult.advance (hp _ _)
  | blockingRelease =>
    cases readsClosed (sampleValue s c) with
    | true => rfl
    | false => exact congrArg MicroResult.advance (hp _ _)

/-- So it does with a sample of the wait loop. -/
theorem detectAgain_map {f : State → State} (s : State) (c : Fin 6) (hv : sampleValue (f s) c = sampleValue s c)
    (ha : afterSample (f s) c = f (afterSample s c)) (hp : ∀ t v, setPressed (f t) v = f (setPressed t v)) :
    detectAgain (f s) c = (detectAgain s c).map f := by
  unfold detectAgain
  rw [hv, ha]
  cases readsClosed (sampleValue s c) with
  | true => rfl
  | false => exact congrArg MicroResult.advance (hp _ _)

/-- `s` with SEQ at `q`. -/
def withSeq (q : Seq) (s : State) : State := { s with seq := q }

theorem pinWrite_withSeq (q : Seq) (s : State) (p : Port) (reg : Reg) (n : Pin) (v : Level) :
    pinWrite (withSeq q s) p reg n v = withSeq q (pinWrite s p reg n v) := by
  have hput : ∀ x, putPort (withSeq q s) p x = withSeq q (putPort s p x) := fun x => by
    have hpar : (withSeq q s).params = s.params := rfl
    unfold putPort
    rw [hpar]
    cases portHome s.params.sharedDisp p <;> rfl
  exact congrArg (emit · (.w p reg n v)) (hput _)

/-- No micro-step reads or writes SEQ. -/
theorem microOp_withSeq (q : Seq) (op : MicroOp) (s : State) :
    microOp op (withSeq q s) = (microOp op s).map (withSeq q) := by
  cases op with
  | pinWrite loc reg v =>
    have hpin : pinAt (withSeq q s) loc = pinAt s loc := by cases loc <;> rfl
    simp only [microOp, MicroResult.map, hpin, pinWrite_withSeq]
  | pinWriteRsl => exact congrArg MicroResult.advance (pinWrite_withSeq q s _ _ _ _)
  | pinWriteDl j bit => exact congrArg MicroResult.advance (pinWrite_withSeq q s _ _ _ _)
  | storeKpConfig =>
    refine congrArg MicroResult.advance ?_
    unfold storeKp
    cases hp : s.payload <;> simp only [withSeq, hp]
  | storeDispConfig =>
    refine congrArg MicroResult.advance ?_
    unfold storeDisp
    cases hp : s.payload <;> simp only [withSeq, hp]
  | detect c => exact detectFirst_map s c rfl rfl rfl fun _ _ => rfl
  | waitRelease c => exact detectAgain_map s c rfl rfl fun _ _ => rfl
  | reportKey =>
    have hpr : isPressed (withSeq q s) = isPressed s := rfl
    simp only [microOp, hpr]
    cases isPressed s <;> rfl
  | _ => rfl

/-- The run of a program does not depend on where SEQ stands before it. -/
theorem runOps_withSeq (w : Word) (ops : List MicroOp) (q : Seq) (s : State) :
    runOps w ops (withSeq q s) = runOps w ops s :=
  runOps_map (g := id) w ops (fun op _ t => microOp_withSeq q op t) (fun _ => rfl) (fun _ _ => rfl) s

/-! ## Runs and micro-steps (R7, R30) -/

section
variable {s t : State} {w : Word} {op : MicroOp} {rest : List MicroOp}

theorem microStep_advance (hq : s.seq = .run w (.at (op :: rest))) (hf : s.fault = none) (hr : s.refused = none)
    (h : microOp op s = .advance t) : microStep s = settle w rest t := by
  simp only [microStep, hf, hr, hq, h]

theorem microStep_spin {op' : MicroOp} (hq : s.seq = .run w (.at (op :: rest))) (hf : s.fault = none)
    (hr : s.refused = none) (h : microOp op s = .spin t op') :
    microStep s = { t with seq := .run w (.at (op' :: rest)) } := by
  simp only [microStep, hf, hr, hq, h]

theorem microStep_finish (hq : s.seq = .run w (.at (op :: rest))) (hf : s.fault = none) (hr : s.refused = none)
    (h : microOp op s = .finish t) : microStep s = complete t := by
  simp only [microStep, hf, hr, hq, h]

end

/-- From where SEQ stands at a program, some number of micro-steps reaches the state its run answers. -/
theorem exists_microSteps_eq_runOps (w : Word) (ops : List MicroOp) (s : State) (hf : s.fault = none)
    (hr : s.refused = none) : ∃ n, microSteps n (settle w ops s) = runOps w ops s := by
  induction ops generalizing s with
  | nil => exact ⟨0, rfl⟩
  | cons op ops ih =>
    have hsettle : settle w (op :: ops) s = withSeq (.run w (.at (op :: ops))) s := rfl
    rw [hsettle, ← runOps_withSeq w (op :: ops) (.run w (.at (op :: ops))) s, runOps]
    generalize hu : withSeq (.run w (.at (op :: ops))) s = u
    have hq : u.seq = .run w (.at (op :: ops)) := by rw [← hu]; rfl
    have huf : u.fault = none := by rw [← hu]; exact hf
    have hur : u.refused = none := by rw [← hu]; exact hr
    cases hop : microOp op u with
    | advance t =>
      obtain ⟨hfault, hrefused, _⟩ := microOp_records op u
      rw [hop] at hfault hrefused
      obtain ⟨n, hn⟩ := ih t (hfault.trans huf) (hrefused.trans hur)
      exact ⟨n + 1, by rw [microSteps, microStep_advance hq huf hur hop, hn]⟩
    | spin t op' => exact ⟨1, microStep_spin hq huf hur hop⟩
    | finish t => exact ⟨1, microStep_finish hq huf hur hop⟩

/-- A command that answers without a fault has passed its checks and run its program. -/
theorem exec_runs_of_fault_none {i : Instr} {s t : State} (h : exec i s = .next t) (hf : t.fault = none) :
    checkOf i s = none ∧ t = runOps (encode i) (programOf i s.params) { s with payload := payloadOf i } := by
  rcases exec_cases h with ⟨code, _, rfl⟩ | hrun
  · cases hf
  · exact hrun

theorem loadCommand_passes {i : Instr} (hw : i.wellFormed = true) {s : State} (hc : checkOf i s = none) :
    loadCommand s (encode i) (payloadOf i) =
      settle (encode i) (programOf i s.params) { s with payload := payloadOf i } := by
  simp only [loadCommand, decode_encode hw, hc]

/-- Settles O58: a command that answers without a fault has passed its checks, so it is loaded at its program, and the
micro-steps of the program reach the state of its run. -/
theorem execIsMicroSteps : Obligations.ExecIsMicroSteps := by
  intro s t i hw hf hr h ht
  obtain ⟨hc, rfl⟩ := exec_runs_of_fault_none h ht
  rw [loadCommand_passes hw hc]
  exact exists_microSteps_eq_runOps _ _ _ hf hr

/-! ## Independence of the two units (R4, R9) -/

/-- `d` with the keypad, the environment, the parameters and the command in progress of `s`, and the events of `s`
after its own: what of the machine a keypad command reads and writes is of `s`, the rest of `d`. -/
def withKeypadOf (d s : State) : State :=
  { d with
    kr := s.kr, kc := s.kc, kpCfg := s.kpCfg, kpState := s.kpState, keyout := s.keyout, pressed := s.pressed
    seq := s.seq, r := s.r, k := s.k, c := s.c, payload := s.payload, trace := d.trace ++ s.trace, params := s.params
    env := s.env, drawCount := s.drawCount }

/-- `d` with the display, the parameters and the command in progress of `s`, and the events of `s` after its own. -/
def withDisplayOf (d s : State) : State :=
  { d with
    dd := s.dd, dc := s.dc, dispCfg := s.dispCfg, dispState := s.dispState, dl := s.dl, rsl := s.rsl
    seq := s.seq, i := s.i, payload := s.payload, trace := d.trace ++ s.trace, params := s.params }

theorem emit_withKeypadOf (d s : State) (e : Event) : emit (withKeypadOf d s) e = withKeypadOf d (emit s e) := by
  simp [emit, withKeypadOf]

theorem emit_withDisplayOf (d s : State) (e : Event) : emit (withDisplayOf d s) e = withDisplayOf d (emit s e) := by
  simp [emit, withDisplayOf]

theorem pinWrite_kr_withKeypadOf (d s : State) (reg : Reg) (n : Pin) (v : Level) :
    pinWrite (withKeypadOf d s) .kr reg n v = withKeypadOf d (pinWrite s .kr reg n v) :=
  emit_withKeypadOf d (putPort s .kr (writePortBit s.kr reg n v)) _

theorem pinWrite_kc_withKeypadOf (d s : State) (reg : Reg) (n : Pin) (v : Level) :
    pinWrite (withKeypadOf d s) .kc reg n v = withKeypadOf d (pinWrite s .kc reg n v) :=
  emit_withKeypadOf d (putPort s .kc (writePortBit s.kc reg n v)) _

/-- A pin write of a display port does not look at the keypad, whether DD and DC are one port or two. -/
theorem pinWrite_withDisplayOf (d s : State) {p : Port} (hp : p = .dd ∨ p = .dc) (reg : Reg) (n : Pin) (v : Level) :
    pinWrite (withDisplayOf d s) p reg n v = withDisplayOf d (pinWrite s p reg n v) := by
  have hput : putPort (withDisplayOf d s) p (writePortBit (getPort (withDisplayOf d s) p) reg n v) =
      withDisplayOf d (putPort s p (writePortBit (getPort s p) reg n v)) := by
    have hpar : (withDisplayOf d s).params = s.params := rfl
    unfold putPort getPort
    rw [hpar]
    rcases hp with rfl | rfl <;> cases s.params.sharedDisp <;> rfl
  unfold pinWrite
  rw [hput, emit_withDisplayOf]

theorem afterSample_withKeypadOf (d s : State) (c : Fin 6) :
    afterSample (withKeypadOf d s) c = withKeypadOf d (afterSample s c) :=
  emit_withKeypadOf d { s with env := (drawSample s c).2.1, drawCount := (drawSample s c).2.2 } _

/-- A keypad micro-step neither reads nor writes anything outside the keypad's part. -/
theorem microOp_withKeypadOf {op : MicroOp} (h : isKeypadOp op = true) (d s : State) :
    microOp op (withKeypadOf d s) = (microOp op s).map (withKeypadOf d) := by
  cases op with
  | pinWrite loc reg v =>
    cases loc with
    | rowK => exact congrArg MicroResult.advance (pinWrite_kr_withKeypadOf d s reg _ v)
    | rowR => exact congrArg MicroResult.advance (pinWrite_kr_withKeypadOf d s reg _ v)
    | colC => exact congrArg MicroResult.advance (pinWrite_kc_withKeypadOf d s reg _ v)
    | _ => cases h
  | storeKpConfig =>
    refine congrArg MicroResult.advance ?_
    unfold storeKp
    cases hp : s.payload <;> simp only [withKeypadOf, hp]
  | detect c => exact detectFirst_map s c rfl rfl (afterSample_withKeypadOf d s c) fun _ _ => rfl
  | waitRelease c => exact detectAgain_map s c rfl (afterSample_withKeypadOf d s c) fun _ _ => rfl
  | reportKey =>
    have hpr : isPressed (withKeypadOf d s) = isPressed s := rfl
    simp only [microOp, hpr]
    cases isPressed s with
    | true => exact congrArg MicroResult.finish (emit_withKeypadOf d { s with keyout := some (keySymbol s s.r s.c) } _)
    | false => rfl
  | setR _ | setK _ | setC _ | kpReady => rfl
  | _ => cases h

/-- A display micro-step neither reads nor writes anything outside the display's part. -/
theorem microOp_withDisplayOf {op : MicroOp} (h : isDisplayOp op = true) (d s : State) :
    microOp op (withDisplayOf d s) = (microOp op s).map (withDisplayOf d) := by
  cases op with
  | pinWrite loc reg v =>
    cases loc with
    | data j => exact congrArg MicroResult.advance (pinWrite_withDisplayOf d s (.inl rfl) reg _ v)
    | ctrl j => exact congrArg MicroResult.advance (pinWrite_withDisplayOf d s (.inr rfl) reg _ v)
    | _ => cases h
  | pinWriteRsl => exact congrArg MicroResult.advance (pinWrite_withDisplayOf d s (.inr rfl) .out _ _)
  | pinWriteDl j bit => exact congrArg MicroResult.advance (pinWrite_withDisplayOf d s (.inl rfl) .out _ _)
  | delay kind => exact congrArg MicroResult.advance (emit_withDisplayOf d s _)
  | storeDispConfig =>
    refine congrArg MicroResult.advance ?_
    unfold storeDisp
    cases hp : s.payload <;> simp only [withDisplayOf, hp]
  | latch _ _ | latchText | latchDigit | setI _ | dispReady => rfl
  | _ => cases h

theorem runOps_withKeypadOf (w : Word) (ops : List MicroOp) (h : ∀ op ∈ ops, isKeypadOp op = true) (d s : State) :
    runOps w ops (withKeypadOf d s) = withKeypadOf d (runOps w ops s) :=
  runOps_map w ops (fun op ho t => microOp_withKeypadOf (h op ho) d t) (fun _ => rfl) (fun _ _ => rfl) s

theorem runOps_withDisplayOf (w : Word) (ops : List MicroOp) (h : ∀ op ∈ ops, isDisplayOp op = true) (d s : State) :
    runOps w ops (withDisplayOf d s) = withDisplayOf d (runOps w ops s) :=
  runOps_map w ops (fun op ho t => microOp_withDisplayOf (h op ho) d t) (fun _ => rfl) (fun _ _ => rfl) s

theorem checkOf_keypad_congr {i : Instr} (hi : isKeypad i = true) {a b : State} (h : SameKeypadPart a b) :
    checkOf i b = checkOf i a := by
  obtain ⟨⟨_, _, _, hk, _⟩, hp⟩ := h
  cases i with
  | kpInit cfg => simp only [checkOf, checkKpInit, hk, hp]
  | kpRead => simp only [checkOf, checkKpReady, hk]
  | kpDetect col => simp only [checkOf, checkKpDetect, hk]
  | _ => cases hi

theorem checkOf_display_congr {i : Instr} (hi : isKeypad i = false) {a b : State} (h : SameDisplayPart a b) :
    checkOf i b = checkOf i a := by
  obtain ⟨⟨_, _, _, hd, _⟩, hp⟩ := h
  cases i with
  | kpInit _ | kpRead | kpDetect _ => cases hi
  | dispInit cfg => simp only [checkOf, checkDispInit, hd, hp]
  | _ => simp only [checkOf, checkDispReady, hd]

/-- Two states that agree on the keypad's part differ, but for SEQ, in what a keypad command does not look at. -/
theorem SameKeypadPart.withSeq_eq {a b : State} (h : SameKeypadPart a b) (p : Payload) :
    withSeq a.seq { b with payload := p } = withKeypadOf b { a with payload := p, trace := [] } := by
  obtain ⟨⟨h1, h2, h3, h4, h5, h6, h7, h8, h9, h10, h11⟩, h12⟩ := h
  simp only [withSeq, withKeypadOf, List.append_nil, h1, h2, h3, h4, h5, h6, h7, h8, h9, h10, h11, h12]

theorem SameDisplayPart.withSeq_eq {a b : State} (h : SameDisplayPart a b) (p : Payload) :
    withSeq a.seq { b with payload := p } = withDisplayOf b { a with payload := p, trace := [] } := by
  obtain ⟨⟨h1, h2, h3, h4, h5, h6, h7⟩, h8⟩ := h
  simp only [withSeq, withDisplayOf, List.append_nil, h1, h2, h3, h4, h5, h6, h7, h8]

theorem SameKeypadPart.refl (a : State) : SameKeypadPart a a := ⟨.refl a, rfl⟩
theorem SameDisplayPart.refl (a : State) : SameDisplayPart a a := ⟨.refl a, rfl⟩

/-- On a state `b` that agrees with `a` on the keypad, a keypad program does to `b` what it does to `a`. -/
theorem SameKeypadPart.runOps_eq {a b : State} (h : SameKeypadPart a b) (w : Word) (ops : List MicroOp)
    (hops : ∀ op ∈ ops, isKeypadOp op = true) (p : Payload) :
    runOps w ops { b with payload := p } = withKeypadOf b (runOps w ops { a with payload := p, trace := [] }) := by
  rw [← runOps_withSeq w ops a.seq, h.withSeq_eq p, runOps_withKeypadOf w ops hops]

theorem SameDisplayPart.runOps_eq {a b : State} (h : SameDisplayPart a b) (w : Word) (ops : List MicroOp)
    (hops : ∀ op ∈ ops, isDisplayOp op = true) (p : Payload) :
    runOps w ops { b with payload := p } = withDisplayOf b (runOps w ops { a with payload := p, trace := [] }) := by
  rw [← runOps_withSeq w ops a.seq, h.withSeq_eq p, runOps_withDisplayOf w ops hops]

theorem exec_of_check_some {i : Instr} {s : State} {code : FaultCode} (h : checkOf i s = some code) :
    exec i s = .next (raiseFault s code (some (encode i))) := by
  rw [exec_eq_runCommand, h]
  rfl

theorem exec_of_check_none {i : Instr} {s : State} (h : checkOf i s = none) :
    exec i s = .next (runOps (encode i) (programOf i s.params) { s with payload := payloadOf i }) := by
  rw [exec_eq_runCommand, h]
  rfl

theorem programOf_keypad {i : Instr} (h : isKeypad i = true) (p : Params) :
    ∀ op ∈ programOf i p, isKeypadOp op = true := by
  simpa only [h, if_true] using programOf_unit i p

theorem programOf_display {i : Instr} (h : isKeypad i = false) (p : Params) :
    ∀ op ∈ programOf i p, isDisplayOp op = true := by
  simpa only [h, Bool.false_eq_true, if_false] using programOf_unit i p

/-- A keypad command that passes its checks on `a` answers on `b` one run of `a`'s keypad part, put into `b`. -/
theorem SameKeypadPart.exec_eq {i : Instr} (hi : isKeypad i = true) {a b : State} (h : SameKeypadPart a b)
    (hc : checkOf i a = none) :
    exec i b = .next (withKeypadOf b
      (runOps (encode i) (programOf i a.params) { a with payload := payloadOf i, trace := [] })) := by
  rw [exec_of_check_none ((checkOf_keypad_congr hi h).trans hc), h.runOps_eq _ _ (programOf_keypad hi _), h.2]

theorem SameDisplayPart.exec_eq {i : Instr} (hi : isKeypad i = false) {a b : State} (h : SameDisplayPart a b)
    (hc : checkOf i a = none) :
    exec i b = .next (withDisplayOf b
      (runOps (encode i) (programOf i a.params) { a with payload := payloadOf i, trace := [] })) := by
  rw [exec_of_check_none ((checkOf_display_congr hi h).trans hc), h.runOps_eq _ _ (programOf_display hi _), h.2]

/-- Settles O59: both states take the same fault, or both runs are one run of the keypad's part, put back into the rest
of each state. -/
theorem keypadIgnoresDisplay : Obligations.KeypadIgnoresDisplay := by
  intro a b a' i hi h ha
  cases hc : checkOf i a with
  | some code =>
    cases ha.symm.trans (exec_of_check_some hc)
    exact ⟨_, exec_of_check_some ((checkOf_keypad_congr hi h).trans hc), h, .inl ⟨code, rfl, rfl⟩, [], by simp⟩
  | none =>
    cases ha.symm.trans ((SameKeypadPart.refl a).exec_eq hi hc)
    exact ⟨_, h.exec_eq hi hc, .refl _, .inr ⟨rfl, rfl, rfl, rfl, .rfl⟩, _, rfl, rfl⟩

/-- Settles O60: as O59, with the display's part in place of the keypad's. -/
theorem displayIgnoresKeypad : Obligations.DisplayIgnoresKeypad := by
  intro a b a' i hi h ha
  cases hc : checkOf i a with
  | some code =>
    cases ha.symm.trans (exec_of_check_some hc)
    exact ⟨_, exec_of_check_some ((checkOf_display_congr hi h).trans hc), h, .inl ⟨code, rfl, rfl⟩, [], by simp⟩
  | none =>
    cases ha.symm.trans ((SameDisplayPart.refl a).exec_eq hi hc)
    exact ⟨_, h.exec_eq hi hc, .refl _, .inr ⟨rfl, rfl, rfl, rfl, .rfl⟩, _, rfl, rfl⟩

/-! ## What a keypad command leaves unchanged (R20) -/

/-- A keypad micro-step that writes no PULL bit of KR and no OUT bit of KC. -/
def keepsKrPullKcOut : MicroOp → Bool
  | .pinWrite .rowK reg _ | .pinWrite .rowR reg _ => reg != .pull
  | .pinWrite .colC reg _ => reg != .out
  | op => isKeypadOp op

theorem microOp_krPull_kcOut {op : MicroOp} (h : keepsKrPullKcOut op = true) (s : State) :
    (resultState (microOp op s)).kr.pull = s.kr.pull ∧ (resultState (microOp op s)).kc.out = s.kc.out := by
  cases op with
  | pinWrite loc reg v =>
    cases loc with
    | rowK | rowR =>
      cases reg with
      | pull => cases h
      | dir | out => exact ⟨rfl, rfl⟩
    | colC =>
      cases reg with
      | out => cases h
      | dir | pull => exact ⟨rfl, rfl⟩
    | _ => cases h
  | storeKpConfig => exact ⟨congrArg _ (storeKp_kr s), congrArg _ (storeKp_kc s)⟩
  | detect c => simp only [microOp]; rw [resultState_detectFirst]; exact ⟨rfl, rfl⟩
  | waitRelease c => simp only [microOp]; rw [resultState_detectAgain]; exact ⟨rfl, rfl⟩
  | reportKey => simp only [microOp]; split <;> exact ⟨rfl, rfl⟩
  | setR _ | setK _ | setC _ | kpReady => exact ⟨rfl, rfl⟩
  | _ => cases h

theorem programOf_keepsKrPullKcOut {i : Instr} (h : isKeypad i = true) (p : Params) :
    ∀ op ∈ programOf i p, keepsKrPullKcOut op = true := by
  cases i with
  | kpInit cfg => exact (by decide : ∀ op ∈ kpInitOps, keepsKrPullKcOut op = true)
  | kpRead => exact (by decide : ∀ op ∈ kpReadOps, keepsKrPullKcOut op = true)
  | kpDetect col =>
    show ∀ op ∈ kpDetectOps col, _
    unfold kpDetectOps
    split <;> simp [keepsKrPullKcOut, isKeypadOp]
  | _ => cases h

theorem exec_krPull_kcOut {i : Instr} (hi : isKeypad i = true) {s t : State} (h : exec i s = .next t) :
    t.kr.pull = s.kr.pull ∧ t.kc.out = s.kc.out := by
  rcases exec_cases h with ⟨code, _, rfl⟩ | ⟨_, rfl⟩
  · exact ⟨rfl, rfl⟩
  · refine runOps_keeps (P := fun t => t.kr.pull = s.kr.pull ∧ t.kc.out = s.kc.out) _ _ _ ⟨rfl, rfl⟩ ?_
      fun _ _ _ h => h
    intro op ho t ht
    obtain ⟨hkr, hkc⟩ := microOp_krPull_kcOut (programOf_keepsKrPullKcOut hi s.params op ho) t
    exact ⟨hkr.trans ht.1, hkc.trans ht.2⟩

theorem exec_keypad_frame {i : Instr} (hi : isKeypad i = true) {s t : State} (h : exec i s = .next t) :
    DisplayKept s t := by
  rcases exec_cases h with ⟨code, _, rfl⟩ | ⟨_, rfl⟩
  · exact .refl s
  · exact runOps_keypad_frame _ _ { s with payload := payloadOf i } (programOf_keypad hi s.params)

/-- A scan ends with the ports and the keypad's tables of a state it has scanned to: after 24 open samples, or at its
first closed one. -/
theorem runOps_kpRead_ports (w : Word) (s : State) :
    ∃ u, ScanKept s u ∧ (runOps w kpReadOps s).kr = u.kr ∧ (runOps w kpReadOps s).kc = u.kc ∧
      (runOps w kpReadOps s).kpCfg = u.kpCfg ∧ (runOps w kpReadOps s).kpState = u.kpState := by
  rcases allRowsOpen_or_key s with h | ⟨r, c, h, hv⟩
  · have hrun := runOps_rows_open w (List.finRange 4) [] s h
    rw [List.append_nil] at hrun
    exact ⟨_, scanKept_openRows (List.finRange 4) s, by rw [kpReadOps, hrun]; exact ⟨rfl, rfl, rfl, rfl⟩⟩
  · refine ⟨beforeKey s r c, scanKept_beforeKey s r c, ?_⟩
    rw [runOps_beforeKey w s r c h]
    cases hm : (beforeKey s r c).params.detectMode with
    | singleSample => rw [runOps_column_single w c _ _ hm hv]; exact ⟨rfl, rfl, rfl, rfl⟩
    | blockingRelease => rw [runOps_column_blocking w c _ _ hm hv]; exact ⟨rfl, rfl, rfl, rfl⟩

theorem ScanKept.kc {s t : State} (h : ScanKept s t) : t.kc = s.kc := by rw [h.same]
theorem ScanKept.kpCfg {s t : State} (h : ScanKept s t) : t.kpCfg = s.kpCfg := by rw [h.same]
theorem ScanKept.kpState {s t : State} (h : ScanKept s t) : t.kpState = s.kpState := by rw [h.same]

/-- A scan keeps every bit of KR's DIR, so the register. -/
theorem ScanKept.kr_dir {s t : State} (h : ScanKept s t) : t.kr.dir = s.kr.dir :=
  Nat.eq_of_testBit_eq fun n => h.bits .dir n (.inl (by decide))

/-- KP_READ writes the OUT bits of the row pins alone of its ports (R91). -/
theorem kpRead_frame {s t : State} (h : exec .kpRead s = .next t) :
    t.kr.dir = s.kr.dir ∧ t.kc = s.kc ∧ t.kpCfg = s.kpCfg ∧ t.kpState = s.kpState ∧
      ∀ n : Pin, (∀ k : Fin 4, n ≠ rowPin s k) → portBit t .kr .out n = portBit s .kr .out n := by
  rcases exec_cases h with ⟨code, _, rfl⟩ | ⟨_, rfl⟩
  · exact ⟨rfl, rfl, rfl, rfl, fun _ _ => rfl⟩
  · obtain ⟨u, hu, hkr, hkc, hcfg, hstate⟩ := runOps_kpRead_ports (encode .kpRead) { s with payload := .none }
    refine ⟨(congrArg PortRegs.dir hkr).trans hu.kr_dir, hkc.trans hu.kc, hcfg.trans hu.kpCfg, hstate.trans hu.kpState,
      fun n hn => ?_⟩
    exact (congrArg (fun p : PortRegs => p.out.testBit n) hkr).trans (hu.bits .out n (.inr hn))

/-- What KP_DETECT leaves: the keypad but PRESSED and the environment (R90). -/
def DetectKept (s t : State) : Prop :=
  t.kr = s.kr ∧ t.kc = s.kc ∧ t.kpCfg = s.kpCfg ∧ t.kpState = s.kpState ∧ t.keyout = s.keyout ∧
  t.r = s.r ∧ t.k = s.k ∧ t.c = s.c

theorem mem_kpDetectOps {col : Byte} {op : MicroOp} (h : op ∈ kpDetectOps col) : ∃ c, op = .detect c := by
  unfold kpDetectOps at h
  split at h
  · exact ⟨_, List.mem_singleton.mp h⟩
  · cases h

theorem kpDetect_frame {s t : State} {col : Byte} (h : exec (.kpDetect col) s = .next t) : DetectKept s t := by
  rcases exec_cases h with ⟨code, _, rfl⟩ | ⟨_, rfl⟩
  · exact ⟨rfl, rfl, rfl, rfl, rfl, rfl, rfl, rfl⟩
  · refine runOps_keeps (P := DetectKept s) _ _ _ ⟨rfl, rfl, rfl, rfl, rfl, rfl, rfl, rfl⟩ ?_ fun _ _ _ h => h
    intro op ho t ht
    obtain ⟨c, rfl⟩ := mem_kpDetectOps ho
    simp only [microOp]
    rw [resultState_detectFirst]
    exact ht

/-- Settles O55, from the frames of the keypad's micro-steps, of a scan and of a detection. -/
theorem keypadCommandFrame : Obligations.KeypadCommandFrame := by
  refine ⟨fun s t i hi h => ?_, fun s t => kpRead_frame, fun s t col => kpDetect_frame⟩
  obtain ⟨hrefused, hparams, hhost, hlog⟩ := exec_params h
  exact ⟨exec_keypad_frame hi h, hrefused, hparams, hhost, hlog, exec_krPull_kcOut hi h⟩

/-! ## What a display command leaves unchanged (R20) -/

/-- What a display command without delays sends. -/
theorem programOf_sends {i : Instr} (hk : isKeypad i = false) (hd : isDispInit i = false) (hc : i ≠ .dispClear)
    (p : Params) : Sends p (payloadOf i) (programOf i p) (bytesSent p i) := by
  cases i with
  | kpInit _ | kpRead | kpDetect _ => cases hk
  | dispInit cfg => cases hd
  | dispSendCommand code => exact sends_xfer p _ _ _
  | dispPrintChar code => exact sends_xfer p _ _ _
  | dispPrintCharTo row col code => exact (sends_position p _ _ _).append (sends_xfer p _ _ _)
  | dispPrintString text => exact sends_printString p text
  | dispPrintStringTo row col text => exact (sends_position p _ _ _).append (sends_printString p text)
  | dispMoveCursor row col => exact sends_position p _ _ _
  | dispClear => exact absurd rfl hc
  | dispReturnHome => exact sends_xfer p _ _ _
  | dispPrintNumber v => exact sends_printNumber p v
  | dispPrintNumberTo row col v => exact (sends_position p _ _ _).append (sends_printNumber p v)

/-- DISP_CLEAR sends its two commands, a delay after each (R117). -/
theorem sent_dispClear (p : Params) (s : State) :
    Sent s (runStraight (dispClearOps p) s) [(false, p.cmdClear), (false, p.cmdReturnHome)] := by
  rw [dispClearOps, runStraight_append, runStraight_cons, runStraight_append]
  exact ((sent_xfer s _ _).append (sent_delay _ _)).append ((sent_xfer _ _ _).append (sent_delay _ _))

theorem isStraight_of_isDisplayOp {op : MicroOp} (h : isDisplayOp op = true) : isStraight op = true := by
  cases op with
  | detect _ | waitRelease _ | reportKey => cases h
  | _ => rfl

theorem programOf_straight {i : Instr} (hk : isKeypad i = false) (p : Params) :
    ∀ op ∈ programOf i p, isStraight op = true :=
  fun op ho => isStraight_of_isDisplayOp (programOf_display hk p op ho)

/-- What a display command other than DISP_INIT does, but for its events. -/
theorem exec_displaySent {i : Instr} (hk : isKeypad i = false) (hd : isDispInit i = false) {s t : State}
    (h : exec i s = .next t) :
    (∃ code, t = raiseFault s code (some (encode i))) ∨ DisplaySent s t (bytesSent s.params i) := by
  rcases exec_cases h with ⟨code, _, ht⟩ | ⟨_, rfl⟩
  · exact .inl ⟨code, ht⟩
  · rw [runOps_straight _ _ _ (programOf_straight hk s.params)]
    by_cases hc : i = .dispClear
    · subst hc
      exact .inr (sent_dispClear s.params _).complete
    · exact .inr ((programOf_sends hk hd hc s.params).2 { s with payload := payloadOf i } rfl rfl).1.complete

theorem exec_display_frame {i : Instr} (hi : isKeypad i = false) {s t : State} (h : exec i s = .next t) :
    KeypadKept s t := by
  rcases exec_cases h with ⟨code, _, rfl⟩ | ⟨_, rfl⟩
  · exact .refl s
  · exact runOps_display_frame _ _ { s with payload := payloadOf i } (programOf_display hi s.params)

theorem SamePins.trans {s t u : State} (h : SamePins s t) (h' : SamePins t u) : SamePins s u :=
  ⟨h'.1.trans h.1, h'.2.trans h.2⟩

theorem samePins_writeAll (ws : List (Port × Reg × Pin × Level)) (s : State) : SamePins s (writeAll ws s) := by
  rw [writeAll_frame]
  exact ⟨rfl, rfl⟩

/-- A write of DIR at a display pin of `u`: what DISP_INIT's port writes are (R114). -/
def IsDirWrite (u : State) (x : Port × Reg × Pin × Level) : Prop :=
  x.2.1 = .dir ∧ ∀ p, portHome u.params.sharedDisp p = portHome u.params.sharedDisp x.1 → BusOutBit u p .out x.2.2.1

theorem isDirWrite_dispInitWrites {u : State} {cfg : DispConfig} (hu : u.dispCfg = some cfg) :
    ∀ x ∈ dispInitWrites cfg, IsDirWrite u x := by
  have hdata : ∀ j, cfg.dataPins[j] = dataPin u j := fun j => by simp only [dataPin, dispTables, hu, Option.getD_some]
  have hctrl : ∀ j, cfg.ctrlPins[j] = ctrlPin u j := fun j => by simp only [ctrlPin, dispTables, hu, Option.getD_some]
  intro x hx
  simp only [dispInitWrites, List.mem_append, List.mem_map] at hx
  rcases hx with ⟨j, _, rfl⟩ | ⟨j, _, rfl⟩
  · exact ⟨rfl, fun p hp => ⟨rfl, .inl ⟨hp, j, hdata j⟩⟩⟩
  · exact ⟨rfl, fun p hp => ⟨rfl, .inr ⟨hp, j, hctrl j⟩⟩⟩

/-- DIR writes of display pins, then transfers, change no PULL bit and no bit off the display pins. -/
theorem portBit_dirWrites_sent {u v : State} {ws : List (Port × Reg × Pin × Level)} {sent : List (Level × Byte)}
    (hws : ∀ x ∈ ws, IsDirWrite u x) (hv : Sent (delay (writeAll ws u) .power) v sent)
    {q : Port} {reg : Reg} {n : Pin} (h : reg = .pull ∨ ¬ BusOutBit u q .out n) : portBit v q reg n = portBit u q reg n := by
  have hpins : SamePins u (delay (writeAll ws u) .power) := (samePins_writeAll ws u).trans ⟨rfl, rfl⟩
  have hout : ¬ BusOutBit u q reg n := fun hb =>
    h.elim (fun e => by cases e.symm.trans hb.1) fun hn => hn ⟨rfl, hb.2⟩
  have hdir : ∀ x ∈ ws,
      ¬ (portHome u.params.sharedDisp q = portHome u.params.sharedDisp x.1 ∧ reg = x.2.1 ∧ n = x.2.2.1) := by
    rintro x hx ⟨hq, hreg, hn⟩
    obtain ⟨hd, hbus⟩ := hws x hx
    exact h.elim (fun e => by cases e.symm.trans (hreg.trans hd)) fun hno => hno (hn ▸ hbus q hq)
  calc portBit v q reg n
    _ = portBit (delay (writeAll ws u) .power) q reg n :=
      hv.otherBits q reg n fun hb => hout ((hpins.busOutBit q reg n).mp hb)
    _ = portBit u q reg n := writeAll_other ws u q reg n hdir

theorem sent_bootOps (p : Params) (u : State) :
    Sent u (runStraight (bootOps p) u) ((List.finRange 5).map fun m => (false, p.bootCmds[m])) :=
  (sent_boot p (List.finRange 5) u).1

/-- DISP_INIT ends, but for READY, at a state its transfers leave after the tables are stored and the DIR writes made. -/
theorem runStraight_dispInit_sent (s : State) (cfg : DispCfg) (p : Params) (hpl : s.payload = .dispcfg cfg) :
    ∃ v ws sent, runStraight (dispInitOps p) s = { v with dispState := .ready } ∧
      (∀ x ∈ ws, IsDirWrite { s with dispCfg := some (dispConfigOf cfg) } x) ∧
      Sent (delay (writeAll ws { s with dispCfg := some (dispConfigOf cfg) }) .power) v sent :=
  ⟨_, _, _, runStraight_dispInit s cfg p hpl, isDirWrite_dispInitWrites rfl, sent_bootOps p _⟩

theorem dispInitOps_straight (p : Params) : ∀ op ∈ dispInitOps p, isStraight op = true :=
  fun op ho => isStraight_of_isDisplayOp (dispInitOps_display p op ho)

/-- DISP_INIT writes no PULL bit and no port bit but those of the pins it stores, which it keeps (R114). -/
theorem runOps_dispInit_bits (w : Word) (s : State) (cfg : DispCfg) (p : Params) (hpl : s.payload = .dispcfg cfg)
    {q : Port} {reg : Reg} {n : Pin} (h : reg = .pull ∨ ¬ BusOutBit (runOps w (dispInitOps p) s) q .out n) :
    portBit (runOps w (dispInitOps p) s) q reg n = portBit s q reg n := by
  obtain ⟨v, ws, sent, hrun, hws, hv⟩ := runStraight_dispInit_sent s cfg p hpl
  rw [runOps_straight w _ s (dispInitOps_straight p), hrun] at h ⊢
  have hwrites := samePins_writeAll ws { s with dispCfg := some (dispConfigOf cfg) }
  have hpins := (hwrites.trans ⟨rfl, rfl⟩).trans hv.samePins
  exact portBit_dirWrites_sent hws hv (h.imp_right fun hno hb => hno ((hpins.busOutBit q .out n).mpr hb))

theorem exec_dispInit_bits {cfg : DispCfg} {s t : State} (h : exec (.dispInit cfg) s = .next t) {q : Port} {reg : Reg}
    {n : Pin} (hn : reg = .pull ∨ ¬ BusOutBit t q .out n) : portBit t q reg n = portBit s q reg n := by
  rcases exec_cases h with ⟨code, _, rfl⟩ | ⟨_, rfl⟩
  · rfl
  · exact runOps_dispInit_bits _ { s with payload := .dispcfg cfg } cfg s.params rfl hn

/-- Settles O56: DISP_INIT by its writes, every other display command by the transfers it sends. -/
theorem displayCommandFrame : Obligations.DisplayCommandFrame := by
  intro s t i hi h
  obtain ⟨hrefused, hparams, hhost, hlog⟩ := exec_params h
  refine ⟨exec_display_frame hi h, hrefused, hparams, hhost, hlog, ?_⟩
  cases hd : isDispInit i with
  | true =>
    cases i with
    | dispInit cfg =>
      exact ⟨fun p n => exec_dispInit_bits h (.inl rfl), fun p reg n hn => exec_dispInit_bits h (.inr hn),
        fun hf => by cases hf⟩
    | _ => cases hd
  | false =>
    rcases exec_displaySent hi hd h with ⟨code, rfl⟩ | hsent
    · exact ⟨fun _ _ => rfl, fun _ _ _ _ => rfl, fun _ => ⟨rfl, rfl, fun _ _ => rfl⟩⟩
    · have hpins : SamePins s t := ⟨hsent.config.1, hparams⟩
      have hnotOut : ∀ p reg n, reg ≠ .out → portBit t p reg n = portBit s p reg n := fun p reg n hreg =>
        hsent.otherBits p reg n fun hb => hreg hb.1
      exact ⟨fun p n => hnotOut p .pull n (by decide),
        fun p reg n hn => hsent.otherBits p reg n fun hb => hn ((hpins.busOutBit p .out n).mpr ⟨rfl, hb.2⟩),
        fun _ => ⟨hsent.config.1, hsent.config.2, fun p n => hnotOut p .dir n (by decide)⟩⟩

end Sys2Proof.Machine
end

section
/-! PROOFS. The state statements (10_state.md): reset, faults and the trace, and when a configuration is valid. -/

namespace Sys2Proof.Machine

/-! ## Reset, faults, the trace (R32, R34, R36, R180) -/

/-- Settles O1: a reset is the power-on state but for the host, the environment and the parameters. -/
theorem resetValues : Obligations.ResetValues := by
  have hreset : ∀ p l, AtReset (State.powerOn p l) p l := fun p l =>
    ⟨rfl, rfl, rfl, rfl, rfl, rfl, rfl, rfl, rfl, rfl, rfl, rfl, rfl, rfl⟩
  exact ⟨fun s l => ⟨hreset s.params l, rfl, rfl⟩, hreset Params.default none⟩

theorem healthyStep_of_fault {s : State} {f : FaultRecord} (h : s.fault = some f) :
    healthyStep s = .fault (.stopped f) := by
  simp only [healthyStep, h]

/-- A step that answers a next state of a faulted KDB is a reset: every other kind of step finds no fault. -/
theorem step_of_fault {s t : State} {f : FaultRecord} (hf : s.fault = some f) (h : step s = .next t) :
    ∃ l rest, s.host = .reset l :: rest ∧ t = platformReset { s with host := rest } l := by
  have hstop : s.fault ≠ none := by simp [hf]
  cases step_cases h with
  | reset l rest host after => exact ⟨l, rest, host, after⟩
  | waits idle | command _ _ _ _ idle | illegal _ _ _ _ idle | cut _ _ _ _ _ idle | readKeyout _ idle
  | writeKeyout _ _ idle | readPressed _ idle => exact absurd idle.2.1 hstop
  | entry _ _ fault | entryIllegal _ _ fault | resumes _ _ fault => exact absurd fault hstop

/-- Settles O7: without a pending reset the step is that of a faulted KDB; a step that answers a next state is a reset. -/
theorem faultStopsUntilReset : Obligations.FaultStopsUntilReset := by
  refine fun s f hf => ⟨fun hh => (step_noReset hh).trans (healthyStep_of_fault hf), fun t ht => ?_⟩
  obtain ⟨l, rest, hh, rfl⟩ := step_of_fault hf ht
  exact ⟨⟨l, rest, hh⟩, rfl⟩

/-- Settles O12: commands and micro-steps only append; every other step but a reset leaves TRACE alone. -/
theorem traceIsAppendOnly : Obligations.TraceIsAppendOnly := by
  intro s t hreset hcut h
  cases step_cases h with
  | reset l rest host => exact absurd host (hreset l rest)
  | cut w p n l rest _ host => exact absurd host (hcut w p n l rest)
  | command w p rest i _ _ _ after => exact exec_trace (s := issue { s with host := rest } w p) after
  | entry w i _ _ _ _ after => exact exec_trace (s := issue s w s.payload) after
  | resumes w ops _ _ _ after => rw [after]; exact runOps_trace w ops s
  | waits _ _ after => rw [after]
  | illegal w p rest e _ _ _ after => rw [after]; exact List.prefix_refl _
  | entryIllegal w e _ _ _ _ after => rw [after]; exact List.prefix_refl _
  | readKeyout rest _ _ after => rw [after, hostReadKeyout]; split <;> exact List.prefix_refl _
  | writeKeyout v rest _ _ after => rw [after]; exact List.prefix_refl _
  | readPressed rest _ _ after => rw [after, hostReadPressed]; split <;> exact List.prefix_refl _

/-! ## When a configuration is valid (R22, R24) -/

theorem allDistinct_iff_nodup (l : List Nat) : allDistinct l = true ↔ l.Nodup := by
  induction l with
  | nil => simp [allDistinct]
  | cons x xs ih => simp [allDistinct, ih]

theorem toList_eq_ofFn {α : Type} {n : Nat} (v : Vector α n) : v.toList = List.ofFn fun k : Fin n => v[k] :=
  (congrArg Vector.toList Vector.ofFn_getElem.symm).trans Vector.toList_ofFn

theorem allDistinct_toList {n : Nat} (v : Vector Nat n) :
    allDistinct v.toList = true ↔ ∀ a b : Fin n, v[a] = v[b] → a = b := by
  rw [allDistinct_iff_nodup, toList_eq_ofFn, List.nodup_ofFn]
  rfl

theorem pinsInRange_toList {n : Nat} (w : Nat) (v : Vector Nat n) :
    pinsInRange w v.toList = true ↔ ∀ k : Fin n, v[k] < w := by
  rw [pinsInRange, toList_eq_ofFn, List.all_eq_true, List.forall_mem_ofFn_iff]
  simp only [decide_eq_true_eq]

/-- The pins of two vectors together are distinct when those of each are and none is in both. -/
theorem allDistinct_append_toList {m n : Nat} (u : Vector Nat m) (v : Vector Nat n) :
    allDistinct (u.toList ++ v.toList) = true ↔
      allDistinct u.toList = true ∧ allDistinct v.toList = true ∧ ∀ (a : Fin m) (b : Fin n), u[a] ≠ v[b] := by
  simp only [allDistinct_iff_nodup, List.nodup_append, toList_eq_ofFn, List.forall_mem_ofFn_iff]

/-- Settles O21: the checks of `kpValid` one by one. -/
theorem keypadConfigValidity : Obligations.KeypadConfigValidity := by
  intro w cfg
  simp only [kpValid, Bool.and_eq_true, pinsInRange_toList, allDistinct_toList, beq_iff_eq, List.all_eq_true,
    decide_eq_true_eq, and_assoc]

/-- Settles O22: the checks of `dispValid` one by one; on a shared port the distinctness of all seven pins adds that no
data pin is a control pin. -/
theorem displayConfigValidity : Obligations.DisplayConfigValidity := by
  intro w shared cfg
  simp only [dispValid, Bool.and_eq_true, Bool.or_eq_true, Bool.not_eq_true', pinsInRange_toList,
    allDistinct_append_toList, allDistinct_toList]
  cases shared with
  | false => simp only [true_or, Bool.false_eq_true, false_imp_iff, and_assoc]
  | true => simp only [Bool.true_eq_false, false_or, true_imp_iff]; tauto

end Sys2Proof.Machine
end

section
/-! PROOFS. The two inits: the state each completes in, and what it holds (10_state.md, R82, R114). -/

namespace Sys2Proof.Machine

/-! ## KP_INIT (R82, R83) -/

theorem portHome_eq_kr {shared : Bool} {p : Port} : portHome shared p = .kr ↔ p = .kr := by
  cases p <;> cases shared <;> decide

theorem portHome_eq_kc {shared : Bool} {p : Port} : portHome shared p = .kc ↔ p = .kc := by
  cases p <;> cases shared <;> decide

/-- The writes of KP_INIT: the DIR and PULL bits of KC at the columns, the DIR and OUT bits of KR at the rows. -/
theorem mem_kpInitWrites {t : KpConfig} {x : Port × Reg × Pin × Level} :
    x ∈ kpInitWrites t ↔
      (∃ c : Fin 6, x = (.kc, .dir, t.colPins[c], false) ∨ x = (.kc, .pull, t.colPins[c], true)) ∨
      ∃ k : Fin 4, x = (.kr, .dir, t.rowPins[k], true) ∨ x = (.kr, .out, t.rowPins[k], true) := by
  simp [kpInitWrites]

/-- The level KP_INIT gives to the bits of a register it writes: 0 to DIR of KC, 1 to every other. -/
def kpInitLevel (p : Port) (reg : Reg) : Level := !(p == .kc && reg == .dir)

/-- The writes of one register of a port are all of its level. -/
theorem kpInitWrites_level {t : KpConfig} {x : Port × Reg × Pin × Level} (hx : x ∈ kpInitWrites t) {shared : Bool}
    {p : Port} {reg : Reg} (hp : portHome shared p = portHome shared x.1) (hr : reg = x.2.1) :
    x.2.2.2 = kpInitLevel p reg := by
  rcases mem_kpInitWrites.mp hx with ⟨c, rfl | rfl⟩ | ⟨k, rfl | rfl⟩
  · cases portHome_eq_kc.mp hp; cases hr; rfl
  · cases portHome_eq_kc.mp hp; cases hr; rfl
  · cases portHome_eq_kr.mp hp; cases hr; rfl
  · cases portHome_eq_kr.mp hp; cases hr; rfl

/-- KP_INIT with its payload in progress and its tables stored, before its first write (R82). -/
def storedKpCfg (s : State) (cfg : KpCfg) : State := { s with payload := .kpcfg cfg, kpCfg := some (kpConfigOf cfg) }

/-- The state a valid KP_INIT completes in: the tables stored, the 20 writes made, READY (R82). -/
def afterKpInit (s : State) (cfg : KpCfg) (k : Fin 4) (c : Fin 6) : State :=
  complete { withKC (writeAll (kpInitWrites (kpConfigOf cfg)) (storedKpCfg s cfg)) k c with kpState := .ready }

theorem checkOf_kpInit_none {s : State} {cfg : KpCfg} :
    checkOf (.kpInit cfg) s = none ↔ s.kpState = .uninit ∧ kpValid s.params.portWidth cfg = true := by
  cases hs : s.kpState <;> simp [checkOf, checkKpInit, hs]

/-- A command that passes its checks keeps FAULT too: all the records. -/
theorem exec_records {i : Instr} {s t : State} (h : exec i s = .next t) (hc : checkOf i s = none) : RecordsKept s t := by
  cases h.symm.trans (exec_of_check_none hc)
  exact runOps_records (encode i) (programOf i s.params) { s with payload := payloadOf i }

theorem exec_params_eq {i : Instr} {s t : State} (h : exec i s = .next t) : t.params = s.params := by
  obtain ⟨_, hparams, _⟩ := exec_params h
  exact hparams

theorem kpInitOps_straight : ∀ op ∈ kpInitOps, isStraight op = true := by decide

theorem exec_kpInit {s : State} {cfg : KpCfg} (hs : s.kpState = .uninit)
    (hv : kpValid s.params.portWidth cfg = true) : ∃ k c, exec (.kpInit cfg) s = .next (afterKpInit s cfg k c) := by
  obtain ⟨k, c, hrun⟩ := runStraight_kpInit { s with payload := .kpcfg cfg } cfg rfl
  refine ⟨k, c, ?_⟩
  rw [exec_of_check_none (checkOf_kpInit_none.mpr ⟨hs, hv⟩)]
  exact congrArg Host.Outcome.next ((runOps_straight _ kpInitOps _ kpInitOps_straight).trans (congrArg complete hrun))

section
variable (s : State) (cfg : KpCfg) (k : Fin 4) (c : Fin 6)

theorem afterKpInit_frame :
    afterKpInit s cfg k c =
      { s with
        kr := (afterKpInit s cfg k c).kr, kc := (afterKpInit s cfg k c).kc, dd := (afterKpInit s cfg k c).dd
        dc := (afterKpInit s cfg k c).dc, trace := s.trace ++ kpInitEvents (kpConfigOf cfg)
        kpCfg := some (kpConfigOf cfg), kpState := .ready, k := k, c := c, seq := .idle, payload := .none } := by
  unfold afterKpInit
  rw [writeAll_frame, kpInitWrites_events]
  rfl

theorem rowPin_afterKpInit (r : Fin 4) : rowPin (afterKpInit s cfg k c) r = cfg.rowPins[r] := by
  rw [afterKpInit_frame]; rfl

theorem colPin_afterKpInit (d : Fin 6) : colPin (afterKpInit s cfg k c) d = cfg.colPins[d] := by
  rw [afterKpInit_frame]; rfl

/-- The ports after KP_INIT are those its writes leave. -/
theorem portBit_afterKpInit (p : Port) (reg : Reg) (n : Pin) :
    portBit (afterKpInit s cfg k c) p reg n =
      portBit (writeAll (kpInitWrites (kpConfigOf cfg)) (storedKpCfg s cfg)) p reg n := by
  unfold afterKpInit
  generalize writeAll _ _ = u
  rfl

/-- A bit KP_INIT writes is at the level of its register. -/
theorem portBit_afterKpInit_mem {p : Port} {reg : Reg} {n : Pin} {v : Level}
    (hm : (p, reg, n, v) ∈ kpInitWrites (kpConfigOf cfg)) : portBit (afterKpInit s cfg k c) p reg n = v := by
  have hv : v = kpInitLevel p reg := kpInitWrites_level (shared := s.params.sharedDisp) hm rfl rfl
  rw [portBit_afterKpInit]
  exact writeAll_bit _ _ p reg n v ⟨_, hm, rfl, rfl, rfl⟩ fun x hx hp hr _ => (kpInitWrites_level hx hp hr).trans hv.symm

/-- A bit KP_INIT does not write is as before. -/
theorem portBit_afterKpInit_other {p : Port} {reg : Reg} {n : Pin}
    (h : ∀ x ∈ kpInitWrites (kpConfigOf cfg),
      ¬ (portHome s.params.sharedDisp p = portHome s.params.sharedDisp x.1 ∧ reg = x.2.1 ∧ n = x.2.2.1)) :
    portBit (afterKpInit s cfg k c) p reg n = portBit s p reg n := by
  rw [portBit_afterKpInit]
  exact writeAll_other _ (storedKpCfg s cfg) p reg n h

theorem portBit_afterKpInit_kr {reg : Reg} {n : Pin} (h : reg = .pull ∨ ∀ r : Fin 4, n ≠ cfg.rowPins[r]) :
    portBit (afterKpInit s cfg k c) .kr reg n = portBit s .kr reg n := by
  refine portBit_afterKpInit_other s cfg k c fun x hx ⟨hp, hr, hn⟩ => ?_
  rcases mem_kpInitWrites.mp hx with ⟨d, rfl | rfl⟩ | ⟨r, rfl | rfl⟩
  · cases hp
  · cases hp
  · exact h.elim (fun e => by cases e.symm.trans hr) fun h => h r hn
  · exact h.elim (fun e => by cases e.symm.trans hr) fun h => h r hn

theorem portBit_afterKpInit_kc {reg : Reg} {n : Pin} (h : reg = .out ∨ ∀ d : Fin 6, n ≠ cfg.colPins[d]) :
    portBit (afterKpInit s cfg k c) .kc reg n = portBit s .kc reg n := by
  refine portBit_afterKpInit_other s cfg k c fun x hx ⟨hp, hr, hn⟩ => ?_
  rcases mem_kpInitWrites.mp hx with ⟨d, rfl | rfl⟩ | ⟨r, rfl | rfl⟩
  · exact h.elim (fun e => by cases e.symm.trans hr) fun h => h d hn
  · exact h.elim (fun e => by cases e.symm.trans hr) fun h => h d hn
  · cases hp
  · cases hp

theorem portBit_afterKpInit_rows (r : Fin 4) :
    portBit (afterKpInit s cfg k c) .kr .dir (rowPin (afterKpInit s cfg k c) r) = true ∧
    portBit (afterKpInit s cfg k c) .kr .out (rowPin (afterKpInit s cfg k c) r) = true := by
  rw [rowPin_afterKpInit]
  exact ⟨portBit_afterKpInit_mem s cfg k c (mem_kpInitWrites.mpr (.inr ⟨r, .inl rfl⟩)),
    portBit_afterKpInit_mem s cfg k c (mem_kpInitWrites.mpr (.inr ⟨r, .inr rfl⟩))⟩

theorem portBit_afterKpInit_columns (d : Fin 6) :
    portBit (afterKpInit s cfg k c) .kc .dir (colPin (afterKpInit s cfg k c) d) = false ∧
    portBit (afterKpInit s cfg k c) .kc .pull (colPin (afterKpInit s cfg k c) d) = true := by
  rw [colPin_afterKpInit]
  exact ⟨portBit_afterKpInit_mem s cfg k c (mem_kpInitWrites.mpr (.inl ⟨d, .inl rfl⟩)),
    portBit_afterKpInit_mem s cfg k c (mem_kpInitWrites.mpr (.inl ⟨d, .inr rfl⟩))⟩

/-- No row is active after KP_INIT: all are high (R83). -/
theorem rowActive_afterKpInit (r : Fin 4) : rowActive (afterKpInit s cfg k c) r = false := by
  simp [rowActive, (portBit_afterKpInit_rows s cfg k c r).2]

/-- The symbols of a valid configuration fit their byte, so the stored map loses nothing (R82). -/
theorem keySymbol_afterKpInit (hmap : ∀ x ∈ cfg.keyMap, x < 2 ^ 8) (r : Fin 4) (d : Fin 6) :
    (keySymbol (afterKpInit s cfg k c) r d).toNat = cfg.keyMap.getD (6 * r.val + d.val) 0 := by
  have hsym : keySymbol (afterKpInit s cfg k c) r d = BitVec.ofNat 8 (cfg.keyMap.getD (6 * r.val + d.val) 0) := by
    rw [afterKpInit_frame]
    simp [keySymbol, kpTables, kpConfigOf]
  have hlt : cfg.keyMap.getD (6 * r.val + d.val) 0 < 2 ^ 8 := by
    rw [List.getD_eq_getElem?_getD]
    cases h : cfg.keyMap[6 * r.val + d.val]? with
    | none => exact Nat.two_pow_pos 8
    | some x => exact hmap x (List.mem_of_getElem? h)
  rw [hsym, BitVec.toNat_ofNat, Nat.mod_eq_of_lt hlt]

end

theorem kpSetUp_afterKpInit {s : State} {cfg : KpCfg} (hv : kpValid s.params.portWidth cfg = true) (k : Fin 4)
    (c : Fin 6) : KpSetUp (afterKpInit s cfg k c) := by
  obtain ⟨_, hrows, _, hcols, _⟩ := (keypadConfigValidity _ _).mp hv
  refine ⟨fun a b => ?_, fun a b => ?_, portBit_afterKpInit_columns s cfg k c,
    fun r => (portBit_afterKpInit_rows s cfg k c r).1⟩
  · rw [rowPin_afterKpInit, rowPin_afterKpInit]; exact hrows a b
  · rw [colPin_afterKpInit, colPin_afterKpInit]; exact hcols a b

/-- A column that is an input with its pull-up reads 1 while no row is active (R84). -/
theorem idealLevel_of_no_row {s : State} {c : Fin 6} (hdir : portBit s .kc .dir (colPin s c) = false)
    (hpull : portBit s .kc .pull (colPin s c) = true) (hrows : ∀ r, rowActive s r = false) (closed : List Key) :
    idealLevel s closed c = some true := by
  simp [idealLevel, hdir, hpull, hrows]

/-- Settles O23: KP_INIT ends in `afterKpInit`, whose bits are those of its 20 writes. -/
theorem kpInitResult : Obligations.KpInitResult := by
  intro s cfg hs hv
  obtain ⟨_, _, _, _, _, hmap⟩ := (keypadConfigValidity _ _).mp hv
  obtain ⟨k, c, hrun⟩ := exec_kpInit hs hv
  have hframe := afterKpInit_frame s cfg k c
  refine ⟨_, hrun, ⟨rfl, rfl⟩, rfl, rowPin_afterKpInit s cfg k c, colPin_afterKpInit s cfg k c,
    keySymbol_afterKpInit s cfg k c hmap, by rw [hframe], kpSetUp_afterKpInit hv k c,
    fun r => ⟨(portBit_afterKpInit_rows s cfg k c r).2, rowActive_afterKpInit s cfg k c r⟩,
    fun reg n h => portBit_afterKpInit_kr s cfg k c (by simpa only [rowPin_afterKpInit] using h),
    fun reg n h => portBit_afterKpInit_kc s cfg k c (by simpa only [colPin_afterKpInit] using h),
    exec_keypad_frame rfl hrun, exec_records hrun (checkOf_kpInit_none.mpr ⟨hs, hv⟩), by rw [hframe], by rw [hframe],
    by rw [hframe], by rw [hframe], fun closed d => ?_⟩
  obtain ⟨hdir, hpull⟩ := portBit_afterKpInit_columns s cfg k c d
  exact idealLevel_of_no_row hdir hpull (rowActive_afterKpInit s cfg k c) closed

/-! ## DISP_INIT (R114 to R116) -/

theorem checkOf_dispInit_none {s : State} {cfg : DispCfg} :
    checkOf (.dispInit cfg) s = none ↔
      s.dispState = .uninit ∧ dispValid s.params.portWidth s.params.sharedDisp cfg = true := by
  cases hs : s.dispState <;> simp [checkOf, checkDispInit, hs]

/-- DISP_INIT with its payload in progress and its tables stored, before its first write (R114). -/
def storedDispCfg (s : State) (cfg : DispCfg) : State :=
  { s with payload := .dispcfg cfg, dispCfg := some (dispConfigOf cfg) }

/-- DISP_INIT after its DIR writes and the power delay, before the bootstrap. -/
def beforeBoot (s : State) (cfg : DispCfg) : State :=
  delay (writeAll (dispInitWrites (dispConfigOf cfg)) (storedDispCfg s cfg)) .power

/-- DISP_INIT with the bootstrap sent (R115). -/
def booted (s : State) (cfg : DispCfg) : State := runStraight (bootOps s.params) (beforeBoot s cfg)

/-- The display made READY, DISP_INIT completed. -/
def readyDisplay (t : State) : State := complete { t with dispState := .ready }

theorem samePins_readyDisplay (t : State) : SamePins t (readyDisplay t) := ⟨rfl, rfl⟩
theorem portBit_readyDisplay (t : State) (p : Port) (reg : Reg) (n : Pin) :
    portBit (readyDisplay t) p reg n = portBit t p reg n := rfl
theorem busLeftAt_readyDisplay (s t : State) (rs : Level) (b : Byte) :
    BusLeftAt s (readyDisplay t) rs b ↔ BusLeftAt s t rs b := .rfl
theorem readyDisplay_completed (t : State) : Completed (readyDisplay t) := ⟨rfl, rfl⟩
theorem readyDisplay_dispState (t : State) : (readyDisplay t).dispState = .ready := rfl
theorem readyDisplay_i (t : State) : (readyDisplay t).i = t.i := rfl
theorem readyDisplay_trace (t : State) : (readyDisplay t).trace = t.trace := rfl
theorem readyDisplay_latch (t : State) : (readyDisplay t).dl = t.dl ∧ (readyDisplay t).rsl = t.rsl := ⟨rfl, rfl⟩

/-- The state a valid DISP_INIT completes in. -/
def afterDispInit (s : State) (cfg : DispCfg) : State := readyDisplay (booted s cfg)

theorem exec_dispInit {s : State} {cfg : DispCfg} (hs : s.dispState = .uninit)
    (hv : dispValid s.params.portWidth s.params.sharedDisp cfg = true) :
    exec (.dispInit cfg) s = .next (afterDispInit s cfg) := by
  rw [exec_of_check_none (checkOf_dispInit_none.mpr ⟨hs, hv⟩)]
  exact congrArg Host.Outcome.next ((runOps_straight _ _ _ (dispInitOps_straight s.params)).trans
    (congrArg complete (runStraight_dispInit { s with payload := .dispcfg cfg } cfg s.params rfl)))

section
variable (s : State) (cfg : DispCfg)

theorem beforeBoot_frame :
    beforeBoot s cfg =
      { storedDispCfg s cfg with
        kr := (beforeBoot s cfg).kr, kc := (beforeBoot s cfg).kc, dd := (beforeBoot s cfg).dd
        dc := (beforeBoot s cfg).dc, trace := (beforeBoot s cfg).trace } := by
  unfold beforeBoot
  rw [writeAll_frame]
  rfl

theorem beforeBoot_trace :
    (beforeBoot s cfg).trace = s.trace ++ (((List.finRange 4).map fun j => .w .dd .dir cfg.dataPins[j] true) ++
      ((List.finRange 3).map fun j => .w .dc .dir cfg.ctrlPins[j] true) ++ [.d .power]) := by
  unfold beforeBoot
  rw [delay_trace, writeAll_frame]
  simp [dispInitWrites, dispConfigOf, storedDispCfg, Function.comp_def]

theorem samePins_beforeBoot : SamePins (storedDispCfg s cfg) (beforeBoot s cfg) := by
  rw [beforeBoot_frame]
  exact ⟨rfl, rfl⟩

/-- The bits DISP_INIT's DIR writes name are 1 (R114). -/
theorem portBit_beforeBoot_mem {p : Port} {n : Pin} (hm : (p, .dir, n, true) ∈ dispInitWrites (dispConfigOf cfg)) :
    portBit (beforeBoot s cfg) p .dir n = true := by
  have hone : ∀ x ∈ dispInitWrites (dispConfigOf cfg), x.2.2.2 = true := by
    simp [dispInitWrites, or_imp, forall_and]
  exact writeAll_bit _ (storedDispCfg s cfg) p .dir n true ⟨_, hm, rfl, rfl, rfl⟩ fun x hx _ _ _ => hone x hx

theorem sent_booted :
    Sent (beforeBoot s cfg) (booted s cfg) ((List.finRange 5).map fun m => (false, s.params.bootCmds[m])) :=
  sent_bootOps s.params (beforeBoot s cfg)

/-- The bootstrap keeps the pins. -/
theorem samePins_boot : SamePins (beforeBoot s cfg) (afterDispInit s cfg) :=
  (sent_booted s cfg).samePins.trans (samePins_readyDisplay _)

/-- DISP_INIT ends with the pins it has stored. -/
theorem samePins_afterDispInit : SamePins (storedDispCfg s cfg) (afterDispInit s cfg) :=
  (samePins_beforeBoot s cfg).trans (samePins_boot s cfg)

theorem dataPin_afterDispInit (j : Fin 4) : dataPin (afterDispInit s cfg) j = cfg.dataPins[j] :=
  (samePins_afterDispInit s cfg).dataPin j

theorem ctrlPin_afterDispInit (j : Fin 3) : ctrlPin (afterDispInit s cfg) j = cfg.ctrlPins[j] :=
  (samePins_afterDispInit s cfg).ctrlPin j

/-- The bootstrap leaves the DIR bits as they are. -/
theorem portBit_dir_afterDispInit (p : Port) (n : Pin) :
    portBit (afterDispInit s cfg) p .dir n = portBit (beforeBoot s cfg) p .dir n := by
  rw [afterDispInit, portBit_readyDisplay]
  exact (sent_booted s cfg).otherBits p .dir n fun hb => Reg.noConfusion hb.1

theorem afterDispInit_i : (afterDispInit s cfg).i = s.i := by
  have hboot : (booted s cfg).i = (beforeBoot s cfg).i := (sent_boot s.params (List.finRange 5) (beforeBoot s cfg)).2.2
  rw [afterDispInit, readyDisplay_i, hboot, beforeBoot_frame]
  rfl

/-- The latch holds the last byte of the bootstrap. -/
theorem afterDispInit_latch : (afterDispInit s cfg).dl = s.params.bootCmds[4] ∧ (afterDispInit s cfg).rsl = false := by
  rw [afterDispInit, (readyDisplay_latch _).1, (readyDisplay_latch _).2]
  exact (sent_booted s cfg).latch false s.params.bootCmds[4] rfl

theorem flatMap_toList {α β : Type} {n : Nat} (v : Vector α n) (f : α → List β) :
    v.toList.flatMap f = (List.finRange n).flatMap fun m => f v[m] := by
  rw [toList_eq_ofFn, List.ofFn_eq_map, List.flatMap_map]

theorem booted_trace : (booted s cfg).trace = (beforeBoot s cfg).trace ++
    s.params.bootCmds.toList.flatMap fun b => xferEvents (beforeBoot s cfg) false b ++ [.d .cmd] := by
  rw [flatMap_toList]
  exact (sent_boot s.params (List.finRange 5) (beforeBoot s cfg)).2.1

theorem afterDispInit_trace : (afterDispInit s cfg).trace = s.trace ++ dispInitEvents (afterDispInit s cfg) := by
  have hparams : (afterDispInit s cfg).params = s.params := (samePins_afterDispInit s cfg).2
  have htrace : (afterDispInit s cfg).trace = (booted s cfg).trace := readyDisplay_trace _
  rw [htrace, booted_trace, beforeBoot_trace, dispInitEvents, hparams]
  simp only [dataPin_afterDispInit, ctrlPin_afterDispInit, (samePins_boot s cfg).xferEvents, List.append_assoc]

end

section
variable {s : State} {cfg : DispCfg} (hv : dispValid s.params.portWidth s.params.sharedDisp cfg = true)
include hv

theorem dispPinsDistinct_storedDispCfg : DispPinsDistinct (storedDispCfg s cfg) := by
  obtain ⟨_, _, hdata, hctrl, hshared⟩ := (displayConfigValidity _ _ _).mp hv
  exact ⟨hdata, hctrl, hshared⟩

/-- DISP_INIT leaves the bus at its last bootstrap byte (R115). -/
theorem busLeftAt_afterDispInit :
    BusLeftAt (afterDispInit s cfg) (afterDispInit s cfg) false s.params.bootCmds[4] := by
  have hd := (samePins_beforeBoot s cfg).distinct.mpr (dispPinsDistinct_storedDispCfg hv)
  have hbus := (sent_booted s cfg).bus false s.params.bootCmds[4] rfl hd
  exact ((samePins_boot s cfg).busLeftAt _ false _).mpr ((busLeftAt_readyDisplay _ _ _ _).mpr hbus)

theorem dispSetUp_afterDispInit : DispSetUp (afterDispInit s cfg) := by
  obtain ⟨_, hrw, hen, _⟩ := busLeftAt_afterDispInit hv
  refine ⟨(samePins_afterDispInit s cfg).distinct.mpr (dispPinsDistinct_storedDispCfg hv), fun j => ?_, fun j => ?_,
    hrw, hen⟩
  · rw [dataPin_afterDispInit, portBit_dir_afterDispInit]
    exact portBit_beforeBoot_mem s cfg (by simp [dispInitWrites, dispConfigOf])
  · rw [ctrlPin_afterDispInit, portBit_dir_afterDispInit]
    exact portBit_beforeBoot_mem s cfg (by simp [dispInitWrites, dispConfigOf])

end

/-- Settles O35: DISP_INIT ends in `afterDispInit`: its DIR writes, then the transfers of the bootstrap. -/
theorem dispInitResult : Obligations.DispInitResult := by
  intro s cfg hs hv
  have hrun := exec_dispInit hs hv
  obtain ⟨hdl, hrsl⟩ := afterDispInit_latch s cfg
  exact ⟨_, hrun, readyDisplay_completed _, readyDisplay_dispState _, dataPin_afterDispInit s cfg,
    ctrlPin_afterDispInit s cfg, afterDispInit_trace s cfg, hdl, hrsl, dispSetUp_afterDispInit hv,
    busLeftAt_afterDispInit hv, exec_display_frame rfl hrun, exec_records hrun (checkOf_dispInit_none.mpr ⟨hs, hv⟩),
    afterDispInit_i s cfg, fun p reg n => exec_dispInit_bits hrun⟩

end Sys2Proof.Machine
end

section
/-! PROOFS. The invariant of the machine: its parts, the commands that keep them, and every step (10_state.md). -/

namespace Sys2Proof.Machine

/-! ## The invariant by its parts (R15, R78, R83, R101, R105) -/

/-- The pins of the keypad are pins of its ports (R22). -/
def KpPinsFit (s : State) : Prop :=
  (∀ k : Fin 4, rowPin s k < s.params.portWidth) ∧ ∀ c : Fin 6, colPin s c < s.params.portWidth

/-- The pins of the display are pins of its ports (R24). -/
def DispPinsFit (s : State) : Prop :=
  (∀ j : Fin 4, dataPin s j < s.params.portWidth) ∧ ∀ j : Fin 3, ctrlPin s j < s.params.portWidth

/-- What `Inv` asks of a READY keypad. -/
structure KpOk (s : State) : Prop where
  pins : KpPinsFit s
  setUp : KpSetUp s
  rows : RowsExclusive s

/-- What `Inv` asks of a READY display. -/
structure DispOk (s : State) : Prop where
  pins : DispPinsFit s
  setUp : DispSetUp s

/-- `Inv` but for where SEQ stands: what a command needs of the state it starts in, and leaves. -/
structure UnitsOk (s : State) : Prop where
  fit : PortsFit s
  kp : s.kpState = .ready → KpOk s
  disp : s.dispState = .ready → DispOk s

theorem inv_iff (s : State) : Inv s ↔ UnitsOk s ∧ SeqOk s := by
  constructor
  · rintro ⟨hfit, ⟨hkpPins, hdispPins⟩, hkp, hrows, hdisp, hseq⟩
    exact ⟨⟨hfit, fun h => ⟨hkpPins h, hkp h, hrows h⟩, fun h => ⟨hdispPins h, hdisp h⟩⟩, hseq⟩
  · rintro ⟨⟨hfit, hkp, hdisp⟩, hseq⟩
    exact ⟨hfit, ⟨fun h => (hkp h).pins, fun h => (hdisp h).pins⟩, fun h => (hkp h).setUp, fun h => (hkp h).rows,
      fun h => (hdisp h).setUp, hseq⟩

/-- `t` has the keypad's ports and tables of `s`; an update of other fields is `{}`, by `rfl`. -/
structure SameKeypadPorts (s t : State) : Prop where
  kr : t.kr = s.kr := by rfl
  kc : t.kc = s.kc := by rfl
  cfg : t.kpCfg = s.kpCfg := by rfl
  params : t.params = s.params := by rfl

/-- `t` has the display's ports and tables of `s`; an update of other fields is `{}`, by `rfl`. -/
structure SameDisplayPorts (s t : State) : Prop where
  dd : t.dd = s.dd := by rfl
  dc : t.dc = s.dc := by rfl
  cfg : t.dispCfg = s.dispCfg := by rfl
  params : t.params = s.params := by rfl

section
variable {s t : State}

theorem SameKeypadPorts.rowPin (h : SameKeypadPorts s t) (k : Fin 4) : rowPin t k = rowPin s k := by
  simp only [Machine.rowPin, kpTables, h.cfg]

theorem SameKeypadPorts.colPin (h : SameKeypadPorts s t) (c : Fin 6) : colPin t c = colPin s c := by
  simp only [Machine.colPin, kpTables, h.cfg]

theorem SameKeypadPorts.portBit_kr (h : SameKeypadPorts s t) (reg : Reg) (n : Pin) :
    portBit t .kr reg n = portBit s .kr reg n := by
  simp only [portBit, getPort, portHome, h.kr]

theorem SameKeypadPorts.portBit_kc (h : SameKeypadPorts s t) (reg : Reg) (n : Pin) :
    portBit t .kc reg n = portBit s .kc reg n := by
  simp only [portBit, getPort, portHome, h.kc]

theorem KpOk.of_samePorts (hs : KpOk s) (h : SameKeypadPorts s t) : KpOk t := by
  obtain ⟨hpins, hsetUp, hrows⟩ := hs
  refine ⟨?_, ?_, ?_⟩
  · simpa only [KpPinsFit, h.rowPin, h.colPin, h.params] using hpins
  · simpa only [KpSetUp, RowPinsDistinct, ColPinsDistinct, h.rowPin, h.colPin, h.portBit_kr, h.portBit_kc] using hsetUp
  · simpa only [RowsExclusive, rowActive, h.rowPin, h.portBit_kr] using hrows

theorem SameDisplayPorts.samePins (h : SameDisplayPorts s t) : SamePins s t := ⟨h.cfg, h.params⟩

theorem SameDisplayPorts.portBit (h : SameDisplayPorts s t) {p : Port} (hp : p = .dd ∨ p = .dc) (reg : Reg) (n : Pin) :
    portBit t p reg n = portBit s p reg n := by
  simp only [Machine.portBit, getPort, h.params]
  rcases hp with rfl | rfl <;> cases s.params.sharedDisp <;> simp only [portHome, h.dd, h.dc] <;> rfl

theorem SamePins.dispPinsFit (h : SamePins s t) (hs : DispPinsFit s) : DispPinsFit t := by
  simpa only [DispPinsFit, h.dataPin, h.ctrlPin, h.2] using hs

theorem DispOk.of_samePorts (hs : DispOk s) (h : SameDisplayPorts s t) : DispOk t := by
  refine ⟨h.samePins.dispPinsFit hs.pins, ?_⟩
  simpa only [DispSetUp, h.samePins.distinct, h.samePins.dataPin, h.samePins.ctrlPin, h.portBit (.inl rfl),
    h.portBit (.inr rfl)] using hs.setUp

theorem PortsFit.of_samePorts (hs : PortsFit s) (hk : SameKeypadPorts s t) (hd : SameDisplayPorts s t) : PortsFit t := by
  simpa only [PortsFit, hk.kr, hk.kc, hd.dd, hd.dc, hk.params] using hs

/-- A change that keeps every port, table and unit state keeps what `Inv` asks of the units. -/
theorem UnitsOk.of_samePorts (hs : UnitsOk s) (hk : SameKeypadPorts s t) (hd : SameDisplayPorts s t)
    (hkp : t.kpState = s.kpState) (hdisp : t.dispState = s.dispState) : UnitsOk t :=
  ⟨hs.fit.of_samePorts hk hd, fun h => (hs.kp (hkp.symm.trans h)).of_samePorts hk,
    fun h => (hs.disp (hdisp.symm.trans h)).of_samePorts hd⟩

end

theorem KeypadKept.samePorts {s t : State} (h : KeypadKept s t) (hp : t.params = s.params) : SameKeypadPorts s t := by
  obtain ⟨hkr, hkc, hcfg, _⟩ := h
  exact ⟨hkr, hkc, hcfg, hp⟩

theorem DisplayKept.samePorts {s t : State} (h : DisplayKept s t) (hp : t.params = s.params) : SameDisplayPorts s t := by
  obtain ⟨hdd, hdc, hcfg, _⟩ := h
  exact ⟨hdd, hdc, hcfg, hp⟩

/-! ## Registers within their width along a command (R15, R48) -/

theorem KpPinsFit.congr {s t : State} (hc : t.kpCfg = s.kpCfg) (hp : t.params = s.params) (h : KpPinsFit s) :
    KpPinsFit t := by
  simpa only [KpPinsFit, rowPin, colPin, kpTables, hc, hp] using h

/-- A keypad micro-step that stores no table keeps registers and pins within the width. -/
theorem microOp_keypad_fits {op : MicroOp} (hop : isKeypadOp op = true ∧ op ≠ .storeKpConfig) {s : State}
    (h : PortsFit s ∧ KpPinsFit s) : PortsFit (resultState (microOp op s)) ∧ KpPinsFit (resultState (microOp op s)) := by
  obtain ⟨hfit, hpins⟩ := h
  have hwrite : ∀ p reg n v, n < s.params.portWidth →
      PortsFit (pinWrite s p reg n v) ∧ KpPinsFit (pinWrite s p reg n v) :=
    fun p reg n v hn => ⟨portsFit_pinWrite p reg v hfit hn, hpins.congr (pinWrite_kpCfg ..) (pinWrite_params ..)⟩
  cases op with
  | pinWrite loc reg v =>
    cases loc with
    | rowK => exact hwrite .kr reg _ v (hpins.1 s.k)
    | rowR => exact hwrite .kr reg _ v (hpins.1 s.r)
    | colC => exact hwrite .kc reg _ v (hpins.2 s.c)
    | _ => cases hop.1
  | storeKpConfig => exact absurd rfl hop.2
  | detect c => simp only [microOp]; rw [resultState_detectFirst]; exact ⟨hfit, hpins⟩
  | waitRelease c => simp only [microOp]; rw [resultState_detectAgain]; exact ⟨hfit, hpins⟩
  | reportKey => simp only [microOp]; split <;> exact ⟨hfit, hpins⟩
  | setR _ | setK _ | setC _ | kpReady => exact ⟨hfit, hpins⟩
  | _ => cases hop.1

/-- A keypad program that stores no table keeps registers and pins within the width. -/
theorem runOps_keypad_fits (w : Word) {ops : List MicroOp}
    (hops : ∀ op ∈ ops, isKeypadOp op = true ∧ op ≠ .storeKpConfig) {s : State} (hfit : PortsFit s) (hpins : KpPinsFit s) :
    PortsFit (runOps w ops s) ∧ KpPinsFit (runOps w ops s) :=
  runOps_keeps (P := fun t => PortsFit t ∧ KpPinsFit t) w ops s ⟨hfit, hpins⟩
    (fun op ho _ ht => microOp_keypad_fits (hops op ho) ht) fun _ _ _ ht => ht

/-- Registers and display pins are within the width, those of a configuration in the payload too. -/
structure DispFits (s : State) : Prop where
  fit : PortsFit s
  pins : DispPinsFit s
  payload : ∀ cfg, s.payload = .dispcfg cfg →
    (∀ j : Fin 4, cfg.dataPins[j] < s.params.portWidth) ∧ ∀ j : Fin 3, cfg.ctrlPins[j] < s.params.portWidth

theorem DispFits.pinWrite {s : State} (h : DispFits s) (p : Port) (reg : Reg) {n : Pin} (v : Level)
    (hn : n < s.params.portWidth) : DispFits (pinWrite s p reg n v) := by
  have hpins : SamePins s (Machine.pinWrite s p reg n v) := ⟨pinWrite_dispCfg .., pinWrite_params ..⟩
  refine ⟨portsFit_pinWrite p reg v h.fit hn, hpins.dispPinsFit h.pins, ?_⟩
  simpa only [pinWrite_payload, pinWrite_params] using h.payload

theorem DispFits.storeDisp {s : State} (h : DispFits s) : DispFits (storeDisp s) := by
  unfold Machine.storeDisp
  split
  · rename_i cfg hp
    exact ⟨h.fit, h.payload cfg hp, h.payload⟩
  all_goals exact h

/-- A display micro-step keeps registers and pins within the width. -/
theorem DispFits.advanceOp {op : MicroOp} (hop : isDisplayOp op = true) {s : State} (h : DispFits s) :
    DispFits (advanceOp op s) := by
  cases op with
  | pinWrite loc reg v =>
    cases loc with
    | data j => exact h.pinWrite .dd reg v (h.pins.1 j)
    | ctrl j => exact h.pinWrite .dc reg v (h.pins.2 j)
    | _ => cases hop
  | pinWriteRsl => exact h.pinWrite .dc .out _ (h.pins.2 0)
  | pinWriteDl j bit => exact h.pinWrite .dd .out _ (h.pins.1 j)
  | storeDispConfig => exact h.storeDisp
  | delay _ | latch _ _ | latchText | latchDigit | setI _ | dispReady => exact ⟨h.fit, h.pins, h.payload⟩
  | _ => cases hop

theorem runStraight_display_fits {ops : List MicroOp} (hops : ∀ op ∈ ops, isDisplayOp op = true) {s : State}
    (h : DispFits s) : DispFits (runStraight ops s) :=
  List.foldlRecOn (motive := DispFits) ops _ h fun _ ht op ho => ht.advanceOp (hops op ho)

/-! ## How KP_READ ends (R91) -/

theorem ScanKept.params {s t : State} (h : ScanKept s t) : t.params = s.params := by rw [h.same]

/-- The three ends of a run of KP_READ: no sample read closed; the first closed one is that of key (r, c), reported at
once or waited for. -/
inductive KpReadEnd (w : Word) (s t : State) : Prop where
  | noKey (allOpen : AllRowsOpen s (List.finRange 4)) (after : t = complete ((List.finRange 4).foldl openRow s))
  | reports (r : Fin 4) (c : Fin 6) (before : OpenBefore s r c) (closed : sampleValue (beforeKey s r c) c = false)
      (mode : s.params.detectMode = .singleSample)
      (after : t = complete (writeKeyout { afterSample (beforeKey s r c) c with c := c, pressed := some true }
        (keySymbol (beforeKey s r c) (beforeKey s r c).r c)))
  | waits (r : Fin 4) (c : Fin 6) (before : OpenBefore s r c) (closed : sampleValue (beforeKey s r c) c = false)
      (mode : s.params.detectMode = .blockingRelease)
      (after : t = { afterSample (beforeKey s r c) c with
        c := c, seq := .run w (.at (.waitRelease c :: .reportKey :: kpReadAfter r c)) })

theorem runOps_kpRead_end (w : Word) (s : State) : KpReadEnd w s (runOps w kpReadOps s) := by
  rcases allRowsOpen_or_key s with hopen | ⟨r, c, hbefore, hclosed⟩
  · have hrun := runOps_rows_open w (List.finRange 4) [] s hopen
    rw [List.append_nil] at hrun
    exact .noKey hopen hrun
  · have hparams : (beforeKey s r c).params = s.params := (scanKept_beforeKey s r c).params
    have hrun := runOps_beforeKey w s r c hbefore
    cases hm : s.params.detectMode with
    | singleSample =>
      exact .reports r c hbefore hclosed hm (hrun.trans (runOps_column_single w c _ _ (hparams ▸ hm) hclosed))
    | blockingRelease =>
      exact .waits r c hbefore hclosed hm (hrun.trans (runOps_column_blocking w c _ _ (hparams ▸ hm) hclosed))

theorem openRow_rows {u : State} (h : RowPinsDistinct u) (r k : Fin 4) :
    portBit (openRow u r) .kr .out (rowPin u k) = decide (k ≠ r) := by
  rw [openRow, openSamples_frame]
  exact portBit_selectRow_row u r k h

/-- After a scan that met no key the last row alone is low (R97). -/
theorem openRows_rows (s : State) (h : RowPinsDistinct s) (k : Fin 4) :
    portBit ((List.finRange 4).foldl openRow s) .kr .out (rowPin s k) = decide (k ≠ 3) := by
  have hkept := scanKept_openRows ((List.finRange 4).take 3) s
  rw [openRows_last, ← hkept.rowPin k]
  exact openRow_rows (by simpa only [RowPinsDistinct, hkept.rowPin] using h) 3 k

/-- One row alone is low. -/
def OneRowLow (s : State) : Prop := ∃ r : Fin 4, ∀ k : Fin 4, portBit s .kr .out (rowPin s k) = decide (k ≠ r)

theorem OneRowLow.rowsExclusive {s : State} (h : OneRowLow s) : RowsExclusive s := by
  obtain ⟨r, hlow⟩ := h
  have honly : ∀ k, rowActive s k = true → k = r := fun k hk => by
    simpa [rowActive, hlow] using (Bool.and_eq_true_iff.mp hk).2
  exact fun a b ha hb => (honly a ha).trans (honly b hb).symm

theorem KpOk.scanKept {s u : State} (hs : KpOk s) (h : ScanKept s u) (hrow : OneRowLow u) : KpOk u :=
  ⟨hs.pins.congr h.kpCfg h.params, hs.setUp.scanKept h fun r => h.bits .dir _ (.inl (by decide)),
    hrow.rowsExclusive⟩

/-- KP_READ leaves a set-up keypad set up, one row active at most (R78). -/
theorem KpReadEnd.kpOk {w : Word} {s t : State} (h : KpReadEnd w s t) (hs : KpOk s) : KpOk t := by
  have hd : RowPinsDistinct s := hs.setUp.1
  have hkey : ∀ r c, KpOk (beforeKey s r c) := fun r c =>
    have hkept := scanKept_beforeKey s r c
    hs.scanKept hkept ⟨r, fun k => by rw [hkept.rowPin]; exact beforeKey_rows s r c hd k⟩
  cases h with
  | noKey _ after =>
    have hkept := scanKept_openRows (List.finRange 4) s
    have hend := hs.scanKept hkept ⟨3, fun k => by rw [hkept.rowPin]; exact openRows_rows s hd k⟩
    rw [after]
    exact hend.of_samePorts {}
  | reports r c _ _ _ after => rw [after]; exact (hkey r c).of_samePorts {}
  | waits r c _ _ _ after => rw [after]; exact (hkey r c).of_samePorts {}

/-! ## Checks (R14, R165) -/

theorem checkOf_kpRead_none {s : State} : checkOf .kpRead s = none ↔ s.kpState = .ready := by
  cases h : s.kpState <;> simp [checkOf, checkKpReady, h]

theorem checkOf_kpDetect_ready {s : State} {col : Byte} (h : checkOf (.kpDetect col) s = none) : s.kpState = .ready := by
  cases hs : s.kpState with
  | ready => rfl
  | uninit => simp [checkOf, checkKpDetect, hs] at h

theorem checkOf_display_none {i : Instr} (hk : isKeypad i = false) (hd : isDispInit i = false) {s : State} :
    checkOf i s = none ↔ s.dispState = .ready := by
  have hready : checkOf i s = checkDispReady s := by
    cases i with
    | kpInit _ | kpRead | kpDetect _ => cases hk
    | dispInit _ => cases hd
    | _ => rfl
  rw [hready]
  cases h : s.dispState <;> simp [checkDispReady, h]

/-! ## What the commands leave of the units -/

/-- Ports, tables and unit states are as before; an update of other fields is `{}`. -/
structure UnitsKept (s t : State) : Prop where
  keypad : SameKeypadPorts s t := by exact {}
  display : SameDisplayPorts s t := by exact {}
  kpState : t.kpState = s.kpState := by rfl
  dispState : t.dispState = s.dispState := by rfl

theorem UnitsOk.of_kept {s t : State} (hs : UnitsOk s) (h : UnitsKept s t) : UnitsOk t :=
  hs.of_samePorts h.keypad h.display h.kpState h.dispState

/-- A keypad command keeps what `Inv` asks of the units if it keeps the registers' width and sets the keypad up. -/
theorem UnitsOk.keypad {s t : State} (hs : UnitsOk s) (hd : DisplayKept s t) (hp : t.params = s.params)
    (hfit : PortsFit t) (hkp : t.kpState = .ready → KpOk t) : UnitsOk t := by
  have hports := hd.samePorts hp
  obtain ⟨_, _, _, hstate, _⟩ := hd
  exact ⟨hfit, hkp, fun h => (hs.disp (hstate.symm.trans h)).of_samePorts hports⟩

theorem UnitsOk.display {s t : State} (hs : UnitsOk s) (hk : KeypadKept s t) (hp : t.params = s.params)
    (hfit : PortsFit t) (hdisp : t.dispState = .ready → DispOk t) : UnitsOk t := by
  have hports := hk.samePorts hp
  obtain ⟨_, _, _, hstate, _⟩ := hk
  exact ⟨hfit, fun h => (hs.kp (hstate.symm.trans h)).of_samePorts hports, hdisp⟩

theorem kpInit_unitsOk {s t : State} {cfg : KpCfg} (hs : UnitsOk s) (hc : checkOf (.kpInit cfg) s = none)
    (h : exec (.kpInit cfg) s = .next t) : UnitsOk t := by
  obtain ⟨huninit, hv⟩ := checkOf_kpInit_none.mp hc
  obtain ⟨hrows, _, hcols, _⟩ := (keypadConfigValidity _ _).mp hv
  have hfits := runOps_keypad_fits (encode (.kpInit cfg)) (ops := kpInitOps.tail) (by decide)
    (s := storedKpCfg s cfg) hs.fit ⟨hrows, hcols⟩
  have ht : t = runOps (encode (.kpInit cfg)) kpInitOps.tail (storedKpCfg s cfg) :=
    Host.Outcome.next.inj (h.symm.trans (exec_of_check_none hc))
  obtain ⟨k, c, hrun⟩ := exec_kpInit huninit hv
  obtain rfl : t = afterKpInit s cfg k c := Host.Outcome.next.inj (h.symm.trans hrun)
  rw [← ht] at hfits
  refine hs.keypad (exec_keypad_frame rfl h) (exec_params_eq h) hfits.1 fun _ =>
    ⟨hfits.2, kpSetUp_afterKpInit hv k c, ?_⟩
  exact fun a b ha => absurd ha (by simp [rowActive_afterKpInit])

theorem kpRead_unitsOk {s t : State} (hs : UnitsOk s) (hc : checkOf .kpRead s = none) (h : exec .kpRead s = .next t) :
    UnitsOk t := by
  have hready := checkOf_kpRead_none.mp hc
  have hk : KpOk { s with payload := .none } := (hs.kp hready).of_samePorts {}
  have ht : t = runOps (encode .kpRead) kpReadOps { s with payload := .none } :=
    Host.Outcome.next.inj (h.symm.trans (exec_of_check_none hc))
  have hfits := runOps_keypad_fits (encode .kpRead) (ops := kpReadOps) (by decide) (s := { s with payload := .none }) hs.fit
    hk.pins
  refine hs.keypad (exec_keypad_frame rfl h) (exec_params_eq h) (ht ▸ hfits.1) fun _ => ?_
  rw [ht]
  exact (runOps_kpRead_end (encode .kpRead) { s with payload := .none }).kpOk hk

theorem unitsKept_kpDetect {s t : State} {col : Byte} (h : exec (.kpDetect col) s = .next t) : UnitsKept s t := by
  obtain ⟨hkr, hkc, hcfg, hstate, _⟩ := kpDetect_frame h
  have hparams := exec_params_eq h
  have hdisp := exec_keypad_frame rfl h
  have hports := hdisp.samePorts hparams
  obtain ⟨_, _, _, hdispState, _⟩ := hdisp
  exact ⟨⟨hkr, hkc, hcfg, hparams⟩, hports, hstate, hdispState⟩

/-- A display command that passes its checks runs its micro-steps to the end. -/
theorem exec_display_eq {i : Instr} (hk : isKeypad i = false) {s t : State} (hc : checkOf i s = none)
    (h : exec i s = .next t) : t = complete (runStraight (programOf i s.params) { s with payload := payloadOf i }) := by
  rcases exec_cases h with ⟨code, hcode, _⟩ | ⟨_, ht⟩
  · cases hc.symm.trans hcode
  · exact ht.trans (runOps_straight _ _ _ (programOf_straight hk s.params))

theorem DispFits.complete {s : State} (h : DispFits s) : PortsFit (complete s) ∧ DispPinsFit (complete s) :=
  ⟨h.fit, h.pins⟩

theorem runStraight_dispInit_fits {s : State} {cfg : DispCfg} (hfit : PortsFit s)
    (hv : dispValid s.params.portWidth s.params.sharedDisp cfg = true) :
    DispFits (runStraight (dispInitOps s.params) { s with payload := .dispcfg cfg }) := by
  obtain ⟨hdata, hctrl, _⟩ := (displayConfigValidity _ _ _).mp hv
  have hstored : DispFits (storedDispCfg s cfg) :=
    ⟨hfit, ⟨hdata, hctrl⟩, fun _ hp => by cases hp; exact ⟨hdata, hctrl⟩⟩
  have hfirst : advanceOp .storeDispConfig { s with payload := .dispcfg cfg } = storedDispCfg s cfg := rfl
  have hops := dispInitOps_display s.params
  rw [dispInitOps] at hops ⊢
  rw [runStraight_cons, hfirst]
  exact runStraight_display_fits (fun op ho => hops op (List.mem_cons_of_mem _ ho)) hstored

theorem dispInit_unitsOk {s t : State} {cfg : DispCfg} (hs : UnitsOk s) (hc : checkOf (.dispInit cfg) s = none)
    (h : exec (.dispInit cfg) s = .next t) : UnitsOk t := by
  obtain ⟨huninit, hv⟩ := checkOf_dispInit_none.mp hc
  have hfits := (runStraight_dispInit_fits hs.fit hv).complete
  have ht : t = complete (runStraight (dispInitOps s.params) { s with payload := .dispcfg cfg }) :=
    exec_display_eq (i := .dispInit cfg) rfl hc h
  rw [← ht] at hfits
  obtain rfl : t = afterDispInit s cfg := Host.Outcome.next.inj (h.symm.trans (exec_dispInit huninit hv))
  exact hs.display (exec_display_frame rfl h) (exec_params_eq h) hfits.1 fun _ =>
    ⟨hfits.2, dispSetUp_afterDispInit hv⟩

theorem DisplaySent.samePins {s t : State} {sent : List (Level × Byte)} (h : DisplaySent s t sent) : SamePins s t := by
  obtain ⟨_, _, hparams, _⟩ := h.records
  exact ⟨h.config.1, hparams⟩

/-- The transfers of a command keep the display set up: they end with RW and EN low (R105). -/
theorem DisplaySent.dispSetUp {s t : State} {sent : List (Level × Byte)} (h : DisplaySent s t sent) (hs : DispSetUp s) :
    DispSetUp t := by
  obtain ⟨hdistinct, hdata, hctrl, hrw, hen⟩ := hs
  have hpins := h.samePins
  have hdir : ∀ p n, portBit t p .dir n = portBit s p .dir n := fun p n =>
    h.otherBits p .dir n fun hb => Reg.noConfusion hb.1
  have hlow : portBit t .dc .out (ctrlPin s 1) = false ∧ portBit t .dc .out (ctrlPin s 2) = false := by
    cases hlast : sent.getLast? with
    | none =>
      obtain ⟨_, _, hdd, hdc⟩ := h.nothing (List.getLast?_eq_none_iff.mp hlast)
      have hports : SameDisplayPorts s t := ⟨hdd, hdc, hpins.1, hpins.2⟩
      rw [hports.portBit (.inr rfl), hports.portBit (.inr rfl)]
      exact ⟨hrw, hen⟩
    | some x =>
      obtain ⟨_, hrw', hen', _⟩ := h.bus x.1 x.2 hlast hdistinct
      exact ⟨hrw', hen'⟩
  simpa only [DispSetUp, hpins.distinct, hpins.dataPin, hpins.ctrlPin, hdir] using ⟨hdistinct, hdata, hctrl, hlow⟩

theorem payloadOf_ne_dispcfg {i : Instr} (hd : isDispInit i = false) (cfg : DispCfg) : payloadOf i ≠ .dispcfg cfg := by
  cases i with
  | dispInit _ => cases hd
  | _ => exact fun h => Payload.noConfusion h

theorem display_unitsOk {i : Instr} (hk : isKeypad i = false) (hd : isDispInit i = false) {s t : State} (hs : UnitsOk s)
    (hc : checkOf i s = none) (h : exec i s = .next t) : UnitsOk t := by
  rcases exec_displaySent hk hd h with ⟨code, rfl⟩ | hsent
  · exact hs.of_kept {}
  · obtain ⟨hpins, hsetUp⟩ := hs.disp ((checkOf_display_none hk hd).mp hc)
    have hstart : DispFits { s with payload := payloadOf i } :=
      ⟨hs.fit, hpins, fun cfg hp => absurd hp (payloadOf_ne_dispcfg hd cfg)⟩
    have hfits := (runStraight_display_fits (programOf_display hk s.params) hstart).complete
    rw [← exec_display_eq hk hc h] at hfits
    exact hs.display hsent.keypad hsent.samePins.2 hfits.1 fun _ => ⟨hfits.2, hsent.dispSetUp hsetUp⟩

/-- Every command keeps what `Inv` asks of the units. -/
theorem exec_unitsOk {i : Instr} {s t : State} (hs : UnitsOk s) (h : exec i s = .next t) : UnitsOk t := by
  rcases exec_cases h with ⟨code, _, rfl⟩ | ⟨hc, _⟩
  · exact hs.of_kept {}
  · cases i with
    | kpInit cfg => exact kpInit_unitsOk hs hc h
    | kpRead => exact kpRead_unitsOk hs hc h
    | kpDetect col => exact hs.of_kept (unitsKept_kpDetect h)
    | dispInit cfg => exact dispInit_unitsOk hs hc h
    | _ => exact display_unitsOk rfl rfl hs hc h

/-! ## Where SEQ stands (R30, R163) -/

/-- A first sample of detection either goes on, or enters the wait loop at its column. -/
theorem detectFirst_cases (s : State) (c : Fin 6) :
    (∃ v, detectFirst s c = .advance (setPressed (afterSample s c) v)) ∨
    detectFirst s c = .spin (afterSample s c) (.waitRelease c) := by
  unfold detectFirst
  split
  · exact .inl ⟨_, rfl⟩
  · split
    · exact .inr rfl
    · exact .inl ⟨_, rfl⟩

/-- The detection of key (r, c), and what follows it, ends KP_READ's program. -/
theorem kpReadAfter_suffix (r : Fin 4) (c : Fin 6) :
    (MicroOp.detect c :: .reportKey :: kpReadAfter r c) <:+ kpReadOps := by
  have hcolumn : (MicroOp.detect c :: .reportKey :: kpReadAfter r c) <:+ readColumnOps c ++ kpReadAfter r c :=
    List.suffix_cons (MicroOp.setC c) _
  rw [kpReadOps_split r c]
  refine List.IsSuffix.trans ?_ (List.suffix_append _ _)
  refine List.IsSuffix.trans ?_ (List.suffix_cons (MicroOp.setR r) _)
  exact (hcolumn.trans (List.suffix_append _ _)).trans (List.suffix_append selectRowOps _)

theorem KpReadEnd.seqOk {s t : State} (h : KpReadEnd (encode .kpRead) s t) (hs : s.kpState = .ready) : SeqOk t := by
  cases h with
  | noKey _ after => exact .inl (by rw [after, complete_seq])
  | reports r c _ _ _ after => exact .inl (by rw [after, complete_seq])
  | waits r c _ _ _ after =>
    have hready : (beforeKey s r c).kpState = .ready := (scanKept_beforeKey s r c).kpState.trans hs
    rw [after]
    exact .inr (.inr ⟨_, c, _, rfl, hready, .inl ⟨rfl, kpReadAfter_suffix r c⟩⟩)

theorem kpDetect_seqOk {s : State} (hs : s.kpState = .ready) (col : Byte) :
    SeqOk (runOps (encode (.kpDetect col)) (kpDetectOps col) s) := by
  unfold kpDetectOps
  split
  · rename_i hcol
    rcases detectFirst_cases s ⟨zext col, hcol⟩ with ⟨v, h⟩ | h
    · simp only [runOps, microOp, h]
      exact .inl rfl
    · simp only [runOps, microOp, h]
      exact .inr (.inr ⟨_, _, _, rfl, hs, .inr ⟨⟨col, rfl⟩, rfl⟩⟩)
  · exact .inl rfl

/-- A command leaves SEQ where the invariant allows it: IDLE, at a fault, or in the wait loop of a detection. -/
theorem exec_seqOk {i : Instr} {s t : State} (h : exec i s = .next t) : SeqOk t := by
  rcases exec_cases h with ⟨code, _, rfl⟩ | ⟨hc, rfl⟩
  · exact .inr (.inl (by simp))
  · cases hk : isKeypad i with
    | false =>
      rw [runOps_straight _ _ _ (programOf_straight hk s.params)]
      exact .inl rfl
    | true =>
      cases i with
      | kpInit cfg =>
        exact .inl (congrArg State.seq (runOps_straight _ kpInitOps _ kpInitOps_straight))
      | kpRead => exact (runOps_kpRead_end _ _).seqOk (checkOf_kpRead_none.mp hc)
      | kpDetect col => exact kpDetect_seqOk (s := { s with payload := .none }) (checkOf_kpDetect_ready hc) col
      | _ => cases hk

/-- In KP_READ every detection is followed by the report of its key (R91). -/
theorem kpReadOps_detect_report {c : Fin 6} {rest : List MicroOp} (h : (.detect c :: rest) <:+ kpReadOps) :
    ∃ more, rest = .reportKey :: more := by
  have hall : ∀ l ∈ kpReadOps.tails, ∀ c, l.head? = some (.detect c) → l.tail.head? = some .reportKey := by decide
  have hhead : rest.head? = some .reportKey := hall _ ((List.mem_tails _ _).mpr h) c rfl
  exact ⟨rest.tail, (List.cons_head?_tail hhead).symm⟩

/-- A sample of the wait loop on a keypad at rest between steps: it loops, or completes the command. -/
theorem waitLoop_resume {s : State} {w : Word} {ops : List MicroOp} (hf : s.fault = none) (hq : s.seq = .run w (.at ops))
    (h : SeqOk s) : UnitsKept s (runOps w ops s) ∧ SeqOk (runOps w ops s) := by
  rcases h with hidle | hfault | ⟨w', c, rest, hseq, hready, hcmd⟩
  · cases hidle.symm.trans hq
  · exact absurd hf hfault
  · cases hq.symm.trans hseq
    cases hv : sampleValue s c with
    | false =>
      rw [runOps_wait_closed w c rest s hv]
      exact ⟨{}, .inr (.inr ⟨w, c, rest, rfl, hready, hcmd⟩)⟩
    | true =>
      rw [runOps_wait_open w c rest s hv]
      rcases hcmd with ⟨_, hsuffix⟩ | ⟨_, rfl⟩
      · obtain ⟨more, rfl⟩ := kpReadOps_detect_report hsuffix
        rw [runOps_report w more _ rfl]
        exact ⟨{}, .inl rfl⟩
      · exact ⟨{}, .inl rfl⟩

/-! ## What a step does to the units -/

/-- What a step from a state between two steps does to the units: a reset; nothing; or what a command does. -/
inductive StepUnits (s t : State) : Prop where
  | reset (l : Option Byte)
      (host : (∃ rest, s.host = .reset l :: rest) ∨ ∃ w p n rest, s.host = .issueThenReset w p n l :: rest)
      (after : AtReset t s.params l) (params : t.params = s.params)
  | kept (units : UnitsKept s t) (seq : SeqOk t)
  | command (i : Instr) (u : State) (units : UnitsKept s u) (run : exec i u = .next t)

theorem step_units {s t : State} (hs : SeqOk s) (h : step s = .next t) : StepUnits s t := by
  have hentry : ∀ w, s.fault = none → s.seq ≠ .run w .entry := by
    rintro w hf hq
    rcases hs with hidle | hfault | ⟨_, _, _, hseq, _⟩
    · cases hidle.symm.trans hq
    · exact hfault hf
    · cases hq.symm.trans hseq
  cases step_cases h with
  | reset l rest host after =>
    rw [after]
    exact .reset l (.inl ⟨rest, host⟩) (resetValues.1 { s with host := rest } l).1 rfl
  | cut w p n l rest _ host after =>
    rw [after, issueThenReset_eq]
    exact .reset l (.inr ⟨w, p, n, rest, host⟩) (resetValues.1 { s with host := rest } l).1 rfl
  | waits _ _ after => rw [after]; exact .kept {} hs
  | command w p rest i _ _ _ after => exact .command i (issue { s with host := rest } w p) {} after
  | illegal w p rest e idle _ _ after => rw [after]; exact .kept {} (.inl idle.1)
  | readKeyout rest idle _ after => rw [after, hostReadKeyout]; split <;> exact .kept {} (.inl idle.1)
  | writeKeyout v rest idle _ after => rw [after]; exact .kept {} (.inl idle.1)
  | readPressed rest idle _ after => rw [after, hostReadPressed]; split <;> exact .kept {} (.inl idle.1)
  | entry w i fault _ seq => exact absurd seq (hentry w fault)
  | entryIllegal w e fault _ seq => exact absurd seq (hentry w fault)
  | resumes w ops fault _ seq after =>
    obtain ⟨hkept, hseq⟩ := waitLoop_resume fault seq hs
    rw [after]
    exact .kept hkept hseq

/-! ## The invariant (R15, R78, R83, R101, R105, R163) -/

/-- The `GPIO_RESET` values fit `PORT_WIDTH` bits (R5). -/
def ResetPortsFit (p : Params) : Prop :=
  FitsWidth p.portWidth p.gpioKR ∧ FitsWidth p.portWidth p.gpioKC ∧ FitsWidth p.portWidth p.gpioDD ∧
  FitsWidth p.portWidth p.gpioDC

/-- A reset state has the invariant: no unit is READY, and every register is at its `GPIO_RESET` value. -/
theorem inv_of_atReset {t : State} {p : Params} {l : Option Byte} (h : AtReset t p l) (hp : t.params = p)
    (hfit : ResetPortsFit p) : Inv t := by
  obtain ⟨hkp, hdisp, _, _, _, _, hseq, _, _, _, hkr, hkc, hdd, hdc⟩ := h
  have hports : PortsFit t := by
    unfold PortsFit
    rw [hkr, hkc, hdd, hdc, hp]
    exact ⟨hfit, hfit⟩
  exact (inv_iff t).mpr ⟨⟨hports, fun hr => UnitState.noConfusion (hkp.symm.trans hr),
    fun hr => UnitState.noConfusion (hdisp.symm.trans hr)⟩, .inl hseq⟩

/-- Settles O3: the reset state with the default parameters, whose `GPIO_RESET` values are all zeros. -/
theorem resetHasInvariant : Obligations.ResetHasInvariant :=
  inv_of_atReset resetValues.2 rfl (by unfold ResetPortsFit FitsWidth; decide)

/-- Settles O4, by what a step does to the units: a reset makes them UNINIT, a command keeps what the invariant asks of
each, every other step leaves them alone. -/
theorem stepKeepsInvariant : Obligations.StepKeepsInvariant := by
  intro s t hs h
  obtain ⟨hunits, hseq⟩ := (inv_iff s).mp hs
  cases step_units hseq h with
  | reset l _ after params => exact inv_of_atReset after params hunits.fit.2
  | kept units seq => exact (inv_iff t).mpr ⟨hunits.of_kept units, seq⟩
  | command i u units run => exact (inv_iff t).mpr ⟨exec_unitsOk (hunits.of_kept units) run, exec_seqOk run⟩

/-! ## Configuration (R21, R23, R25, R26) -/

/-- A READY keypad keeps its tables along every command: only a KP_INIT of an UNINIT one stores them. -/
theorem exec_kpReady {i : Instr} {s t : State} (hs : s.kpState = .ready) (h : exec i s = .next t) :
    t.kpState = .ready ∧ t.kpCfg = s.kpCfg := by
  rcases exec_cases h with ⟨code, _, rfl⟩ | ⟨hc, _⟩
  · exact ⟨hs, rfl⟩
  · cases hk : isKeypad i with
    | false =>
      obtain ⟨_, _, hcfg, hstate, _⟩ := exec_display_frame hk h
      exact ⟨hstate.trans hs, hcfg⟩
    | true =>
      cases i with
      | kpInit cfg => cases hs.symm.trans (checkOf_kpInit_none.mp hc).1
      | kpRead =>
        obtain ⟨_, _, hcfg, hstate, _⟩ := kpRead_frame h
        exact ⟨hstate.trans hs, hcfg⟩
      | kpDetect col =>
        obtain ⟨_, _, hcfg, hstate, _⟩ := kpDetect_frame h
        exact ⟨hstate.trans hs, hcfg⟩
      | _ => cases hk

/-- A READY display keeps its tables along every command: only a DISP_INIT of an UNINIT one stores them. -/
theorem exec_dispReady {i : Instr} {s t : State} (hs : s.dispState = .ready) (h : exec i s = .next t) :
    t.dispState = .ready ∧ t.dispCfg = s.dispCfg := by
  cases hk : isKeypad i with
  | true =>
    obtain ⟨_, _, hcfg, hstate, _⟩ := exec_keypad_frame hk h
    exact ⟨hstate.trans hs, hcfg⟩
  | false =>
    cases hd : isDispInit i with
    | false =>
      rcases exec_displaySent hk hd h with ⟨code, rfl⟩ | hsent
      · exact ⟨hs, rfl⟩
      · exact ⟨hsent.config.2.trans hs, hsent.config.1⟩
    | true =>
      cases i with
      | dispInit cfg =>
        rcases exec_cases h with ⟨code, _, rfl⟩ | ⟨hc, _⟩
        · exact ⟨hs, rfl⟩
        · cases hs.symm.trans (checkOf_dispInit_none.mp hc).1
      | _ => cases hd

/-- Settles O13: by what a step does to the units, as O4. -/
theorem configurationIsImmutable : Obligations.ConfigurationIsImmutable := by
  intro s t hs hreset hcut h
  cases step_units hs.seq h with
  | reset l host =>
    rcases host with ⟨rest, host⟩ | ⟨w, p, n, rest, host⟩
    · exact absurd host (hreset l rest)
    · exact absurd host (hcut w p n l rest)
  | kept units =>
    exact ⟨fun hr => ⟨units.kpState.trans hr, units.keypad.cfg⟩,
      fun hr => ⟨units.dispState.trans hr, units.display.cfg⟩⟩
  | command i u units run =>
    refine ⟨fun hr => ?_, fun hr => ?_⟩
    · obtain ⟨hready, hcfg⟩ := exec_kpReady (units.kpState.trans hr) run
      exact ⟨hready, hcfg.trans units.keypad.cfg⟩
    · obtain ⟨hready, hcfg⟩ := exec_dispReady (units.dispState.trans hr) run
      exact ⟨hready, hcfg.trans units.display.cfg⟩

end Sys2Proof.Machine
end

section
/-! PROOFS. The memory statements (20_memory.md): the host's accesses between commands, and what a sample changes. -/

namespace Sys2Proof.Machine

/-! ## The host between commands (R55, R175) -/

/-- An idle, healthy KDB serves the next action on the host's list, whichever it is. -/
theorem step_hostAction {s : State} {a : HostAction} {rest : List HostAction} (ha : AcceptsCommand s)
    (hh : s.host = a :: rest) : step s = hostAct a { s with host := rest } := by
  obtain ⟨hq, hf, hr⟩ := ha
  by_cases hreset : ∃ l, a = .reset l
  · obtain ⟨l, rfl⟩ := hreset
    simp only [step, machineStep, hh, hostAct]
  · have hno : NoReset s := fun l more h => hreset ⟨l, (List.cons.inj (hh.symm.trans h)).1⟩
    rw [step_idle hq hf hr hno, idleStep, hh]

theorem step_nothingToDo {s : State} (ha : AcceptsCommand s) (hh : s.host = []) : step s = .next s := by
  obtain ⟨hq, hf, hr⟩ := ha
  rw [step_idle hq hf hr (by simp [NoReset, hh]), idleStep, hh]

theorem hostReadKeyout_some {s : State} {v : Byte} (h : s.keyout = some v) :
    hostReadKeyout s = { s with hostLog := s.hostLog ++ [.keyout v] } := by
  simp only [hostReadKeyout, h]

theorem hostReadKeyout_none {s : State} (h : s.keyout = none) :
    hostReadKeyout s = raiseFault s .keyoutUnwritten none := by
  simp only [hostReadKeyout, h]

theorem hostReadPressed_some {s : State} {v : Bool} (h : s.pressed = some v) :
    hostReadPressed s = { s with hostLog := s.hostLog ++ [.pressed v] } := by
  simp only [hostReadPressed, h]

theorem hostReadPressed_none {s : State} (h : s.pressed = none) :
    hostReadPressed s = raiseFault s .pressedUnwritten none := by
  simp only [hostReadPressed, h]

/-- Settles O9: the step is the host's action on the state with that action off the list; a read then goes by whether
its item is written. -/
theorem hostAccessBetweenCommands : Obligations.HostAccessBetweenCommands := by
  intro s rest ha
  refine ⟨fun v hh hv => ?readKeyout, fun hh hv => ?keyoutUnwritten, fun v hh => step_hostAction ha hh,
    fun v hh hv => ?readPressed, fun hh hv => ?pressedUnwritten, fun hh => step_hostAction ha hh, step_nothingToDo ha⟩
  case readKeyout =>
    exact (step_hostAction ha hh).trans (congrArg _ (hostReadKeyout_some (s := { s with host := rest }) hv))
  case keyoutUnwritten =>
    exact (step_hostAction ha hh).trans (congrArg _ (hostReadKeyout_none (s := { s with host := rest }) hv))
  case readPressed =>
    exact (step_hostAction ha hh).trans (congrArg _ (hostReadPressed_some (s := { s with host := rest }) hv))
  case pressedUnwritten =>
    exact (step_hostAction ha hh).trans (congrArg _ (hostReadPressed_none (s := { s with host := rest }) hv))

/-! ## What a sample changes (R45) -/

/-- A script of draws gives its next value, and the rest is left for the later samples. -/
theorem drawSample_draws {s : State} {v : Level} {vs : List Level} (h : s.env = .draws (v :: vs)) (c : Fin 6) :
    drawSample s c = (v, .draws vs, s.drawCount) := by
  simp only [drawSample, h]

/-- Settles O25: `afterSample` writes the environment and emits one event; what the environment answers is
`drawSample`'s. -/
theorem sampleChangesNoKdbState : Obligations.SampleChangesNoKdbState := by
  refine fun s c => ⟨rfl, fun v vs henv => ⟨?_, ?_⟩⟩
  · rw [sampleValue, drawSample_draws henv]
  · rw [afterSample_env, drawSample_draws henv]

end Sys2Proof.Machine
end

section
/-! PROOFS. The encoding statements (30_encoding.md): the decoder and the encoder are inverse to one another, each kind
of illegal word is refused with its reason, and what the commands do whose operand bytes go to the bus. -/

namespace Sys2Proof.Machine

/-! ## What decodes is encoded (R59 to R64) -/

/-- Settles O15: the word's row, its unused fields and its payload's kind pass the checks of R62, and its fields and
payload build the command again. -/
theorem decodeOfEncode : Obligations.DecodeOfEncode := fun _ hw => decode_encode hw

/-- What a word and payload that decode have passed: the checks of R62 in their order. -/
theorem decode_eq_ok {w : Word} {p : Payload} {i : Instr} (h : decode w p = .ok i) :
    ∃ op, opcodeAt (fieldUnit w) (fieldOp w) = .ok op ∧ unusedNonzero op w = false ∧
      payloadKindOf p = some (opcodeKind op) ∧ buildInstr op w p = some i := by
  unfold decode at h
  split at h
  · cases h
  next op hop =>
    split at h
    · cases h
    next hunused =>
      split at h
      · cases h
      next hkind =>
        split at h
        next j hj =>
          cases h
          exact ⟨op, hop, by simpa using hunused, by simpa using hkind, hj⟩
        · cases h

/-- The command built for a row stands in that row, carries the payload, and its word holds the fields the row uses. -/
theorem buildInstr_eq_some {op : Opcode} {w : Word} {p : Payload} {i : Instr} (h : buildInstr op w p = some i) :
    opcodeOf i = op ∧ payloadOf i = p ∧
      encode i = wordOf op (if usesRow op then fieldRow w else 0) (if usesCol op then fieldCol w else 0)
        (if usesData op then fieldData w else 0) := by
  unfold buildInstr at h
  split at h <;> cases h <;> exact ⟨rfl, rfl, rfl⟩

theorem ite_used {used : Bool} {x : Byte} (h : used = true ∨ x = 0) : (if used then x else 0) = x := by
  rcases h with rfl | rfl
  · rfl
  · exact ite_self 0

/-- A word that passes the check of R59 has its own value in a used field and zero in an unused one. -/
theorem fields_of_unusedNonzero_eq_false {op : Opcode} {w : Word} (h : unusedNonzero op w = false) :
    (if usesRow op then fieldRow w else 0) = fieldRow w ∧ (if usesCol op then fieldCol w else 0) = fieldCol w ∧
      (if usesData op then fieldData w else 0) = fieldData w := by
  simp only [unusedNonzero, Bool.or_eq_false_iff, Bool.and_eq_false_iff, Bool.not_eq_eq_eq_not, Bool.not_false,
    bne_eq_false_iff_eq] at h
  obtain ⟨⟨hrow, hcol⟩, hdata⟩ := h
  exact ⟨ite_used hrow, ite_used hcol, ite_used hdata⟩

/-- The word of the row at a word's UNIT and OP, with the word's operand fields, is that word. -/
theorem wordOf_fields {w : Word} {op : Opcode} (h : opcodeAt (fieldUnit w) (fieldOp w) = .ok op) :
    wordOf op (fieldRow w) (fieldCol w) (fieldData w) = w := by
  rw [wordOf, opcodeAt_code _ _ _ h, packWord_fields]

theorem payloadKindOf_value {v : Int} : payloadKindOf (.value v) = some .value ↔ inNumRange v = true := by
  simp [payloadKindOf]

/-- A command whose payload is of its row's kind is well formed: a VALUE of that kind is in range (R64). -/
theorem wellFormed_of_payloadKindOf {i : Instr} (h : payloadKindOf (payloadOf i) = some (opcodeKind (opcodeOf i))) :
    i.wellFormed = true := by
  cases i with
  | dispPrintNumber v => exact payloadKindOf_value.mp h
  | dispPrintNumberTo row col v => exact payloadKindOf_value.mp h
  | _ => rfl

/-- Settles O16: the command is built from the row at the word's UNIT and OP, whose other fields are zero, so that its
word has every field of the one decoded. -/
theorem onlyEncodedWordsDecode : Obligations.OnlyEncodedWordsDecode := by
  intro w p i h
  obtain ⟨op, hop, hunused, hkind, hbuild⟩ := decode_eq_ok h
  obtain ⟨rfl, rfl, hword⟩ := buildInstr_eq_some hbuild
  obtain ⟨hrow, hcol, hdata⟩ := fields_of_unusedNonzero_eq_false hunused
  rw [hrow, hcol, hdata, wordOf_fields hop] at hword
  exact ⟨wellFormed_of_payloadKindOf hkind, hword, rfl⟩

/-! ## What does not decode (R62, R63, R162) -/

theorem toNat_fieldUnit (w : Word) : (fieldUnit w).toNat = w.toNat / 2 ^ 28 := by
  rw [fieldUnit, BitVec.extractLsb'_toNat, Nat.shiftRight_eq_div_pow]
  have := w.isLt
  omega

theorem toNat_fieldOp (w : Word) : (fieldOp w).toNat = w.toNat / 2 ^ 24 % 16 := by
  rw [fieldOp, BitVec.extractLsb'_toNat, Nat.shiftRight_eq_div_pow]

theorem opcodeAt_illegalUnit {u : BitVec 4} (o : BitVec 4) (h1 : u.toNat ≠ 1) (h2 : u.toNat ≠ 2) :
    opcodeAt u o = .error .illegalUnit := by
  unfold opcodeAt
  split
  · exact absurd ‹_› h1
  · exact absurd ‹_› h2
  · rfl

theorem opcodeAt_illegalOp_keypad {u o : BitVec 4} (hu : u.toNat = 1) (ho : 3 ≤ o.toNat) :
    opcodeAt u o = .error .illegalOp := by
  simp only [opcodeAt, hu]
  split
  case h_4 => rfl
  all_goals omega

theorem opcodeAt_illegalOp_display {u o : BitVec 4} (hu : u.toNat = 2) (ho : 0xB ≤ o.toNat) :
    opcodeAt u o = .error .illegalOp := by
  simp only [opcodeAt, hu]
  split
  case h_12 => rfl
  all_goals omega

theorem decode_of_opcodeAt_error {w : Word} {e : Illegal} (h : opcodeAt (fieldUnit w) (fieldOp w) = .error e)
    (p : Payload) : decode w p = .error e := by
  simp only [decode, h]

theorem decode_of_unusedNonzero {w : Word} {op : Opcode} (hop : opcodeAt (fieldUnit w) (fieldOp w) = .ok op)
    (h : unusedNonzero op w = true) (p : Payload) : decode w p = .error .nonzeroUnusedField := by
  simp only [decode, hop, h, if_true]

theorem unusedNonzero_eq_true {op : Opcode} {w : Word} : unusedNonzero op w = true ↔
    (usesRow op = false ∧ fieldRow w ≠ 0) ∨ (usesCol op = false ∧ fieldCol w ≠ 0) ∨
      (usesData op = false ∧ fieldData w ≠ 0) := by
  simp only [unusedNonzero, Bool.or_eq_true, Bool.and_eq_true, Bool.not_eq_true', bne_iff_ne, or_assoc]

theorem decode_encode_wrongKind {i : Instr} {p : Payload} (h : payloadKindOf p ≠ some (opcodeKind (opcodeOf i))) :
    decode (encode i) p = .error .payloadKind := by
  simp [decode, opcodeAt_encode, unusedNonzero_encode, h]

/-- Settles O17: the check of R62 that meets the word, UNIT, OP, unused fields or payload kind, gives the reason. -/
theorem reservedEncodingsRefused : Obligations.ReservedEncodingsRefused := by
  simp only [Obligations.ReservedEncodingsRefused, ← toNat_fieldUnit, ← toNat_fieldOp]
  exact ⟨fun w p h1 h2 => decode_of_opcodeAt_error (opcodeAt_illegalUnit _ h1 h2) p,
    fun w p hu ho => decode_of_opcodeAt_error (opcodeAt_illegalOp_keypad hu ho) p,
    fun w p hu ho => decode_of_opcodeAt_error (opcodeAt_illegalOp_display hu ho) p,
    fun w p op hop h => decode_of_unusedNonzero hop (unusedNonzero_eq_true.mpr h) p,
    fun i p h => decode_encode_wrongKind h⟩

/-- Settles O14: the decoder evaluated at each word. -/
theorem tableWordsDecode : Obligations.TableWordsDecode :=
  ⟨rfl, rfl, rfl, rfl, rfl, rfl, rfl, rfl, rfl, rfl, rfl⟩

/-! ## The step that meets an illegal word (R162) -/

theorem startCommand_error {w : Word} {p : Payload} {e : Illegal} (h : decode w p = .error e) (s : State) :
    startCommand s w p = .next (refuse s e) := by
  simp only [startCommand, h]

theorem healthyStep_of_refused {s : State} {e : Illegal} (hf : s.fault = none) (hr : s.refused = some e) :
    healthyStep s = .refused (.commandRefused e) := by
  simp only [healthyStep, hf, hr]

/-- Settles O6: the step starts the issued command, which is refused as it decodes; a refused KDB without a pending reset
refuses the step. -/
theorem illegalWordIsRefused : Obligations.IllegalWordIsRefused := fun _ _ _ _ _ ha hh hd =>
  ⟨(step_issue ha hh).trans (startCommand_error hd _),
    fun _ hf hr hh => (step_noReset hh).trans (healthyStep_of_refused hf hr)⟩

/-! ## Bytes on the bus and their classes (R68, R69, R74) -/

/-- Settles O18: the bound on the address is the model's own, read as a number. -/
theorem pseudoInstructionsExpand : Obligations.PseudoInstructionsExpand := by
  refine ⟨fun a h => if_pos (BitVec.lt_def.mpr h), fun a h => if_neg fun hlt => ?_, rfl, rfl, rfl, rfl⟩
  exact absurd (BitVec.lt_def.mp hlt) (Nat.not_lt.mpr h)

/-- A byte with bit 7 set is a SET_DDRAM_ADDR (R68). -/
theorem busClass_of_bit7 {b : Byte} (h : b.getLsbD 7 = true) : busClass b = .setDdramAddr (b.extractLsb' 0 7) :=
  if_pos h

/-- For a column that fits a byte, the address is the OR of the row's base and the column (R71, R120). -/
theorem addressByte_of_lt (p : Params) (row : Fin 4) {col : Nat} (h : col < 256) :
    addressByte p row col = p.rowBase[row] ||| BitVec.ofNat 8 col :=
  if_pos h

/-- Settles O53: the bootstrap's bytes one by one; an address byte keeps bit 7 of its row's base. -/
theorem ownBytesHaveTheirClasses : Obligations.OwnBytesHaveTheirClasses := by
  refine ⟨by decide, by decide, by decide, fun row col => ⟨_, busClass_of_bit7 ?_⟩⟩
  have hbase : ∀ row : Fin 4, (Params.default.rowBase[row]).getLsbD 7 = true := by decide
  rw [addressByte_of_lt _ _ (by omega), BitVec.getLsbD_or, hbase, Bool.true_or]

/-! ## Commands that are one transfer (R103, R108, R110, R120, R121) -/

/-- The state after a display command that passes its checks. -/
def displayDone (i : Instr) (s : State) : State :=
  complete (runStraight (programOf i s.params) { s with payload := payloadOf i })

/-- On a READY display a command other than DISP_INIT completes. -/
theorem exec_dispReady_eq {i : Instr} (hk : isKeypad i = false) (hd : isDispInit i = false) {s : State}
    (hs : s.dispState = .ready) : exec i s = .next (displayDone i s) := by
  rw [exec_of_check_none ((checkOf_display_none hk hd).mpr hs), runOps_straight _ _ _ (programOf_straight hk s.params)]
  rfl

/-- A command whose micro-steps keep the loop register `i` keeps it. -/
theorem displayDone_i {i : Instr} {s : State} (h : ∀ u, (runStraight (programOf i s.params) u).i = u.i) :
    (displayDone i s).i = s.i :=
  h _

/-- What a display command without delays leaves: the events of the bytes it sends, and their frame. -/
theorem displayDone_sends {i : Instr} (hk : isKeypad i = false) (hd : isDispInit i = false) (hc : i ≠ .dispClear)
    (s : State) : (displayDone i s).trace = s.trace ++ sendEvents s (bytesSent s.params i) ∧
      DisplaySent s (displayDone i s) (bytesSent s.params i) := by
  obtain ⟨hsent, htrace⟩ := (programOf_sends hk hd hc s.params).2 { s with payload := payloadOf i } rfl rfl
  exact ⟨htrace, hsent.complete⟩

/-- As `displayDone_sends`, for a command that sends one byte. -/
theorem displayDone_sends_one {i : Instr} (hk : isKeypad i = false) (hd : isDispInit i = false) (hc : i ≠ .dispClear)
    {s : State} {rs : Level} {b : Byte} (hb : bytesSent s.params i = [(rs, b)]) :
    (displayDone i s).trace = s.trace ++ xferEvents s rs b ∧ DisplaySent s (displayDone i s) [(rs, b)] := by
  have h := displayDone_sends hk hd hc s
  rwa [hb, sendEvents, List.flatMap_singleton] at h

/-- Settles O36: the command is one transfer with RS low. -/
theorem dispSendCommandResult : Obligations.DispSendCommandResult := by
  intro s code hs
  obtain ⟨htrace, hsent⟩ := displayDone_sends_one (i := .dispSendCommand code) rfl rfl nofun (s := s) rfl
  exact ⟨_, exec_dispReady_eq rfl rfl hs, htrace, hsent, displayDone_i fun u => runStraight_xfer_i u false code⟩

/-- Settles O37: the command is one transfer with RS high. -/
theorem dispPrintCharResult : Obligations.DispPrintCharResult := by
  intro s code hs
  obtain ⟨htrace, hsent⟩ := displayDone_sends_one (i := .dispPrintChar code) rfl rfl nofun (s := s) rfl
  exact ⟨_, exec_dispReady_eq rfl rfl hs, htrace, hsent, displayDone_i fun u => runStraight_xfer_i u true code⟩

theorem runStraight_position_i (p : Params) (row col : Nat) (s : State) :
    (runStraight (positionOps p row col) s).i = s.i := by
  unfold positionOps
  split
  · exact runStraight_xfer_i s false _
  · rfl

/-- Position in range, for operand fields: the one transfer of R120. -/
theorem positionBytes_inRange {p : Params} {row col : Byte} (h : row.toNat < 4) (hc : col.toNat < p.dispCols) :
    positionBytes p row.toNat col.toNat = [(false, p.rowBase[row.toNat] ||| col)] := by
  rw [positionBytes, dif_pos h, if_pos hc, addressByte_of_lt _ _ col.isLt, BitVec.ofNat_toNat, BitVec.setWidth_eq]
  rfl

/-- Position out of range does nothing (R121). -/
theorem positionOps_outOfRange {p : Params} {row col : Nat} (h : 4 ≤ row ∨ p.dispCols ≤ col) :
    positionOps p row col = [] :=
  dif_neg (by simp only [Config.dispRows]; omega)

/-- Settles O40: in range the command is the transfer of Position, out of range it has no micro-step. -/
theorem dispMoveCursorResult : Obligations.DispMoveCursorResult := by
  intro s row col hs
  refine ⟨_, exec_dispReady_eq rfl rfl hs, displayDone_i (runStraight_position_i _ _ _), fun h hc => ?inRange,
    fun h => ?outOfRange⟩
  case inRange => exact displayDone_sends_one (i := .dispMoveCursor row col) rfl rfl nofun (positionBytes_inRange h hc)
  case outOfRange =>
    have hops : programOf (.dispMoveCursor row col) s.params = [] := positionOps_outOfRange h
    rw [displayDone, hops]
    rfl

end Sys2Proof.Machine
end

section
/-! PROOFS. The keypad statements (40_keypad.md): when the keypad commands fault, what a column sample reads, the three
ends of KP_READ, the wait loop, and KP_DETECT. -/

namespace Sys2Proof.Machine

/-! ## Faults (R82, R90, R91, R165) -/

/-- Settles O19: each fault is the first failing check of its command. -/
theorem keypadFaults : Obligations.KeypadFaults := by
  intro s
  refine ⟨fun hs => ?readNotInit, fun col hs => ?detectNotInit, fun col hs hcol => ?argRange, fun cfg hs => ?doubleInit,
    fun cfg hs hv => ?configInvalid⟩
  case readNotInit =>
    have hc : checkOf .kpRead s = some .kpNotInit := by simp [checkOf, checkKpReady, hs]
    exact exec_of_check_some hc
  case detectNotInit =>
    have hc : checkOf (.kpDetect col) s = some .kpNotInit := by simp [checkOf, checkKpDetect, hs]
    exact exec_of_check_some hc
  case argRange =>
    have hlt : 5 < col.toNat := hcol
    have hc : checkOf (.kpDetect col) s = some .kpArgRange := by simp [checkOf, checkKpDetect, hs, hlt]
    exact exec_of_check_some hc
  case doubleInit =>
    have hc : checkOf (.kpInit cfg) s = some .kpDoubleInit := by simp [checkOf, checkKpInit, hs]
    exact exec_of_check_some hc
  case configInvalid =>
    have hc : checkOf (.kpInit cfg) s = some .kpConfigInvalid := by simp [checkOf, checkKpInit, hs, hv]
    exact exec_of_check_some hc

/-! ## A column sample under ENV_IDEAL (R76, R84) -/

/-- A pulled-up input column is held high but by a closed key of its own on an active row. -/
theorem idealLevel_of_pulledUp {s : State} {c : Fin 6} (hdir : portBit s .kc .dir (colPin s c) = false)
    (hpull : portBit s .kc .pull (colPin s c) = true) (closed : List Key) :
    idealLevel s closed c = some (!closed.any fun key => key.c == c && rowActive s key.r) := by
  simp [idealLevel, hdir, hpull]

/-- A sample takes the next set of CLOSED, and the level it gives where there is one. -/
theorem sampleValue_ideal {s : State} {upcoming : List (List Key)} {closed : List Key} {c : Fin 6} {v : Level}
    (henv : s.env = .ideal upcoming closed) (hv : idealLevel s (upcoming.headD closed) c = some v) :
    sampleValue s c = v := by
  simp only [sampleValue, drawSample, henv, hv]

theorem rowActive_iff {s : State} {r : Fin 4} :
    rowActive s r = true ↔ portBit s .kr .dir (rowPin s r) = true ∧ portBit s .kr .out (rowPin s r) = false := by
  simp [rowActive]

/-- Settles O24: the sample is the ideal level of the set CLOSED it takes. -/
theorem idealColumnSample : Obligations.IdealColumnSample := by
  intro s upcoming closed c henv hdir hpull
  rw [sampleValue_ideal henv (idealLevel_of_pulledUp hdir hpull _)]
  simp only [Bool.not_eq_false', List.any_eq_true, Bool.and_eq_true, beq_iff_eq, rowActive_iff]
  constructor
  · rintro ⟨⟨r, _⟩, hmem, rfl, hrow⟩
    exact ⟨r, hmem, hrow⟩
  · rintro ⟨r, hmem, hrow⟩
    exact ⟨⟨r, c⟩, hmem, rfl, hrow⟩

/-! ## The first closed sample of a scan (R79, R91) -/

/-- The state of KP_READ after the sample of key (r, c), every sample before it open. -/
def keySampled (s : State) (r : Fin 4) (c : Fin 6) : State := { afterSample (beforeKey s r c) c with c := c }

/-- The first sample of the scan that reads closed is that of key (r, c). -/
def FirstClosedSample (s : State) (r : Fin 4) (c : Fin 6) : Prop :=
  OpenBefore s r c ∧ sampleValue (beforeKey s r c) c = false

theorem scanKept_keySampled (s : State) (r : Fin 4) (c : Fin 6) : ScanKept s (keySampled s r c) :=
  (scanKept_beforeKey s r c).trans ⟨rfl, fun _ _ _ => rfl⟩

/-- KP_READ reads the map at the loop registers, which hold the key's row and column. -/
theorem keySymbol_keySampled (s : State) (r : Fin 4) (c : Fin 6) :
    keySymbol (keySampled s r c) (keySampled s r c).r (keySampled s r c).c = keySymbol s r c := by
  have hr : (keySampled s r c).r = r := beforeKey_r s r c
  rw [(scanKept_keySampled s r c).keySymbol, hr]
  rfl

theorem keySampled_trace {s : State} {r : Fin 4} {c : Fin 6} (h : FirstClosedSample s r c) :
    (keySampled s r c).trace = s.trace ++ eventsBefore s r c ++ [.s .kc (colPin s c) false] := by
  obtain ⟨hbefore, hclosed⟩ := h
  show (afterSample (beforeKey s r c) c).trace = _
  rw [afterSample_trace, hclosed, beforeKey_trace s r c hbefore, (scanKept_beforeKey s r c).colPin]

/-- A script whose first closed sample is that of key (r, c). -/
theorem firstClosedSample_draws {s : State} {r : Fin 4} {c : Fin 6} {more : List Level}
    (h : s.env = .draws (List.replicate (6 * r.val + c.val) true ++ false :: more)) :
    FirstClosedSample s r c ∧ (keySampled s r c).env = .draws more := by
  obtain ⟨hbefore, henv, _⟩ := openBefore_draws s r c _ h
  have hdraw := drawSample_draws henv c
  refine ⟨⟨hbefore, ?_⟩, ?_⟩
  · rw [sampleValue, hdraw]
  · show (afterSample (beforeKey s r c) c).env = _
    rw [afterSample_env, hdraw]

/-! ## The ends of KP_READ (R91, R94, R95) -/

/-- What every KP_READ of a READY keypad leaves, row `r` the last one it selected (R97): the tail of its statements. -/
def ScanLeaves (s t : State) (r : Fin 4) : Prop :=
  t.kpState = .ready ∧ t.kpCfg = s.kpCfg ∧ t.kc = s.kc ∧
  (RowPinsDistinct s → ∀ k : Fin 4, portBit t .kr .out (rowPin s k) = decide (k ≠ r)) ∧
  (∀ (reg : Reg) (n : Pin), (reg ≠ .out ∨ ∀ k : Fin 4, n ≠ rowPin s k) → portBit t .kr reg n = portBit s .kr reg n) ∧
  DisplayKept s t ∧ RecordsKept s t

theorem scanLeaves_of_scanKept {s t : State} {r : Fin 4} (h : ScanKept s t) (hs : s.kpState = .ready)
    (hrow : RowPinsDistinct s → ∀ k : Fin 4, portBit t .kr .out (rowPin s k) = decide (k ≠ r)) : ScanLeaves s t r :=
  ⟨h.kpState.trans hs, h.kpCfg, h.kc, hrow, h.bits, h.display, h.records⟩

theorem openRows_leaves {s : State} (hs : s.kpState = .ready) :
    ScanLeaves s ((List.finRange 4).foldl openRow s) 3 :=
  scanLeaves_of_scanKept (scanKept_openRows _ s) hs (openRows_rows s)

theorem keySampled_leaves {s : State} (r : Fin 4) (c : Fin 6) (hs : s.kpState = .ready) :
    ScanLeaves s (keySampled s r c) r :=
  scanLeaves_of_scanKept (scanKept_keySampled s r c) hs (beforeKey_rows s r c)

/-- The payload in progress is no part of what a scan leaves. -/
theorem ScanLeaves.of_payload {s t : State} {p : Payload} {r : Fin 4} (h : ScanLeaves { s with payload := p } t r) :
    ScanLeaves s t r := h

/-- Neither are the events and the environment. -/
theorem ScanLeaves.of_events {s t : State} {r : Fin 4} (h : ScanLeaves s t r) (events : List Event) (env : Env) :
    ScanLeaves s { t with trace := events, env := env } r := h

theorem ScanLeaves.complete {s t : State} {r : Fin 4} (h : ScanLeaves s t r) : ScanLeaves s (complete t) r := h

/-- The end of a KP_READ whose samples all read open. -/
def kpReadNoKeyEnd (s : State) : State := complete ((List.finRange 4).foldl openRow s)

/-- A completed KP_READ that reported key (r, c), from the state `u` of its last sample. -/
def keyReported (s u : State) (r : Fin 4) (c : Fin 6) : State :=
  complete (writeKeyout { u with pressed := some true } (keySymbol s r c))

theorem ScanLeaves.keyReported {s t : State} {r : Fin 4} (h : ScanLeaves s t r) (u : State) (c : Fin 6) :
    ScanLeaves s (keyReported u t r c) r := h

/-- A KP_READ of BLOCKING_RELEASE mode in the wait loop of key (r, c). -/
def keyHeld (s : State) (r : Fin 4) (c : Fin 6) : State :=
  { keySampled s r c with seq := .run (encode .kpRead) (.at (.waitRelease c :: .reportKey :: kpReadAfter r c)) }

theorem ScanKept.keyout {s t : State} (h : ScanKept s t) : t.keyout = s.keyout := by rw [h.same]

theorem kpReadNoKeyEnd_keyout (s : State) : (kpReadNoKeyEnd s).keyout = s.keyout := by
  rw [kpReadNoKeyEnd, complete_keyout, (scanKept_openRows _ s).keyout]

theorem kpReadNoKeyEnd_pressed (s : State) : (kpReadNoKeyEnd s).pressed = some false := by
  rw [kpReadNoKeyEnd, complete_pressed, openRows_last, openRow_pressed]

theorem kpReadNoKeyEnd_trace {s : State} (h : AllRowsOpen s (List.finRange 4)) :
    (kpReadNoKeyEnd s).trace = s.trace ++ openRowsEvents s 4 := by
  rw [kpReadNoKeyEnd, complete_trace, openRows_trace _ s h]
  rfl

theorem keyReported_trace (s u : State) (r : Fin 4) (c : Fin 6) :
    (keyReported s u r c).trace = u.trace ++ [.k (keySymbol s r c)] := rfl

/-- The trace of a KP_READ that reports key (r, c) at its first sample (R97). -/
theorem keyReported_keySampled_trace {s : State} {p : Payload} {r : Fin 4} {c : Fin 6}
    (h : FirstClosedSample { s with payload := p } r c) :
    (keyReported s (keySampled { s with payload := p } r c) r c).trace =
      s.trace ++ eventsBefore s r c ++ [.s .kc (colPin s c) false, .k (keySymbol s r c)] := by
  rw [keyReported_trace, keySampled_trace h, List.append_assoc]
  rfl

theorem keyHeld_keyout (s : State) (r : Fin 4) (c : Fin 6) : (keyHeld s r c).keyout = s.keyout :=
  (scanKept_keySampled s r c).keyout

theorem keyHeld_waiting (s : State) (r : Fin 4) (c : Fin 6) : Waiting (keyHeld s r c) (encode .kpRead) c := ⟨_, rfl⟩

/-- A READY keypad runs KP_READ's micro-steps. -/
theorem exec_kpRead {s : State} (hs : s.kpState = .ready) :
    exec .kpRead s = .next (runOps (encode .kpRead) kpReadOps { s with payload := .none }) :=
  exec_of_check_none (checkOf_kpRead_none.mpr hs)

theorem exec_kpRead_noKey {s : State} (hs : s.kpState = .ready)
    (h : AllRowsOpen { s with payload := .none } (List.finRange 4)) :
    exec .kpRead s = .next (kpReadNoKeyEnd { s with payload := .none }) := by
  have hrun := runOps_rows_open (encode .kpRead) (List.finRange 4) [] _ h
  rw [List.append_nil] at hrun
  rw [exec_kpRead hs, kpReadOps, hrun]
  rfl

theorem exec_kpRead_single {s : State} {r : Fin 4} {c : Fin 6} (hs : s.kpState = .ready)
    (hm : s.params.detectMode = .singleSample) (h : FirstClosedSample { s with payload := .none } r c) :
    exec .kpRead s = .next (keyReported s (keySampled { s with payload := .none } r c) r c) := by
  obtain ⟨hbefore, hclosed⟩ := h
  have hkept := scanKept_beforeKey { s with payload := .none } r c
  rw [exec_kpRead hs, runOps_beforeKey _ _ r c hbefore,
    runOps_column_single _ c _ _ ((congrArg Params.detectMode hkept.params).trans hm) hclosed, beforeKey_r, hkept.keySymbol]
  rfl

theorem exec_kpRead_blocking {s : State} {r : Fin 4} {c : Fin 6} (hs : s.kpState = .ready)
    (hm : s.params.detectMode = .blockingRelease) (h : FirstClosedSample { s with payload := .none } r c) :
    exec .kpRead s = .next (keyHeld { s with payload := .none } r c) := by
  obtain ⟨hbefore, hclosed⟩ := h
  have hkept := scanKept_beforeKey { s with payload := .none } r c
  rw [exec_kpRead hs, runOps_beforeKey _ _ r c hbefore,
    runOps_column_blocking _ c _ _ ((congrArg Params.detectMode hkept.params).trans hm) hclosed]
  rfl

/-- Settles O26: the script makes all 24 samples open. -/
theorem kpReadNoKey : Obligations.KpReadNoKey := by
  intro s rest hs henv
  obtain ⟨hopen, hrest, _⟩ := allRowsOpen_draws (List.finRange 4) { s with payload := .none } rest henv
  exact ⟨_, exec_kpRead_noKey hs hopen, ⟨rfl, rfl⟩, kpReadNoKeyEnd_keyout _, kpReadNoKeyEnd_pressed _,
    kpReadNoKeyEnd_trace hopen, hrest, (openRows_leaves (s := { s with payload := .none }) hs).of_payload.complete⟩

/-- Settles O27: the script's first closed sample is the key's, and the mode reports it at once. -/
theorem kpReadSingleSampleKey : Obligations.KpReadSingleSampleKey := by
  intro s r c rest hs hm henv
  obtain ⟨hfirst, hrest⟩ := firstClosedSample_draws (s := { s with payload := .none }) henv
  exact ⟨_, exec_kpRead_single hs hm hfirst, ⟨rfl, rfl⟩, rfl, rfl, keyReported_keySampled_trace hfirst, hrest,
    (keySampled_leaves (s := { s with payload := .none }) r c hs).of_payload.keyReported s c⟩

/-- Settles O29: the scan's samples are all open, or its first closed one is that of some key, which the mode reports
or waits for. -/
theorem kpReadOutcomes : Obligations.KpReadOutcomes := by
  intro s hs
  obtain ⟨t, ht⟩ := exec_next .kpRead s
  refine ⟨t, ht, exec_keypad_frame rfl ht, exec_records ht (checkOf_kpRead_none.mpr hs), exec_trace ht, ?_⟩
  rcases allRowsOpen_or_key { s with payload := .none } with hopen | ⟨r, c, hfirst⟩
  · cases ht.symm.trans (exec_kpRead_noKey hs hopen)
    exact .inl ⟨⟨rfl, rfl⟩, kpReadNoKeyEnd_keyout _, kpReadNoKeyEnd_pressed _⟩
  · cases hm : s.params.detectMode with
    | singleSample =>
      cases ht.symm.trans (exec_kpRead_single hs hm hfirst)
      exact .inr (.inl ⟨⟨rfl, rfl⟩, rfl, rfl, r, c, rfl, keyReported_keySampled_trace hfirst⟩)
    | blockingRelease =>
      cases ht.symm.trans (exec_kpRead_blocking hs hm hfirst)
      exact .inr (.inr ⟨rfl, keyHeld_keyout _ r c, r, c, keyHeld_waiting _ r c, keySampled_trace hfirst⟩)

/-! ## The wait loop of KP_READ (R88, R96) -/

/-- The first of the equal events of a wait is that of the sample which entered it. -/
theorem append_replicate_succ (trace : List Event) (e : Event) (n : Nat) :
    trace ++ [e] ++ List.replicate n e = trace ++ List.replicate (n + 1) e := by
  simp [List.replicate_succ]

/-- Key (r, c) held for `h` more samples, then released: KP_READ reports it. -/
theorem run_keyHeld {s : State} {r : Fin 4} {c : Fin 6} {h : Nat} {rest : List Level} (hf : s.fault = none)
    (hr : s.refused = none) (hh : s.host = [])
    (henv : (keySampled s r c).env = .draws (List.replicate h false ++ true :: rest)) :
    Host.Core.run core (h + 1) (keyHeld s r c) = Host.Outcome.next (keyReported s { keySampled s r c with
      trace := (keySampled s r c).trace ++ List.replicate h (.s .kc (colPin s c) false) ++ [.s .kc (colPin s c) true]
      env := .draws rest } r c) := by
  have hkept := scanKept_keySampled s r c
  obtain ⟨hfault, hrefused, _, hhost, _⟩ := hkept.records
  have hcol : colPin (keyHeld s r c) c = colPin s c := hkept.colPin c
  have hrun := run_wait (encode .kpRead) c _ rest h (keyHeld s r c) rfl (hfault.trans hf) (hrefused.trans hr)
    (hhost.trans hh) henv
  rw [runOps_report _ _ _ rfl, hcol] at hrun
  rw [hrun, keyReported, ← keySymbol_keySampled s r c]
  rfl

/-- Settles O28: the command enters the wait loop at the key's first sample, and leaves it at the one that reads open. -/
theorem kpReadBlockingKey : Obligations.KpReadBlockingKey := by
  intro s r c h rest hs hm hf hr hh henv
  rw [List.replicate_succ, List.cons_append] at henv
  obtain ⟨hfirst, hrest⟩ := firstClosedSample_draws (s := { s with payload := .none }) henv
  refine ⟨_, _, exec_kpRead_blocking hs hm hfirst, keyHeld_waiting _ r c, keyHeld_keyout _ r c,
    run_keyHeld hf hr hh hrest, ⟨rfl, rfl⟩, rfl, rfl, ?_, rfl,
    ((keySampled_leaves (s := { s with payload := .none }) r c hs).of_payload.of_events _ _).keyReported _ c⟩
  rw [keyReported_trace, keySampled_trace hfirst, append_replicate_succ, List.append_assoc]
  rfl

/-- Settles O34: the step is one closed sample of the wait loop. -/
theorem closedSampleKeepsWaiting : Obligations.ClosedSampleKeepsWaiting := by
  intro s w c more hq hf hr hh hv
  refine ⟨_, step_inProgress hq hf hr hh, ?_⟩
  rw [runOps_wait_closed w c more s hv, ← hq, afterSample, hv]
  rfl

/-! ## Scans under ENV_IDEAL with CLOSED constant (R93) -/

/-- A sample leaves the ideal environment and the rows as they were. -/
theorem IdealRow.afterSample {s : State} {closed : List Key} {r : Fin 4} (h : IdealRow s closed r) (c : Fin 6) :
    IdealRow (afterSample s c) closed r := by
  obtain ⟨_, hdraw⟩ := h.sample c
  exact ⟨h.setUp, by rw [afterSample_env, hdraw], h.only⟩

/-- Neither SEQ nor the loop register `c` plays a part in which row is active. -/
theorem IdealRow.of_sequencer {s : State} {closed : List Key} {r : Fin 4} (h : IdealRow s closed r) (q : Seq) (c : Fin 6) :
    IdealRow { s with seq := q, c := c } closed r := ⟨h.setUp, h.env, h.only⟩

/-- While the row of a closed key is scanned, its column reads closed (R84). -/
theorem IdealRow.sample_closed {s : State} {closed : List Key} {key : Key} (h : IdealRow s closed key.r)
    (hmem : key ∈ closed) : sampleValue s key.c = false := by
  obtain ⟨hv, _⟩ := h.sample key.c
  simp [hv, hmem]

theorem firstClosedSample_ideal {s : State} {closed : List Key} {key : Key} (hs : KpSetUp s)
    (henv : s.env = .ideal [] closed) (hf : FirstClosed closed key) :
    FirstClosedSample s key.r key.c ∧ IdealRow (keySampled s key.r key.c) closed key.r := by
  obtain ⟨hbefore, hideal, hclosed⟩ := firstClosed_ideal hs henv hf
  exact ⟨⟨hbefore, hclosed⟩, (hideal.afterSample key.c).of_sequencer _ key.c⟩

/-- Settles O30: the first closed sample is that of the least closed key; without one all samples read open. -/
theorem firstMatchUnderIdealEnvironment : Obligations.FirstMatchUnderIdealEnvironment := by
  refine ⟨fun s closed key hs hset hm henv hf => ?someKey, fun s hs hset henv => ?noKey⟩
  case someKey =>
    obtain ⟨hfirst, _⟩ := firstClosedSample_ideal (s := { s with payload := .none }) hset henv hf
    exact ⟨_, exec_kpRead_single hs hm hfirst, ⟨rfl, rfl⟩, rfl, keyReported_keySampled_trace hfirst⟩
  case noKey =>
    obtain ⟨hopen, _⟩ := allRowsOpen_ideal (List.finRange 4) { s with payload := .none } hset henv fun _ _ _ =>
      List.not_mem_nil
    exact ⟨_, exec_kpRead_noKey hs hopen, ⟨rfl, rfl⟩, kpReadNoKeyEnd_keyout _, kpReadNoKeyEnd_trace hopen⟩

/-- Settles O31: a constant CLOSED that holds the key of the wait loop makes every further sample closed. -/
theorem heldKeyHangsKpRead : Obligations.HeldKeyHangsKpRead := by
  intro s closed key hs hset hm hf hr hh henv hkey
  obtain ⟨hfirst, hideal⟩ := firstClosedSample_ideal (s := { s with payload := .none }) hset henv hkey
  have hkept := scanKept_keySampled { s with payload := .none } key.r key.c
  obtain ⟨hfault, hrefused, _, hhost, _⟩ := hkept.records
  have hcol : colPin (keyHeld { s with payload := .none } key.r key.c) key.c = colPin s key.c := hkept.colPin key.c
  obtain ⟨hmem, _⟩ := hkey
  have hstays : ∀ t, IdealRow t closed key.r → sampleValue t key.c = false ∧
      IdealRow { afterSample t key.c with
        seq := .run (encode .kpRead) (.at (.waitRelease key.c :: .reportKey :: kpReadAfter key.r key.c)) } closed key.r :=
    fun t ht => ⟨ht.sample_closed hmem, (ht.afterSample key.c).of_sequencer _ _⟩
  refine ⟨_, exec_kpRead_blocking hs hm hfirst, fun n => ?_⟩
  obtain ⟨t, hrun, ht⟩ := run_wait_forever _ key.c _ (IdealRow · closed key.r) hstays n
    (keyHeld { s with payload := .none } key.r key.c) (hideal.of_sequencer _ _) rfl (hfault.trans hf) (hrefused.trans hr)
    (hhost.trans hh)
  refine ⟨t, hrun, ⟨_, by rw [ht]; rfl⟩, by rw [ht]; exact hfault.trans hf,
    by rw [ht]; exact keyHeld_keyout _ _ _, ?_⟩
  have htrace : t.trace = (keySampled { s with payload := .none } key.r key.c).trace ++
      List.replicate n (.s .kc (colPin s key.c) false) := by rw [ht, ← hcol]; rfl
  rw [htrace, keySampled_trace hfirst]
  exact append_replicate_succ _ _ n

/-! ## KP_DETECT (R88 to R90) -/

/-- A READY keypad detects in the column of the operand. -/
theorem exec_kpDetect {s : State} {col : Byte} {c : Fin 6} (hs : s.kpState = .ready) (hc : col.toNat = c.val) :
    exec (.kpDetect col) s = .next (runOps (encode (.kpDetect col)) [.detect c] { s with payload := .none }) := by
  have hcheck : checkOf (.kpDetect col) s = none := by
    simp only [checkOf, checkKpDetect, hs, zext, hc, ne_eq, not_true_eq_false, if_false]
    exact if_neg (by omega)
  have hops : kpDetectOps col = [.detect c] := by simp [kpDetectOps, zext, hc]
  rw [exec_of_check_none hcheck, programOf, hops]
  rfl

theorem detectFirst_single {s : State} (hm : s.params.detectMode = .singleSample) (c : Fin 6) :
    detectFirst s c = .advance (setPressed (afterSample s c) (!sampleValue s c)) := by
  simp only [detectFirst, hm, readsClosed]

theorem detectFirst_open {s : State} {c : Fin 6} (hm : s.params.detectMode = .blockingRelease)
    (hv : sampleValue s c = true) : detectFirst s c = .advance (setPressed (afterSample s c) false) := by
  simp [detectFirst, hm, readsClosed, hv]

theorem detectFirst_closed {s : State} {c : Fin 6} (hm : s.params.detectMode = .blockingRelease)
    (hv : sampleValue s c = false) : detectFirst s c = .spin (afterSample s c) (.waitRelease c) := by
  simp [detectFirst, hm, readsClosed, hv]

/-- A detection that goes on after its first sample completes KP_DETECT. -/
theorem exec_kpDetect_completes {s : State} {col : Byte} {c : Fin 6} {v : Level} (hs : s.kpState = .ready)
    (hc : col.toNat = c.val)
    (hd : detectFirst { s with payload := .none } c = .advance (setPressed (afterSample { s with payload := .none } c) v)) :
    exec (.kpDetect col) s = .next (complete (setPressed (afterSample { s with payload := .none } c) v)) := by
  rw [exec_kpDetect hs hc]
  simp only [runOps, microOp, hd]

/-- The state of KP_DETECT in the wait loop of column `c`. -/
def columnHeld (s : State) (col : Byte) (c : Fin 6) : State :=
  { afterSample s c with seq := .run (encode (.kpDetect col)) (.at [.waitRelease c]) }

theorem exec_kpDetect_waits {s : State} {col : Byte} {c : Fin 6} (hs : s.kpState = .ready) (hc : col.toNat = c.val)
    (hm : s.params.detectMode = .blockingRelease) (hv : sampleValue { s with payload := .none } c = false) :
    exec (.kpDetect col) s = .next (columnHeld { s with payload := .none } col c) := by
  rw [exec_kpDetect hs hc]
  simp only [runOps, microOp, detectFirst_closed (s := { s with payload := .none }) hm hv]
  rfl

/-- Column `c` held for `h` more samples, then released: KP_DETECT completes with PRESSED 1. -/
theorem run_columnHeld {s : State} {col : Byte} {c : Fin 6} {h : Nat} {rest : List Level} (hf : s.fault = none)
    (hr : s.refused = none) (hh : s.host = [])
    (henv : (afterSample s c).env = .draws (List.replicate h false ++ true :: rest)) :
    Host.Core.run core (h + 1) (columnHeld s col c) = Host.Outcome.next (complete { afterSample s c with
      trace := (afterSample s c).trace ++ List.replicate h (.s .kc (colPin s c) false) ++ [.s .kc (colPin s c) true]
      env := .draws rest, pressed := some true }) :=
  run_wait _ c [] rest h (columnHeld s col c) rfl hf hr hh henv

/-- Settles O32: one sample, whose inverse is PRESSED. -/
theorem kpDetectSingleSample : Obligations.KpDetectSingleSample := by
  intro s col c hs hc hm
  have hrun := exec_kpDetect_completes hs hc (detectFirst_single (s := { s with payload := .none }) hm c)
  exact ⟨_, hrun, ⟨rfl, rfl⟩, rfl, rfl, .refl s, .refl s, kpDetect_frame hrun⟩

/-- Settles O33: an open first sample completes the command; a closed one enters the wait loop, which the first open
sample leaves. -/
theorem kpDetectBlocking : Obligations.KpDetectBlocking := by
  refine ⟨fun s col c hs hc hm hv => ?opens, fun s col c h rest hs hc hm hf hr hh henv => ?held⟩
  case opens =>
    have hrun := exec_kpDetect_completes hs hc (detectFirst_open (s := { s with payload := .none }) hm hv)
    exact ⟨_, hrun, ⟨rfl, rfl⟩, rfl, by rw [← hv]; rfl, .refl s, .refl s, rfl, rfl, rfl⟩
  case held =>
    rw [List.replicate_succ, List.cons_append] at henv
    have hdraw := drawSample_draws (s := { s with payload := .none }) henv c
    have hv : sampleValue { s with payload := .none } c = false := by rw [sampleValue, hdraw]
    have hrest : (afterSample { s with payload := .none } c).env = .draws (List.replicate h false ++ true :: rest) := by
      rw [afterSample_env, hdraw]
    refine ⟨_, _, exec_kpDetect_waits hs hc hm hv, ⟨_, rfl⟩, run_columnHeld hf hr hh hrest, ⟨rfl, rfl⟩, rfl, ?_, .refl s,
      .refl s, rfl, rfl, rfl⟩
    rw [complete_trace, afterSample_trace, hv]
    exact congrArg (· ++ _) (append_replicate_succ s.trace _ h)

end Sys2Proof.Machine
end

section
/-! PROOFS. The transfer statements (41_display_transfer.md): the events of every display command as transfers, what the
display receives from them, and that RW stays low. -/

namespace Sys2Proof.Machine

/-! ## The events of a display command (R103, R114, R116, R117) -/

/-- The transfers of a display command, each with the settle delays after it (R109, R116, R117). -/
def transfersOf (p : Params) : Instr → List (Level × Byte × List DelayKind)
  | .dispInit _ => p.bootCmds.toList.map fun b => (false, b, [.cmd])
  | .dispClear => [(false, p.cmdClear, [.long]), (false, p.cmdReturnHome, [.long])]
  | i => (bytesSent p i).map fun x => (x.1, x.2, [])

/-- The events of transfers and the delays after them, from the configured pins. -/
def delayedEvents (pins : DispConfig) (l : List (Level × Byte × List DelayKind)) : List Event :=
  l.flatMap fun x => dispXferEvents pins x.1 x.2.1 ++ x.2.2.map .d

/-- The events of DISP_INIT before its bootstrap: the DIR writes and the power delay (R114). -/
def setUpEvents (pins : DispConfig) : List Event :=
  (dispInitWrites pins).map (fun x => .w x.1 x.2.1 x.2.2.1 x.2.2.2) ++ [.d .power]

theorem xferEvents_eq (s : State) (rs : Level) (b : Byte) : xferEvents s rs b = dispXferEvents (dispTables s) rs b := rfl

theorem transfersOf_dispInit (p : Params) (cfg : DispCfg) :
    transfersOf p (.dispInit cfg) = p.bootCmds.toList.map fun b => (false, b, [.cmd]) := rfl

theorem transfersOf_dispClear (p : Params) :
    transfersOf p .dispClear = [(false, p.cmdClear, [.long]), (false, p.cmdReturnHome, [.long])] := rfl

theorem transfersOf_of_noDelay {i : Instr} (hd : isDispInit i = false) (hc : i ≠ .dispClear) (p : Params) :
    transfersOf p i = (bytesSent p i).map fun x => (x.1, x.2, []) := by
  cases i with
  | dispInit _ => cases hd
  | dispClear => exact absurd rfl hc
  | _ => rfl

/-- Without their delays the transfers of a command are the bytes it sends. -/
theorem transfersOf_bytes (p : Params) (i : Instr) : (transfersOf p i).map (fun x => (x.1, x.2.1)) = bytesSent p i := by
  have hsent (l : List (Level × Byte)) :
      (l.map fun x => (x.1, x.2, ([] : List DelayKind))).map (fun x => (x.1, x.2.1)) = l :=
    List.map_map.trans (List.map_id l)
  cases i with
  | dispInit cfg => rw [transfersOf_dispInit, List.map_map]; rfl
  | dispClear => rfl
  | _ => exact hsent _

/-- Transfers without delays have the events of `sendEvents`. -/
theorem delayedEvents_noDelay (s : State) (sent : List (Level × Byte)) :
    delayedEvents (dispTables s) (sent.map fun x => (x.1, x.2, [])) = sendEvents s sent := by
  simp only [delayedEvents, sendEvents, xferEvents_eq, List.flatMap_map, List.map_nil, List.append_nil]

/-- DISP_CLEAR appends its two transfers, a LONG delay after each (R117). -/
theorem runStraight_dispClear_trace (p : Params) (s : State) :
    (runStraight (dispClearOps p) s).trace =
      s.trace ++ delayedEvents (dispTables s) [(false, p.cmdClear, [.long]), (false, p.cmdReturnHome, [.long])] := by
  have hdelay (u : State) : runStraight [.delay .long] u = delay u .long := rfl
  have hpins := ((sent_xfer s false p.cmdClear).append (sent_delay _ .long)).samePins
  rw [dispClearOps, runStraight_append, ← List.singleton_append, runStraight_append, runStraight_append, hdelay, hdelay,
    delay_trace, runStraight_xfer_trace, hpins.xferEvents, delay_trace, runStraight_xfer_trace]
  simp only [delayedEvents, xferEvents_eq, List.flatMap_cons, List.flatMap_nil, List.map_cons, List.map_nil,
    List.append_assoc, List.append_nil]

/-- The events of a display command other than DISP_INIT are those of its transfers. -/
theorem displayDone_trace {i : Instr} (hk : isKeypad i = false) (hd : isDispInit i = false) (s : State) :
    (displayDone i s).trace = s.trace ++ delayedEvents (dispTables s) (transfersOf s.params i) := by
  by_cases hc : i = .dispClear
  · subst hc
    have hprogram : programOf .dispClear s.params = dispClearOps s.params := rfl
    rw [displayDone, complete_trace, hprogram, runStraight_dispClear_trace, transfersOf_dispClear]
    rfl
  · rw [transfersOf_of_noDelay hd hc, delayedEvents_noDelay]
    exact (displayDone_sends hk hd hc s).1

theorem samePins_displayDone {i : Instr} (hk : isKeypad i = false) (hd : isDispInit i = false) (s : State) :
    SamePins s (displayDone i s) := by
  by_cases hc : i = .dispClear
  · subst hc
    exact (sent_dispClear s.params { s with payload := .none }).complete.samePins
  · exact (displayDone_sends hk hd hc s).2.samePins

/-- The events of DISP_INIT are its set-up and the transfers of its bootstrap. -/
theorem dispInitEvents_eq (t : State) (cfg : DispCfg) :
    dispInitEvents t =
      setUpEvents (dispTables t) ++ delayedEvents (dispTables t) (transfersOf t.params (.dispInit cfg)) := by
  have hdir : setUpEvents (dispTables t) = ((List.finRange 4).map fun j => .w .dd .dir (dataPin t j) true) ++
      ((List.finRange 3).map fun j => .w .dc .dir (ctrlPin t j) true) ++ [.d .power] := by
    rw [setUpEvents, dispInitWrites, List.map_append, List.map_map, List.map_map]
    rfl
  have hboot : delayedEvents (dispTables t) (transfersOf t.params (.dispInit cfg)) =
      t.params.bootCmds.toList.flatMap fun b => xferEvents t false b ++ [.d .cmd] :=
    List.flatMap_map ..
  rw [dispInitEvents, hdir, hboot]

theorem dispTables_afterDispInit (s : State) (cfg : DispCfg) : dispTables (afterDispInit s cfg) = dispConfigOf cfg := by
  rw [dispTables, (samePins_afterDispInit s cfg).1]
  rfl

theorem afterDispInit_transfers (s : State) (cfg : DispCfg) :
    (afterDispInit s cfg).trace = s.trace ++
      (setUpEvents (dispConfigOf cfg) ++ delayedEvents (dispConfigOf cfg) (transfersOf s.params (.dispInit cfg))) := by
  rw [afterDispInit_trace, dispInitEvents_eq _ cfg, dispTables_afterDispInit, (samePins_afterDispInit s cfg).2]
  rfl

/-! ## What the display receives (R141 to R144, R184, R188) -/

/-- The display receives the bytes of the transfers whose nibbles it latches, from every pairing phase (R142, R184). -/
theorem receives_of_latchedNibbles {b : Bus} {events : List Event} {sent : List (Level × Byte)}
    (h : latchedNibbles b events = sent.flatMap sentNibbles) :
    traceBytes b events = sent.map some ∧
      ∀ phase, traceBytesFrom phase b events = pairNibbles phase (sent.flatMap sentNibbles) :=
  ⟨by rw [traceBytes, traceBytesFrom, h, pairNibbles_sent], fun phase => by rw [traceBytesFrom, h]⟩

/-- A ready bus latches the nibbles of the bytes a command's transfers send. -/
theorem latchedNibbles_transfersOf {b : Bus} (hb : BusReady b) (p : Params) (i : Instr) :
    latchedNibbles b (delayedEvents b.pins (transfersOf p i)) = (bytesSent p i).flatMap sentNibbles := by
  rw [delayedEvents, latchedNibbles_transfers _ b hb, transfersOf_bytes]

theorem busCtrl_busNow (s : State) : busCtrl (busNow s) = getPort s .dc := by
  cases hs : s.params.sharedDisp <;> simp [busCtrl, busNow, getPort, portHome, hs]

/-- The bus is ready where the display pins are distinct outputs (R111). -/
theorem busReady_busNow {s : State} (hpins : DispPinsDistinct s)
    (hdata : ∀ j : Fin 4, portBit s .dd .dir (dataPin s j) = true)
    (hctrl : ∀ j : Fin 3, portBit s .dc .dir (ctrlPin s j) = true) : BusReady (busNow s) := by
  obtain ⟨hdd, hcc, hdc⟩ := hpins
  exact ⟨hdd, hcc, hdc, hdata, fun j => by rw [busCtrl_busNow]; exact hctrl j⟩

/-- The bus follows every pin write; one of a keypad port leaves it as it is. -/
theorem busNow_pinWrite (s : State) (p : Port) (reg : Reg) (n : Pin) (v : Level) :
    busNow (pinWrite s p reg n v) = busAfter (busNow s) (.w p reg n v) := by
  cases p with
  | kr | kc | dd => rfl
  | dc =>
    cases hs : s.params.sharedDisp <;>
      simp [pinWrite, emit, putPort, getPort, portHome, busNow, busAfter, dispTables, hs]

theorem busRun_writeAll (ws : List (Port × Reg × Pin × Level)) (s : State) :
    busRun (busNow s) (ws.map fun x => .w x.1 x.2.1 x.2.2.1 x.2.2.2) = busNow (writeAll ws s) := by
  induction ws generalizing s with
  | nil => rfl
  | cons x ws ih => rw [writeAll_cons, ← ih, busNow_pinWrite]; rfl

/-- Events without a falling edge of EN latch nothing. -/
theorem latchedNibbles_eq_nil {l : List Event} (h : ∀ e ∈ l, ∀ b, isFallingEdge b e = false) (b : Bus) :
    latchedNibbles b l = [] := by
  induction l generalizing b with
  | nil => rfl
  | cons e l ih =>
    obtain ⟨he, hl⟩ := List.forall_mem_cons.mp h
    rw [latchedNibbles, he b, if_neg Bool.false_ne_true, ih hl]

/-- DISP_INIT's set-up writes DIR bits alone, so the display latches nothing (R141). -/
theorem latchedNibbles_setUpEvents (b : Bus) (pins : DispConfig) : latchedNibbles b (setUpEvents pins) = [] := by
  refine latchedNibbles_eq_nil (fun e he b => ?_) b
  simp only [setUpEvents, dispInitWrites, List.mem_append, List.mem_map, List.mem_singleton] at he
  rcases he with ⟨_, ⟨j, _, rfl⟩ | ⟨j, _, rfl⟩, rfl⟩ | rfl <;> simp [isFallingEdge]

theorem busRun_setUpEvents (s : State) (cfg : DispCfg) :
    busRun (busNow (storedDispCfg s cfg)) (setUpEvents (dispConfigOf cfg)) = busNow (beforeBoot s cfg) := by
  rw [busRun, setUpEvents, List.foldl_append]
  exact congrArg (busAfter · (.d .power)) (busRun_writeAll _ _)

/-- Before its bootstrap DISP_INIT has made the bus ready, from whatever levels the pins had (R188). -/
theorem busReady_beforeBoot {s : State} {cfg : DispCfg}
    (hv : dispValid s.params.portWidth s.params.sharedDisp cfg = true) :
    BusReady (busNow (beforeBoot s cfg)) := by
  have hpins := samePins_beforeBoot s cfg
  refine busReady_busNow (hpins.distinct.mpr (dispPinsDistinct_storedDispCfg hv)) (fun j => ?_) fun j => ?_
  · rw [hpins.dataPin]
    exact portBit_beforeBoot_mem s cfg (List.mem_append_left _ (List.mem_map_of_mem (List.mem_finRange j)))
  · rw [hpins.ctrlPin]
    exact portBit_beforeBoot_mem s cfg (List.mem_append_right _ (List.mem_map_of_mem (List.mem_finRange j)))

/-- Along DISP_INIT the display latches the nibbles of the bootstrap. -/
theorem latchedNibbles_dispInit {s : State} {cfg : DispCfg}
    (hv : dispValid s.params.portWidth s.params.sharedDisp cfg = true) :
    latchedNibbles (busNow (storedDispCfg s cfg))
        (setUpEvents (dispConfigOf cfg) ++ delayedEvents (dispConfigOf cfg) (transfersOf s.params (.dispInit cfg))) =
      (bytesSent s.params (.dispInit cfg)).flatMap sentNibbles := by
  have hpins : (busNow (beforeBoot s cfg)).pins = dispConfigOf cfg := by
    rw [beforeBoot_frame]
    rfl
  rw [latchedNibbles_append, latchedNibbles_setUpEvents, List.nil_append, busRun_setUpEvents]
  have h := latchedNibbles_transfersOf (busReady_beforeBoot hv) s.params (.dispInit cfg)
  rwa [hpins] at h

/-- Settles O46: the events of a command are its transfers, which a ready bus latches nibble by nibble; DISP_INIT's set-up
latches nothing and makes the bus ready. -/
theorem displayReceivesTheBytesSent : Obligations.DisplayReceivesTheBytesSent := by
  refine ⟨fun s t i hk hd hs hsetUp h => ?ready, fun s t cfg hs hv h => ?init⟩
  case ready =>
    obtain ⟨hpins, hdata, hctrl, _⟩ := hsetUp
    obtain rfl : t = displayDone i s := exec_display_eq hk ((checkOf_display_none hk hd).mpr hs) h
    exact ⟨_, displayDone_trace hk hd s,
      receives_of_latchedNibbles (latchedNibbles_transfersOf (busReady_busNow hpins hdata hctrl) s.params i)⟩
  case init =>
    obtain rfl := Host.Outcome.next.inj (h.symm.trans (exec_dispInit hs hv))
    exact ⟨_, afterDispInit_transfers s cfg, receives_of_latchedNibbles (latchedNibbles_dispInit hv)⟩

/-! ## RW stays low (R105) -/

section
variable {pins : DispConfig} (hctrl : ∀ a b : Fin 3, pins.ctrlPins[a] = pins.ctrlPins[b] → a = b)
include hctrl

/-- A transfer writes RW once, with 0. -/
theorem rwHigh_notMem_xfer (rs : Level) (b : Byte) : .w .dc .out pins.ctrlPins[1] true ∉ dispXferEvents pins rs b := by
  have hrs : pins.ctrlPins[1] ≠ pins.ctrlPins[0] := fun h => absurd (hctrl 1 0 h) (by decide)
  have hen : pins.ctrlPins[1] ≠ pins.ctrlPins[2] := fun h => absurd (hctrl 1 2 h) (by decide)
  simp [dispXferEvents, hrs, hen]

theorem rwHigh_notMem_delayedEvents (l : List (Level × Byte × List DelayKind)) :
    .w .dc .out pins.ctrlPins[1] true ∉ delayedEvents pins l := by
  intro h
  obtain ⟨x, _, hx⟩ := List.mem_flatMap.mp h
  rcases List.mem_append.mp hx with hx | hx
  · exact rwHigh_notMem_xfer hctrl _ _ hx
  · obtain ⟨kind, _, hkind⟩ := List.mem_map.mp hx
    cases hkind

end

/-- DISP_INIT's set-up writes no OUT bit. -/
theorem out_notMem_setUpEvents (pins : DispConfig) (p : Port) (n : Pin) (v : Level) : .w p .out n v ∉ setUpEvents pins := by
  simp [setUpEvents, dispInitWrites]

/-- Settles O47: a fault appends nothing, and the rest of a command's events are DIR writes, delays and transfers. -/
theorem readWriteLineNeverHigh : Obligations.ReadWriteLineNeverHigh := by
  intro s t i hk h
  rcases exec_cases h with ⟨code, _, rfl⟩ | ⟨hc, _⟩
  · exact ⟨[], (List.append_nil _).symm, fun _ => List.not_mem_nil⟩
  cases hd : isDispInit i with
  | false =>
    obtain rfl : t = displayDone i s := exec_display_eq hk hc h
    have hsame := samePins_displayDone hk hd s
    refine ⟨_, displayDone_trace hk hd s, fun hpins => ?_⟩
    obtain ⟨_, hctrl, _⟩ := hsame.distinct.mp hpins
    rw [hsame.ctrlPin]
    exact rwHigh_notMem_delayedEvents hctrl _
  | true =>
    cases i with
    | dispInit cfg =>
      obtain ⟨hs, hv⟩ := checkOf_dispInit_none.mp hc
      obtain ⟨_, hctrl, _⟩ := dispPinsDistinct_storedDispCfg hv
      obtain rfl := Host.Outcome.next.inj (h.symm.trans (exec_dispInit hs hv))
      refine ⟨_, afterDispInit_transfers s cfg, fun _ hmem => ?_⟩
      rw [ctrlPin_afterDispInit] at hmem
      rcases List.mem_append.mp hmem with hmem | hmem
      · exact out_notMem_setUpEvents _ _ _ _ hmem
      · exact rwHigh_notMem_delayedEvents hctrl _ hmem
    | _ => cases hd

end Sys2Proof.Machine
end

section
/-! PROOFS. The display-control statements (42_display_control.md): when the display commands fault, DISP_CLEAR and
DISP_RETURN_HOME, and the address formatter. -/

namespace Sys2Proof.Machine

/-! ## Faults (R114, R126, R165) -/

/-- The one check of a display command other than DISP_INIT (R26, R126). -/
theorem checkOf_display_uninit {i : Instr} (hk : isKeypad i = false) (hd : isDispInit i = false) {s : State}
    (hs : s.dispState = .uninit) : checkOf i s = some .dispNotInit := by
  have hcheck : checkDispReady s = some .dispNotInit := by simp [checkDispReady, hs]
  cases i with
  | kpInit _ | kpRead | kpDetect _ => cases hk
  | dispInit _ => cases hd
  | _ => exact hcheck

/-- Settles O20: each fault is the first failing check of its command. -/
theorem displayFaults : Obligations.DisplayFaults := by
  intro s
  refine ⟨fun i hk hd hs => ?notInit, fun cfg hs => ?doubleInit, fun cfg hs hv => ?configInvalid⟩
  case notInit => exact exec_of_check_some (checkOf_display_uninit hk hd hs)
  case doubleInit =>
    have hc : checkOf (.dispInit cfg) s = some .dispDoubleInit := by simp [checkOf, checkDispInit, hs]
    exact exec_of_check_some hc
  case configInvalid =>
    have hc : checkOf (.dispInit cfg) s = some .dispConfigInvalid := by simp [checkOf, checkDispInit, hs, hv]
    exact exec_of_check_some hc

/-! ## DISP_CLEAR and DISP_RETURN_HOME (R117 to R119) -/

theorem runStraight_dispClear_i (p : Params) (s : State) : (runStraight (dispClearOps p) s).i = s.i := by
  have hdelay (u : State) : runStraight [.delay .long] u = delay u .long := rfl
  rw [dispClearOps, runStraight_append, ← List.singleton_append, runStraight_append, runStraight_append, hdelay, hdelay,
    delay_i, runStraight_xfer_i, delay_i, runStraight_xfer_i]

/-- Settles O38: the command is two transfers with RS low, a LONG delay after each. -/
theorem dispClearResult : Obligations.DispClearResult := by
  intro s hs
  refine ⟨_, exec_dispReady_eq rfl rfl hs, ?events, (sent_dispClear s.params _).complete,
    displayDone_i (runStraight_dispClear_i s.params)⟩
  case events =>
    rw [displayDone_trace rfl rfl, transfersOf_dispClear]
    simp only [delayedEvents, xferEvents_eq, List.flatMap_cons, List.flatMap_nil, List.map_cons, List.map_nil,
      List.append_assoc, List.append_nil]

/-- Settles O39: the command is one transfer with RS low. -/
theorem dispReturnHomeResult : Obligations.DispReturnHomeResult := by
  intro s hs
  obtain ⟨htrace, hsent⟩ := displayDone_sends_one (i := .dispReturnHome) rfl rfl nofun (s := s) rfl
  exact ⟨_, exec_dispReady_eq rfl rfl hs, htrace, hsent,
    displayDone_i fun u => runStraight_xfer_i u false s.params.cmdReturnHome⟩

/-! ## The address formatter (R71, R122) -/

/-- The OR of two words is their sum exactly where they have no bit in common: the common bits are what it lacks. -/
theorem or_eq_add_iff {w : Nat} (x y : BitVec w) : x ||| y = x + y ↔ x &&& y = 0 := by
  have hx : (x &&& ~~~y) + (x &&& y) = x := by
    rw [BitVec.add_eq_or_of_and_eq_zero _ _ (by grind)]
    grind
  have hor : (x &&& ~~~y) + y = x ||| y := by
    rw [BitVec.add_eq_or_of_and_eq_zero _ _ (by grind)]
    grind
  have hsum : x + y = (x ||| y) + (x &&& y) := by
    rw [← hor]
    nth_rw 1 [← hx]
    exact add_right_comm ..
  rw [hsum, left_eq_add]

/-- A row reaches the bytes of a list if each column gives one of them and each of them has a column. -/
theorem rowReaches_iff {row : Fin 4} {bytes : List Byte}
    (hgives : ∀ col : Fin 20, addressByte Params.default row col.val ∈ bytes)
    (hcolumn : ∀ b ∈ bytes, ∃ col : Fin 20, addressByte Params.default row col.val = b) (b : Byte) :
    (∃ col : Fin 20, addressByte Params.default row col.val = b) ↔ b ∈ bytes :=
  ⟨fun ⟨col, h⟩ => h ▸ hgives col, hcolumn b⟩

/-- Settles O52: OR and addition agree where the column has no bit in common with the row's base. Which columns those are,
and the bytes of rows 2 and 3, are finite tables of the default bases. -/
theorem addressFormatterIsOr : Obligations.AddressFormatterIsOr := by
  refine ⟨fun p row col h => addressByte_of_lt p row h, fun row col => ?_, rowReaches_iff (by decide) (by decide),
    rowReaches_iff (by decide) (by decide)⟩
  have hdisjoint : ∀ (row : Fin 4) (col : Fin 20), Params.default.rowBase[row] &&& BitVec.ofNat 8 col.val = 0 ↔
      (row.val ≤ 1 ∨ col.val ≤ 3 ∨ (8 ≤ col.val ∧ col.val ≤ 11)) := by decide
  rw [addressByte_of_lt _ _ (by omega), or_eq_add_iff, hdisjoint]

end Sys2Proof.Machine
end

section
/-! PROOFS. The display-text statements (43_display_text.md): what the text commands send, the number of events of a
string, TextLen, and the decimal representation Dec. -/

namespace Sys2Proof.Machine

/-! ## The text commands (R127 to R133, R135, R138, R140) -/

/-- On a READY display a command without delays completes with the events of the bytes it sends, and their frame. -/
theorem exec_sends {i : Instr} (hk : isKeypad i = false) (hd : isDispInit i = false) (hc : i ≠ .dispClear) {s : State}
    (hs : s.dispState = .ready) :
    ∃ t, exec i s = .next t ∧ t.trace = s.trace ++ sendEvents s (bytesSent s.params i) ∧
      DisplaySent s t (bytesSent s.params i) :=
  ⟨_, exec_dispReady_eq hk hd hs, displayDone_sends hk hd hc s⟩

theorem sendEvents_append (s : State) (a b : List (Level × Byte)) :
    sendEvents s (a ++ b) = sendEvents s a ++ sendEvents s b :=
  List.flatMap_append

@[simp] theorem sendEvents_singleton (s : State) (rs : Level) (b : Byte) : sendEvents s [(rs, b)] = xferEvents s rs b :=
  List.flatMap_singleton ..

/-- Position out of range sends nothing (R121). -/
theorem positionBytes_outOfRange {p : Params} {row col : Nat} (h : 4 ≤ row ∨ p.dispCols ≤ col) :
    positionBytes p row col = [] := by
  unfold positionBytes
  split
  · exact if_neg (by omega)
  · rfl

/-- Settles O41: the command is a Position, which sends one byte or none, and one transfer with RS high. -/
theorem dispPrintCharToResult : Obligations.DispPrintCharToResult := by
  intro s row col code hs
  obtain ⟨htrace, hsent⟩ := displayDone_sends (i := .dispPrintCharTo row col code) rfl rfl nofun s
  have hi (u : State) : (runStraight (positionOps s.params row.toNat col.toNat ++ xferOps true code) u).i = u.i := by
    rw [runStraight_append, runStraight_xfer_i, runStraight_position_i]
  refine ⟨_, exec_dispReady_eq rfl rfl hs, displayDone_i hi, fun h hc => ?inRange, fun h => ?outOfRange, hsent⟩
  case inRange =>
    rw [htrace, bytesSent, positionBytes_inRange h hc, sendEvents_append, sendEvents_singleton, sendEvents_singleton,
      List.append_assoc]
  case outOfRange => rw [htrace, bytesSent, positionBytes_outOfRange h, List.nil_append, sendEvents_singleton]

/-- Settles O42: the bytes the command sends are those of the string from index 0 on. -/
theorem dispPrintStringResult : Obligations.DispPrintStringResult :=
  fun _ text => exec_sends (i := .dispPrintString text) rfl rfl nofun

/-- Settles O43: the bytes the command sends are those of the positioning and of the string. -/
theorem dispPrintStringToResult : Obligations.DispPrintStringToResult :=
  fun _ row col text => exec_sends (i := .dispPrintStringTo row col text) rfl rfl nofun

/-- Settles O44: the bytes the command sends are those of the number. -/
theorem dispPrintNumberResult : Obligations.DispPrintNumberResult :=
  fun _ v => exec_sends (i := .dispPrintNumber v) rfl rfl nofun

/-- Settles O45: the bytes the command sends are those of the positioning and of the number. -/
theorem dispPrintNumberToResult : Obligations.DispPrintNumberToResult :=
  fun _ row col v => exec_sends (i := .dispPrintNumberTo row col v) rfl rfl nofun

/-! ## TextLen and the number of events of a string (R130, R134) -/

theorem textLen_zero_cons (bs : List Byte) : textLen (0 :: bs) = 0 := rfl

theorem textLen_cons {b : Byte} (h : b ≠ 0) (bs : List Byte) : textLen (b :: bs) = textLen bs + 1 := if_neg h

theorem textLen_eq_findIdx (text : List Byte) : textLen text = text.findIdx (· == 0) := by
  induction text with
  | nil => rfl
  | cons b bs ih =>
    by_cases h : b = 0
    · subst h; rfl
    · rw [textLen_cons h, ih, List.findIdx_cons, beq_eq_false_iff_ne.mpr h, cond_false]

/-- Settles O49: TextLen is the library's index of the first 0x00. -/
theorem textLenIsFirstZero : Obligations.TextLenIsFirstZero := by
  intro text
  rw [textLen_eq_findIdx]
  refine ⟨List.findIdx_le_length, fun j hj => ?before, fun hlt => ?first⟩
  case before =>
    rw [List.getD_eq_getElem _ _ (hj.trans_le List.findIdx_le_length)]
    exact beq_eq_false_iff_ne.mp (List.not_of_lt_findIdx hj)
  case first =>
    rw [List.getD_eq_getElem _ _ hlt]
    exact eq_of_beq (List.findIdx_getElem (w := hlt))

theorem stringBytesFrom_zero_cons (p : Params) (n : Nat) (bs : List Byte) : stringBytesFrom p n (0 :: bs) = [] := rfl

/-- A character's transfers: a positioning from index WRAP_COL on (R129), then the character. -/
theorem stringBytesFrom_cons (p : Params) (n : Nat) {b : Byte} (h : b ≠ 0) (bs : List Byte) :
    stringBytesFrom p n (b :: bs) = (if n < p.wrapCol then [] else positionBytes p p.wrapRow (n - p.wrapCol)) ++
      (true, b) :: stringBytesFrom p (n + 1) bs :=
  if_neg h

/-- A Position sends no character (R120). -/
theorem countP_chars_positionBytes (p : Params) (row col : Nat) :
    (positionBytes p row col).countP (fun x => x.1) = 0 := by
  unfold positionBytes
  split
  · split <;> rfl
  · rfl

/-- A Position in range is one positioning transfer, out of range none (R120, R121). -/
theorem countP_positions_positionBytes (p : Params) (row col : Nat) :
    (positionBytes p row col).countP (fun x => !x.1) = if row < 4 ∧ col < p.dispCols then 1 else 0 := by
  by_cases h : row < 4 ∧ col < p.dispCols
  · rw [positionBytes, dif_pos h.1, if_pos h.2, if_pos h]; rfl
  · rw [positionBytes_outOfRange (by omega), if_neg h]; rfl

/-- A string sends TextLen characters. -/
theorem countP_chars_stringBytesFrom (p : Params) (n : Nat) (text : List Byte) :
    (stringBytesFrom p n text).countP (fun x => x.1) = textLen text := by
  induction text generalizing n with
  | nil => rfl
  | cons b bs ih =>
    by_cases h : b = 0
    · subst h; rfl
    · have hposition : (if n < p.wrapCol then [] else positionBytes p p.wrapRow (n - p.wrapCol)).countP
          (fun x => x.1) = 0 := by
        split
        · rfl
        · exact countP_chars_positionBytes ..
      rw [stringBytesFrom_cons p n h, List.countP_append, hposition, List.countP_cons_of_pos rfl, ih, textLen_cons h,
        Nat.zero_add]

/-- A string from index `n` on positions once for each index whose distance past WRAP_COL is a column of the display. -/
theorem countP_positions_stringBytesFrom {p : Params} (hrow : p.wrapRow < 4) (n : Nat) (text : List Byte) :
    (stringBytesFrom p n text).countP (fun x => !x.1) + min (n - p.wrapCol) p.dispCols =
      min (n + textLen text - p.wrapCol) p.dispCols := by
  induction text generalizing n with
  | nil => exact Nat.zero_add _
  | cons b bs ih =>
    by_cases h : b = 0
    · subst h
      rw [stringBytesFrom_zero_cons, textLen_zero_cons, List.countP_nil, Nat.zero_add, Nat.add_zero]
    · have hposition : (if n < p.wrapCol then [] else positionBytes p p.wrapRow (n - p.wrapCol)).countP
          (fun x => !x.1) = if p.wrapCol ≤ n ∧ n - p.wrapCol < p.dispCols then 1 else 0 := by
        split
        · exact (if_neg (by omega)).symm
        · rw [countP_positions_positionBytes]
          exact if_congr (by omega) rfl rfl
      rw [stringBytesFrom_cons p n h, List.countP_append, hposition,
        List.countP_cons_of_neg Bool.false_ne_true, textLen_cons h]
      have hrest := ih (n + 1)
      split <;> omega

/-- Each transfer is 18 events (R106). -/
theorem length_sendEvents (s : State) (sent : List (Level × Byte)) : (sendEvents s sent).length = 18 * sent.length := by
  have hx (x : Level × Byte) : (xferEvents s x.1 x.2).length = 18 := rfl
  simp only [sendEvents, List.length_flatMap, hx, List.map_const', List.sum_replicate, smul_eq_mul, Nat.mul_comm]

/-- Settles O48: 18 events for each character and for each positioning, which are TextLen and one for each of the 20
columns past the first 20 characters. -/
theorem printStringEventCount : Obligations.PrintStringEventCount := by
  intro s t text hs hwrapCol hwrapRow hcols h n sent
  obtain ⟨t', ht', htrace, -⟩ := exec_sends (i := .dispPrintString text) rfl rfl nofun hs
  cases h.symm.trans ht'
  have hchars : (sent.filter fun x => x.1).length = n :=
    List.countP_eq_length_filter.symm.trans (countP_chars_stringBytesFrom s.params 0 text)
  have hpositions : (sent.filter fun x => !x.1).length = min (n - 20) 20 := by
    have hcount := countP_positions_stringBytesFrom (p := s.params) (by omega) 0 text
    rwa [hwrapCol, hcols, List.countP_eq_length_filter, Nat.zero_sub, Nat.zero_min, Nat.add_zero,
      Nat.zero_add] at hcount
  have hlength : sent.length = n + min (n - 20) 20 := by
    rw [List.length_eq_length_filter_add fun x => x.1, hchars, hpositions]
  refine ⟨htrace, ?_, hchars, hpositions⟩
  rw [length_sendEvents, hlength]
  split
  · omega
  · split <;> omega

/-! ## The decimal representation (R72, R136, R137) -/

theorem toNat_digitCode {d : Nat} (h : d < 10) : (digitCode d).toNat = 0x30 + d := by
  have hall : ∀ d : Fin 10, (digitCode d.val).toNat = 0x30 + d.val := by decide
  exact hall ⟨d, h⟩

/-- The digits of the model are the library's, most significant first, where the fuel is enough. -/
theorem decDigits_eq_digits {fuel n : Nat} (hn : n ≠ 0) (hfuel : n < 2 ^ fuel) (acc : List Byte) :
    decDigits fuel n acc = (Nat.digits 10 n).reverse.map digitCode ++ acc := by
  induction fuel generalizing n acc with
  | zero => omega
  | succ fuel ih =>
    rw [Nat.digits_def' (by decide) (Nat.pos_of_ne_zero hn), List.reverse_cons, List.map_append, List.append_assoc,
      decDigits]
    by_cases hlast : n / 10 = 0
    · rw [if_pos hlast, hlast, Nat.digits_zero]
      rfl
    · rw [if_neg hlast, ih hlast (by omega)]
      rfl

theorem decNat_zero : decNat 0 = [0x30] := rfl

theorem decNat_of_ne_zero {n : Nat} (hn : n ≠ 0) : decNat n = (Nat.digits 10 n).reverse.map digitCode := by
  rw [decNat, decDigits_eq_digits hn Nat.lt_log2_self, List.append_nil]

/-- A string of digit codes stands for the number with these digits. -/
theorem digitsValue_map_digitCode {l : List Nat} (h : ∀ d ∈ l, d < 10) :
    digitsValue (l.reverse.map digitCode) = Nat.ofDigits 10 l := by
  induction l with
  | nil => rfl
  | cons d l ih =>
    have hd : (digitCode d).toNat - 0x30 = d := by
      rw [toNat_digitCode (h d List.mem_cons_self), Nat.add_sub_cancel_left]
    have hl := ih fun e he => h e (List.mem_cons_of_mem d he)
    rw [digitsValue] at hl ⊢
    rw [List.reverse_cons, List.map_append, List.foldl_append, hl, Nat.ofDigits_cons, List.map_singleton,
      List.foldl_cons, List.foldl_nil, hd]
    exact Nat.add_comm ..

theorem decNat_ne_nil (n : Nat) : decNat n ≠ [] := by
  by_cases hn : n = 0
  · subst hn; nofun
  · rw [decNat_of_ne_zero hn]
    simpa [Nat.digits_eq_nil_iff_eq_zero] using hn

theorem mem_decNat_isDigit {n : Nat} {d : Byte} (h : d ∈ decNat n) : 0x30 ≤ d.toNat ∧ d.toNat ≤ 0x39 := by
  by_cases hn : n = 0
  · subst hn
    rw [List.mem_singleton.mp h]
    decide
  · rw [decNat_of_ne_zero hn] at h
    obtain ⟨e, he, rfl⟩ := List.mem_map.mp h
    have hlt : e < 10 := Nat.digits_lt_base (by decide) (List.mem_reverse.mp he)
    rw [toNat_digitCode hlt]
    omega

theorem digitsValue_decNat (n : Nat) : digitsValue (decNat n) = n := by
  by_cases hn : n = 0
  · subst hn; rfl
  · rw [decNat_of_ne_zero hn, digitsValue_map_digitCode fun d => Nat.digits_lt_base (by decide), Nat.ofDigits_digits]

/-- The first digit of a positive number is the last of the library's digits, which is not 0. -/
theorem head_decNat_ne_zero {n : Nat} (hn : n ≠ 0) : (decNat n).head? ≠ some 0x30 := by
  have hdigits : Nat.digits 10 n ≠ [] := Nat.digits_ne_nil_iff_ne_zero.mpr hn
  have hlt : (Nat.digits 10 n).getLast hdigits < 10 := Nat.digits_lt_base (by decide) (List.getLast_mem hdigits)
  have hcode := toNat_digitCode hlt
  have hne : (Nat.digits 10 n).getLast hdigits ≠ 0 := Nat.getLast_digit_ne_zero 10 hn
  rw [decNat_of_ne_zero hn, List.head?_map, List.head?_reverse, List.getLast?_eq_some_getLast hdigits, Option.map_some]
  intro hzero
  rw [Option.some.inj hzero] at hcode
  exact hne (Nat.add_left_cancel hcode).symm

theorem dec_eq (v : Int) : dec v = (if v < 0 then [0x2D] else []) ++ decNat v.natAbs := by
  unfold dec
  split <;> rfl

/-- Settles O50: the digits are those of the magnitude, and the library's digits have the properties asked. -/
theorem decIsDecimal : Obligations.DecIsDecimal := fun v =>
  ⟨decNat v.natAbs, dec_eq v, decNat_ne_nil _, fun _ => mem_decNat_isDigit, digitsValue_decNat _,
    fun hv => head_decNat_ne_zero (Int.natAbs_ne_zero.mpr hv), fun hv => hv ▸ decNat_zero⟩

/-- A number below a power of ten has at most as many digits as its exponent. -/
theorem length_decNat_le {n k : Nat} (hk : 0 < k) (h : n < 10 ^ k) : (decNat n).length ≤ k := by
  by_cases hn : n = 0
  · subst hn; exact hk
  · rw [decNat_of_ne_zero hn, List.length_map, List.length_reverse]
    exact (Nat.digits_length_le_iff (by decide) n).mpr h

/-- Settles O51: the corner values by evaluation; the magnitude of a 32-bit value is below `10 ^ 10`. -/
theorem decCornerValues : Obligations.DecCornerValues := by
  refine ⟨by decide, by decide, by decide, by decide, by decide, by decide, fun v hv => ?_⟩
  have hrange : -2 ^ 31 ≤ v ∧ v < 2 ^ 31 := (Bool.and_eq_true_iff.mp hv).imp of_decide_eq_true of_decide_eq_true
  have hdigits : (decNat v.natAbs).length ≤ 10 := length_decNat_le (by decide) (by omega)
  have hsign : (if v < 0 then [(0x2D : Byte)] else []).length ≤ 1 := by split <;> decide
  rw [dec_eq, List.length_append]
  omega

end Sys2Proof.Machine
end

section
/-! PROOFS. The reference display (44_display_bus.md): what DEV is after the bootstrap. -/

namespace Sys2Proof.Machine

/-- DEV as the default bootstrap leaves it (R149). -/
def devAfterBootstrap : Dev :=
  { ddram := Vector.replicate 128 0x20, ac := 0, increment := true, shift := false, displayOn := true,
    cursorOn := true, blinkOn := false, eightBit := false, twoLine := true, largeFont := false, target := .ddram }

/-- DEV runs a command byte that is in DEV, then the rest (R145, R146). -/
theorem devRun_command {d d' : Dev} {b : Byte} (h : devCommand d b = some d') (rest : List (Option (Level × Byte))) :
    devRun d (some (false, b) :: rest) = devRun d' rest := by
  rw [devRun, devExec, h]

/-! What DEV makes of a byte of each class in the bootstrap (R146). -/

section
variable {b : Byte} (d : Dev)

theorem devCommand_clearDisplay (h : busClass b = .clearDisplay) :
    devCommand d b =
      some { d with ddram := Vector.replicate 128 0x20, ac := 0, increment := true, target := .ddram } := by
  rw [devCommand, h]

theorem devCommand_returnHome (h : busClass b = .returnHome) :
    devCommand d b = some { d with ac := 0, target := .ddram } := by
  rw [devCommand, h]

theorem devCommand_entryModeSet {i s : Level} (h : busClass b = .entryModeSet i s) :
    devCommand d b = some { d with increment := i, shift := s } := by
  rw [devCommand, h]

theorem devCommand_displayControl {on c bl : Level} (h : busClass b = .displayControl on c bl) :
    devCommand d b = some { d with displayOn := on, cursorOn := c, blinkOn := bl } := by
  rw [devCommand, h]

theorem devCommand_functionSet {l n f : Level} (h : busClass b = .functionSet l n f) :
    devCommand d b = some { d with eightBit := l, twoLine := n, largeFont := f } := by
  rw [devCommand, h]

end

/-- Command bytes of the bootstrap's classes (R69) set every part of DEV, so nothing of the earlier DEV is left. -/
theorem devRun_of_bootstrapClasses {bytes : List Byte}
    (h : bytes.map busClass =
      [.returnHome, .functionSet false true false, .displayControl true true false, .entryModeSet true false, .clearDisplay])
    (d : Dev) : devRun d ((bytes.map fun b => (false, b)).map some) = some devAfterBootstrap := by
  obtain ⟨home, _, rfl, hhome, h⟩ := List.map_eq_cons_iff.mp h
  obtain ⟨function, _, rfl, hfunction, h⟩ := List.map_eq_cons_iff.mp h
  obtain ⟨control, _, rfl, hcontrol, h⟩ := List.map_eq_cons_iff.mp h
  obtain ⟨entry, _, rfl, hentry, h⟩ := List.map_eq_cons_iff.mp h
  obtain ⟨clear, _, rfl, hclear, h⟩ := List.map_eq_cons_iff.mp h
  obtain rfl := List.map_eq_nil_iff.mp h
  simp only [List.map_cons, List.map_nil]
  rw [devRun_command (devCommand_returnHome _ hhome), devRun_command (devCommand_functionSet _ hfunction),
    devRun_command (devCommand_displayControl _ hcontrol), devRun_command (devCommand_entryModeSet _ hentry),
    devRun_command (devCommand_clearDisplay _ hclear)]
  rfl

/-- Settles O54: the display receives the bootstrap's bytes, and their classes determine DEV. -/
theorem referenceDisplayAfterInit : Obligations.ReferenceDisplayAfterInit := by
  intro s t cfg d hs hv hboot h
  obtain ⟨events, htrace, hbytes, _⟩ := displayReceivesTheBytesSent.2 s t cfg hs hv h
  have hclasses := ownBytesHaveTheirClasses.1
  rw [← hboot] at hclasses
  refine ⟨events, htrace, ?_⟩
  rw [hbytes]
  exact devRun_of_bootstrapClasses hclasses d

end Sys2Proof.Machine
end

section
/-! PROOFS. The exception statements (60_exceptions.md): the faults right after reset, the fault numbers, and which
commands can hang. -/

namespace Sys2Proof.Machine

/-! ## Faults (R157, R160, R182) -/

/-- Settles O2: the default GPIO_RESET is all zeros, and both units are UNINIT. -/
theorem resetPinsAreInputs : Obligations.ResetPinsAreInputs := by
  refine ⟨fun p i => ?pins, fun i hkp hdisp => ?faults⟩
  case pins => cases p <;> exact ⟨Nat.zero_testBit i, Nat.zero_testBit i⟩
  case faults =>
    obtain ⟨hread, hdetect, _⟩ := keypadFaults State.reset
    obtain ⟨hnotInit, _⟩ := displayFaults State.reset
    cases i with
    | kpInit cfg => exact absurd rfl (hkp cfg)
    | dispInit cfg => exact absurd rfl (hdisp cfg)
    | kpRead => exact ⟨.kpNotInit, hread rfl⟩
    | kpDetect col => exact ⟨.kpNotInit, hdetect col rfl⟩
    | _ => exact ⟨.dispNotInit, hnotInit _ rfl rfl rfl⟩

/-- Settles O10: the nine numbers by evaluation. -/
theorem faultCodeNumbers : Obligations.FaultCodeNumbers := rfl

/-! ## Commands that cannot hang (R163, R164) -/

/-- A micro-step that stays in no wait loop: in SINGLE_SAMPLE mode all but the loop's own, in the other mode no sample. -/
def neverWaits (mode : DetectMode) : MicroOp → Bool
  | .detect _ => mode == .singleSample
  | .waitRelease _ => false
  | _ => true

theorem neverWaits_of_isStraight {op : MicroOp} (h : isStraight op = true) (mode : DetectMode) :
    neverWaits mode op = true := by
  cases op with
  | detect _ | waitRelease _ => cases h
  | _ => rfl

theorem microOp_ne_spin {op : MicroOp} {s : State} (h : neverWaits s.params.detectMode op = true) (t : State)
    (op' : MicroOp) : microOp op s ≠ .spin t op' := by
  cases op with
  | detect c =>
    rw [microOp, detectFirst_single (eq_of_beq h)]
    nofun
  | waitRelease c => cases h
  | reportKey =>
    rw [microOp]
    cases isPressed s <;> nofun
  | _ =>
    rw [microOp_straight rfl]
    nofun

/-- A program none of whose micro-steps waits completes: it comes to its end or returns before. -/
theorem runOps_completed (w : Word) (ops : List MicroOp) (s : State)
    (h : ∀ op ∈ ops, neverWaits s.params.detectMode op = true) : Completed (runOps w ops s) := by
  induction ops generalizing s with
  | nil => exact ⟨rfl, rfl⟩
  | cons op ops ih =>
    rw [runOps]
    cases hop : microOp op s with
    | advance t =>
      obtain ⟨_, _, hparams, _⟩ := microOp_records op s
      rw [hop] at hparams
      have hmode : t.params.detectMode = s.params.detectMode := congrArg Params.detectMode hparams
      exact ih t fun o ho => hmode ▸ h o (by simp [ho])
    | spin t op' => exact absurd hop (microOp_ne_spin (h op (by simp)) t op')
    | finish t => exact ⟨rfl, rfl⟩

/-- Only KP_READ and KP_DETECT sample a column, and in SINGLE_SAMPLE mode they enter no wait loop. -/
theorem programOf_neverWaits {i : Instr} {p : Params}
    (h : p.detectMode = .singleSample ∨ (i ≠ .kpRead ∧ ∀ col, i ≠ .kpDetect col)) :
    ∀ op ∈ programOf i p, neverWaits p.detectMode op = true := by
  intro op ho
  cases hk : isKeypad i with
  | false => exact neverWaits_of_isStraight (programOf_straight hk p op ho) _
  | true =>
    cases i with
    | kpInit cfg => exact neverWaits_of_isStraight (kpInitOps_straight op ho) _
    | kpRead =>
      have hread : ∀ o ∈ kpReadOps, neverWaits .singleSample o = true := by decide
      rw [h.resolve_right fun ⟨hne, _⟩ => hne rfl]
      exact hread op ho
    | kpDetect col =>
      obtain ⟨c, rfl⟩ := mem_kpDetectOps ho
      rw [h.resolve_right fun ⟨_, hne⟩ => hne col rfl]
      rfl
    | _ => cases hk

/-- A command that cannot hang completes and leaves FAULT alone, or raises a fault. -/
theorem exec_completes_or_faults {i : Instr} {s t : State} (h : exec i s = .next t)
    (hi : s.params.detectMode = .singleSample ∨ (i ≠ .kpRead ∧ ∀ col, i ≠ .kpDetect col)) :
    (Completed t ∧ t.fault = s.fault) ∨ ∃ code, t = raiseFault s code (some (encode i)) := by
  rcases exec_cases h with ⟨code, _, ht⟩ | ⟨hc, rfl⟩
  · exact .inr ⟨code, ht⟩
  · obtain ⟨hfault, _⟩ := exec_records h hc
    exact .inl ⟨runOps_completed _ _ _ (programOf_neverWaits hi), hfault⟩

/-- Settles O57: a word is refused as it decodes, or its command, which cannot hang, completes or raises a fault. -/
theorem onlyDetectionCanHang : Obligations.OnlyDetectionCanHang := by
  refine ⟨fun s w p rest ha hm hh => ?issued, fun s i hi => ?command⟩
  case issued =>
    rw [step_issue ha hh]
    obtain ⟨_, hf, hr⟩ := ha
    cases hd : decode w p with
    | error e => exact ⟨_, startCommand_error hd _, .inr (.inr ⟨e, rfl, rfl⟩)⟩
    | ok i =>
      rw [startCommand_ok hd]
      obtain ⟨t, ht⟩ := exec_next i (issue { s with host := rest } w p)
      obtain ⟨hrefused, _⟩ := exec_params ht
      refine ⟨t, ht, ?_⟩
      rcases exec_completes_or_faults ht (.inl hm) with ⟨hdone, hfault⟩ | ⟨code, rfl⟩
      · exact .inl ⟨hdone, hfault.trans hf, hrefused.trans hr⟩
      · obtain ⟨_, hw, _⟩ := onlyEncodedWordsDecode w p i hd
        exact .inr (.inl ⟨code, by rw [raiseFault_fault, hw], rfl⟩)
  case command =>
    obtain ⟨t, ht⟩ := exec_next i s
    exact ⟨t, ht, (exec_completes_or_faults ht hi).imp_left fun ⟨hdone, _⟩ => hdone⟩

end Sys2Proof.Machine
end

section
/-! PROOFS. The reset statements (70_reset_and_hazards.md): a reset is taken from any state and between any two
micro-steps of a command. -/

namespace Sys2Proof.Machine

/-- The step looks at the host's list before KDB, so nothing of KDB stands in a reset's way (R178, R180). -/
theorem step_reset {s : State} {l : Option Byte} {rest : List HostAction} (hh : s.host = .reset l :: rest) :
    step s = .next (platformReset { s with host := rest } l) := by
  simp only [step, machineStep, hh]

/-- Settles O8: the step of a pending reset, and for a reset in mid-command the one action whose micro-steps
`issueThenReset_eq` shows to leave nothing but the environment and its counter. -/
theorem resetFromAnyState : Obligations.ResetFromAnyState := by
  refine ⟨fun s l rest hh => step_reset hh, fun s w p n l rest ha hh => ?_⟩
  have hstep : step s = .next (issueThenReset { s with host := rest } w p n l) := step_hostAction ha hh
  exact ⟨_, hstep, issueThenReset_eq { s with host := rest } w p n l⟩

end Sys2Proof.Machine
end
